-- ==== Sys2Proof/Word.lean ====
section
/-! DEFINITION. The word types of the core and the access widths (00_scope.md R10, R14, R15, R17). -/

namespace Sys2Proof

/-- A register value, an address, an ALU result: 32 bits, modulo 2^32 (R10, R15). -/
abbrev Word := BitVec 32

/-- An instruction halfword: 16 bits (R10). -/
abbrev Half := BitVec 16

/-- The smallest addressable unit (R60). -/
abbrev Byte := BitVec 8

/-- The number of a low register R0 to R7, a 3-bit field (R113). -/
abbrev LowReg := BitVec 3

/-- The number of a register R0 to R15, a 4-bit field (R30, R113). -/
abbrev Reg := BitVec 4

/-- The three widths a memory access has: n = 1, 2 or 4 bytes (R17). -/
inductive Width where
  | byte
  | half
  | word
  deriving DecidableEq, Repr

/-- The n of an access (R17). -/
def Width.bytes : Width → Nat
  | .byte => 1
  | .half => 2
  | .word => 4

end Sys2Proof
end

