-- ==== Sys2Proof/Syntax.lean ====
section
/-! DEFINITION. The instructions: one constructor per row of spec/opcode_table.json, in the table's order, its arguments the fields of
the encoding (30_encoding.md R92 to R112). Should-be-zero and ignored bits are kept, since the error record of a fatal instruction holds
the raw halfwords (60_exceptions.md R270 to R273) and the UNPREDICTABLE list of 93_implementation_defined.md depends on them. -/

namespace Sys2Proof

inductive Instr where
  -- format 1: move shifted register (R92)
  | lslImm (imm5 : BitVec 5) (rs rd : LowReg)
  | lsrImm (imm5 : BitVec 5) (rs rd : LowReg)
  | asrImm (imm5 : BitVec 5) (rs rd : LowReg)
  -- format 2: add/subtract (R93)
  | addReg (rn rs rd : LowReg)
  | subReg (rn rs rd : LowReg)
  | addImm3 (imm3 : BitVec 3) (rs rd : LowReg)
  | subImm3 (imm3 : BitVec 3) (rs rd : LowReg)
  -- format 3: move/compare/add/subtract immediate (R94)
  | movImm8 (rd : LowReg) (imm8 : BitVec 8)
  | cmpImm8 (rd : LowReg) (imm8 : BitVec 8)
  | addImm8 (rd : LowReg) (imm8 : BitVec 8)
  | subImm8 (rd : LowReg) (imm8 : BitVec 8)
  -- format 4: ALU operations (R95)
  | and (rs rd : LowReg)
  | eor (rs rd : LowReg)
  | lslReg (rs rd : LowReg)
  | lsrReg (rs rd : LowReg)
  | asrReg (rs rd : LowReg)
  | adc (rs rd : LowReg)
  | sbc (rs rd : LowReg)
  | ror (rs rd : LowReg)
  | tst (rs rd : LowReg)
  | neg (rs rd : LowReg)
  | cmpReg (rs rd : LowReg)
  | cmn (rs rd : LowReg)
  | orr (rs rd : LowReg)
  | mul (rs rd : LowReg)
  | bic (rs rd : LowReg)
  | mvn (rs rd : LowReg)
  -- format 5: hi-register operations and branch exchange (R96): m = H2:Rs, d = H1:Rd
  | addHi (m d : Reg)
  | cmpHi (m d : Reg)
  | movHi (m d : Reg)
  | bx (m : Reg) (sbz : BitVec 3)
  | blx (m : Reg) (sbz : BitVec 3)
  -- format 6: PC-relative load (R97)
  | ldrPc (rd : LowReg) (imm8 : BitVec 8)
  -- format 7: load/store with register offset (R98)
  | strReg (ro rb rd : LowReg)
  | strbReg (ro rb rd : LowReg)
  | ldrReg (ro rb rd : LowReg)
  | ldrbReg (ro rb rd : LowReg)
  -- format 8: load/store sign-extended byte/halfword (R99)
  | strhReg (ro rb rd : LowReg)
  | ldrhReg (ro rb rd : LowReg)
  | ldsb (ro rb rd : LowReg)
  | ldsh (ro rb rd : LowReg)
  -- format 9: load/store with immediate offset (R100)
  | strImm (imm5 : BitVec 5) (rb rd : LowReg)
  | ldrImm (imm5 : BitVec 5) (rb rd : LowReg)
  | strbImm (imm5 : BitVec 5) (rb rd : LowReg)
  | ldrbImm (imm5 : BitVec 5) (rb rd : LowReg)
  -- format 10: load/store halfword with immediate offset (R101)
  | strhImm (imm5 : BitVec 5) (rb rd : LowReg)
  | ldrhImm (imm5 : BitVec 5) (rb rd : LowReg)
  -- format 11: SP-relative load/store (R102)
  | strSp (rd : LowReg) (imm8 : BitVec 8)
  | ldrSp (rd : LowReg) (imm8 : BitVec 8)
  -- format 12: load address (R103)
  | addPc (rd : LowReg) (imm8 : BitVec 8)
  | addRdSp (rd : LowReg) (imm8 : BitVec 8)
  -- format 13: add offset to stack pointer (R104)
  | addSp (imm7 : BitVec 7)
  | subSp (imm7 : BitVec 7)
  -- format 14: push/pop registers (R105): `lr` and `pc` are the R bit
  | push (lr : Bool) (rlist : BitVec 8)
  | pop (pc : Bool) (rlist : BitVec 8)
  -- format 15: multiple load/store (R106)
  | stmia (rb : LowReg) (rlist : BitVec 8)
  | ldmia (rb : LowReg) (rlist : BitVec 8)
  -- format 16: conditional branch (R107)
  | beq (imm8 : BitVec 8)
  | bne (imm8 : BitVec 8)
  | bcs (imm8 : BitVec 8)
  | bcc (imm8 : BitVec 8)
  | bmi (imm8 : BitVec 8)
  | bpl (imm8 : BitVec 8)
  | bvs (imm8 : BitVec 8)
  | bvc (imm8 : BitVec 8)
  | bhi (imm8 : BitVec 8)
  | bls (imm8 : BitVec 8)
  | bge (imm8 : BitVec 8)
  | blt (imm8 : BitVec 8)
  | bgt (imm8 : BitVec 8)
  | ble (imm8 : BitVec 8)
  /-- conditional branch with cond = 1110 (R119) -/
  | bUndefined (imm8 : BitVec 8)
  -- format 17: software interrupt (R108)
  | svc (imm8 : BitVec 8)
  -- format 18: unconditional branch (R109)
  | b (imm11 : BitVec 11)
  -- format 19: long branch with link (R110)
  | bl (s : BitVec 1) (imm10 : BitVec 10) (j1 j2 : BitVec 1) (imm11 : BitVec 11)
  -- recognised but unimplemented (R111, R112)
  | nop
  | yield
  | wfe
  | wfi
  | sev
  /-- the other hints, op = 5..15 -/
  | hint (op : BitVec 4)
  /-- `low` is bits 3:0: two should-be-zero bits, then I and F -/
  | cpsie (low : BitVec 4)
  | cpsid (low : BitVec 4)
  | bkpt (imm8 : BitVec 8)
  | dsb (option : BitVec 4)
  | dmb (option : BitVec 4)
  | isb (option : BitVec 4)
  deriving DecidableEq, Repr

end Sys2Proof
end

