-- ==== Sys2Proof/WellFormed.lean ====
section
/-! DEFINITION. Which terms of Instr stand for an encoding. The widths of the fields are in their types, so no register number or
immediate can be out of range (R113); one check is left. -/

namespace Sys2Proof

/-- The hint space: op = 0 to 4 are the named hints, each its own row of the table, so the row of the other hints has op = 5 to 15
(45_unimplemented.md R256; 30_encoding.md R116). -/
def Instr.wf : Instr → Bool
  | .hint op => decide (5 ≤ op.toNat)
  | _ => true

end Sys2Proof
end

