-- ==== Sys2Proof/Decode.lean ====
section
/-! DEFINITION. The priority decoder (30_encoding.md R90, R113 to R120), total on any two halfwords and on any bytes, and the encoder
written from the same format tables (R92 to R112). -/

namespace Sys2Proof

/-! ## The decode table -/

/-- The classes of the decode table, one per entry P1 to P31 of R115. -/
inductive OpClass where
  | nop | yield | wfe | wfi | sev | otherHint
  | dsb | dmb | isb
  | cpsie | cpsid | bkpt | svc
  | longBranch
  | adjustSp | pushPop
  | hiRegister | alu
  | loadPc
  | loadStoreSigned | loadStoreRegister
  | addSubtract | moveShifted | immediate
  | loadStoreImmediate | loadStoreHalf | loadStoreSp
  | loadAddress | multiple
  | condBranch | branch
  deriving DecidableEq, Repr

/-- One entry of the table: hw1's mask and match, and the mask and match of hw2 where the entry has a condition on it (R115). -/
structure DecodeRow where
  mask  : Half
  bits  : Half
  hw2   : Option (Half × Half)
  cls   : OpClass
  deriving DecidableEq, Repr

/-- An entry matches only if both halfword conditions hold (R115). -/
def DecodeRow.matches (r : DecodeRow) (hw1 hw2 : Half) : Bool :=
  (hw1 &&& r.mask == r.bits) &&
    match r.hw2 with
    | none => true
    | some (mask, bits) => hw2 &&& mask == bits

/-- P1 to P14 of R115: the literals, the barriers, the miscellaneous encodings and BL. -/
def decodeTableSpecial : List DecodeRow := [
  ⟨0xFFFF, 0xBF00, none, .nop⟩,
  ⟨0xFFFF, 0xBF10, none, .yield⟩,
  ⟨0xFFFF, 0xBF20, none, .wfe⟩,
  ⟨0xFFFF, 0xBF30, none, .wfi⟩,
  ⟨0xFFFF, 0xBF40, none, .sev⟩,
  ⟨0xFF0F, 0xBF00, none, .otherHint⟩,
  ⟨0xFFFF, 0xF3BF, some (0xFFF0, 0x8F40), .dsb⟩,
  ⟨0xFFFF, 0xF3BF, some (0xFFF0, 0x8F50), .dmb⟩,
  ⟨0xFFFF, 0xF3BF, some (0xFFF0, 0x8F60), .isb⟩,
  ⟨0xFFF0, 0xB660, none, .cpsie⟩,
  ⟨0xFFF0, 0xB670, none, .cpsid⟩,
  ⟨0xFF00, 0xBE00, none, .bkpt⟩,
  ⟨0xFF00, 0xDF00, none, .svc⟩,
  ⟨0xF800, 0xF000, some (0xD000, 0xD000), .longBranch⟩]

/-- P15 to P31 of R115: the general classes. -/
def decodeTableGeneral : List DecodeRow := [
  ⟨0xFF00, 0xB000, none, .adjustSp⟩,
  ⟨0xF600, 0xB400, none, .pushPop⟩,
  ⟨0xFC00, 0x4400, none, .hiRegister⟩,
  ⟨0xFC00, 0x4000, none, .alu⟩,
  ⟨0xF800, 0x4800, none, .loadPc⟩,
  ⟨0xF200, 0x5200, none, .loadStoreSigned⟩,
  ⟨0xF200, 0x5000, none, .loadStoreRegister⟩,
  ⟨0xF800, 0x1800, none, .addSubtract⟩,
  ⟨0xE000, 0x0000, none, .moveShifted⟩,
  ⟨0xE000, 0x2000, none, .immediate⟩,
  ⟨0xE000, 0x6000, none, .loadStoreImmediate⟩,
  ⟨0xF000, 0x8000, none, .loadStoreHalf⟩,
  ⟨0xF000, 0x9000, none, .loadStoreSp⟩,
  ⟨0xF000, 0xA000, none, .loadAddress⟩,
  ⟨0xF000, 0xC000, none, .multiple⟩,
  ⟨0xF000, 0xD000, none, .condBranch⟩,
  ⟨0xF800, 0xE000, none, .branch⟩]

/-- The table of R115, tested top to bottom. -/
def decodeTable : List DecodeRow := decodeTableSpecial ++ decodeTableGeneral

/-- First match wins (R115). -/
def classify (hw1 hw2 : Half) : Option OpClass :=
  (decodeTable.find? (·.matches hw1 hw2)).map (·.cls)

/-! ## Fields and sub-opcodes -/

/-- The field `hw[lo + n - 1 : lo]` (R14). -/
def fieldAt (hw : Half) (lo n : Nat) : BitVec n := hw.extractLsb' lo n

/-- Format 2 (R93): I and op select the instruction. -/
def decodeAddSubtract (hw : Half) : Instr :=
  let third := fieldAt hw 6 3
  let rs := fieldAt hw 3 3
  let rd := fieldAt hw 0 3
  match hw.getLsbD 10, hw.getLsbD 9 with
  | false, false => .addReg third rs rd
  | false, true  => .subReg third rs rd
  | true,  false => .addImm3 third rs rd
  | true,  true  => .subImm3 third rs rd

/-- Format 1 (R92). Its op = 11 is format 2 and is shadowed by P22 (R116). -/
def decodeMoveShifted (hw : Half) : Instr :=
  let imm5 := fieldAt hw 6 5
  let rs := fieldAt hw 3 3
  let rd := fieldAt hw 0 3
  match hw.getLsbD 12, hw.getLsbD 11 with
  | false, false => .lslImm imm5 rs rd
  | false, true  => .lsrImm imm5 rs rd
  | true,  false => .asrImm imm5 rs rd
  | true,  true  => decodeAddSubtract hw

/-- Format 3 (R94). -/
def decodeImmediate (hw : Half) : Instr :=
  let rd := fieldAt hw 8 3
  let imm8 := fieldAt hw 0 8
  match hw.getLsbD 12, hw.getLsbD 11 with
  | false, false => .movImm8 rd imm8
  | false, true  => .cmpImm8 rd imm8
  | true,  false => .addImm8 rd imm8
  | true,  true  => .subImm8 rd imm8

/-- Format 4 (R95): the 16-way op. -/
def decodeAlu (hw : Half) : Instr :=
  let rs := fieldAt hw 3 3
  let rd := fieldAt hw 0 3
  match hw.getLsbD 9, hw.getLsbD 8, hw.getLsbD 7, hw.getLsbD 6 with
  | false, false, false, false => .and rs rd
  | false, false, false, true  => .eor rs rd
  | false, false, true,  false => .lslReg rs rd
  | false, false, true,  true  => .lsrReg rs rd
  | false, true,  false, false => .asrReg rs rd
  | false, true,  false, true  => .adc rs rd
  | false, true,  true,  false => .sbc rs rd
  | false, true,  true,  true  => .ror rs rd
  | true,  false, false, false => .tst rs rd
  | true,  false, false, true  => .neg rs rd
  | true,  false, true,  false => .cmpReg rs rd
  | true,  false, true,  true  => .cmn rs rd
  | true,  true,  false, false => .orr rs rd
  | true,  true,  false, true  => .mul rs rd
  | true,  true,  true,  false => .bic rs rd
  | true,  true,  true,  true  => .mvn rs rd

/-- Format 5 (R96): m = H2:Rs, d = H1:Rd; op = 11 is BX or BLX by H1, its bits 2:0 ignored (R118). -/
def decodeHiRegister (hw : Half) : Instr :=
  let m := fieldAt hw 3 4
  let d := fieldAt hw 7 1 ++ fieldAt hw 0 3
  match hw.getLsbD 9, hw.getLsbD 8 with
  | false, false => .addHi m d
  | false, true  => .cmpHi m d
  | true,  false => .movHi m d
  | true,  true  => if hw.getLsbD 7 then .blx m (fieldAt hw 0 3) else .bx m (fieldAt hw 0 3)

/-- Format 7 (R98): L and B. -/
def decodeLoadStoreRegister (hw : Half) : Instr :=
  let ro := fieldAt hw 6 3
  let rb := fieldAt hw 3 3
  let rd := fieldAt hw 0 3
  match hw.getLsbD 11, hw.getLsbD 10 with
  | false, false => .strReg ro rb rd
  | false, true  => .strbReg ro rb rd
  | true,  false => .ldrReg ro rb rd
  | true,  true  => .ldrbReg ro rb rd

/-- Format 8 (R99): H is bit 11, S is bit 10. -/
def decodeLoadStoreSigned (hw : Half) : Instr :=
  let ro := fieldAt hw 6 3
  let rb := fieldAt hw 3 3
  let rd := fieldAt hw 0 3
  match hw.getLsbD 10, hw.getLsbD 11 with
  | false, false => .strhReg ro rb rd
  | false, true  => .ldrhReg ro rb rd
  | true,  false => .ldsb ro rb rd
  | true,  true  => .ldsh ro rb rd

/-- Format 9 (R100): B is bit 12, L is bit 11. -/
def decodeLoadStoreImmediate (hw : Half) : Instr :=
  let imm5 := fieldAt hw 6 5
  let rb := fieldAt hw 3 3
  let rd := fieldAt hw 0 3
  match hw.getLsbD 12, hw.getLsbD 11 with
  | false, false => .strImm imm5 rb rd
  | false, true  => .ldrImm imm5 rb rd
  | true,  false => .strbImm imm5 rb rd
  | true,  true  => .ldrbImm imm5 rb rd

/-- Format 16 (R107). cond = 1110 is R119's undefined branch; cond = 1111 is format 17, shadowed by P13 (R116). -/
def decodeCondBranch (hw : Half) : Instr :=
  let imm8 := fieldAt hw 0 8
  match hw.getLsbD 11, hw.getLsbD 10, hw.getLsbD 9, hw.getLsbD 8 with
  | false, false, false, false => .beq imm8
  | false, false, false, true  => .bne imm8
  | false, false, true,  false => .bcs imm8
  | false, false, true,  true  => .bcc imm8
  | false, true,  false, false => .bmi imm8
  | false, true,  false, true  => .bpl imm8
  | false, true,  true,  false => .bvs imm8
  | false, true,  true,  true  => .bvc imm8
  | true,  false, false, false => .bhi imm8
  | true,  false, false, true  => .bls imm8
  | true,  false, true,  false => .bge imm8
  | true,  false, true,  true  => .blt imm8
  | true,  true,  false, false => .bgt imm8
  | true,  true,  false, true  => .ble imm8
  | true,  true,  true,  false => .bUndefined imm8
  | true,  true,  true,  true  => .svc imm8

/-- Format 19 (R110). -/
def decodeLongBranch (hw1 hw2 : Half) : Instr :=
  .bl (fieldAt hw1 10 1) (fieldAt hw1 0 10) (fieldAt hw2 13 1) (fieldAt hw2 11 1) (fieldAt hw2 0 11)

/-- "Within a class the handler selects the instruction by the sub-opcode fields" (R115). -/
def OpClass.select (cls : OpClass) (hw1 hw2 : Half) : Instr :=
  match cls with
  | .nop => .nop
  | .yield => .yield
  | .wfe => .wfe
  | .wfi => .wfi
  | .sev => .sev
  | .otherHint => .hint (fieldAt hw1 4 4)
  | .dsb => .dsb (fieldAt hw2 0 4)
  | .dmb => .dmb (fieldAt hw2 0 4)
  | .isb => .isb (fieldAt hw2 0 4)
  | .cpsie => .cpsie (fieldAt hw1 0 4)
  | .cpsid => .cpsid (fieldAt hw1 0 4)
  | .bkpt => .bkpt (fieldAt hw1 0 8)
  | .svc => .svc (fieldAt hw1 0 8)
  | .longBranch => decodeLongBranch hw1 hw2
  | .adjustSp => if hw1.getLsbD 7 then .subSp (fieldAt hw1 0 7) else .addSp (fieldAt hw1 0 7)
  | .pushPop => if hw1.getLsbD 11 then .pop (hw1.getLsbD 8) (fieldAt hw1 0 8) else .push (hw1.getLsbD 8) (fieldAt hw1 0 8)
  | .hiRegister => decodeHiRegister hw1
  | .alu => decodeAlu hw1
  | .loadPc => .ldrPc (fieldAt hw1 8 3) (fieldAt hw1 0 8)
  | .loadStoreSigned => decodeLoadStoreSigned hw1
  | .loadStoreRegister => decodeLoadStoreRegister hw1
  | .addSubtract => decodeAddSubtract hw1
  | .moveShifted => decodeMoveShifted hw1
  | .immediate => decodeImmediate hw1
  | .loadStoreImmediate => decodeLoadStoreImmediate hw1
  | .loadStoreHalf =>
    if hw1.getLsbD 11 then .ldrhImm (fieldAt hw1 6 5) (fieldAt hw1 3 3) (fieldAt hw1 0 3)
    else .strhImm (fieldAt hw1 6 5) (fieldAt hw1 3 3) (fieldAt hw1 0 3)
  | .loadStoreSp =>
    if hw1.getLsbD 11 then .ldrSp (fieldAt hw1 8 3) (fieldAt hw1 0 8) else .strSp (fieldAt hw1 8 3) (fieldAt hw1 0 8)
  | .loadAddress =>
    if hw1.getLsbD 11 then .addRdSp (fieldAt hw1 8 3) (fieldAt hw1 0 8) else .addPc (fieldAt hw1 8 3) (fieldAt hw1 0 8)
  | .multiple =>
    if hw1.getLsbD 11 then .ldmia (fieldAt hw1 8 3) (fieldAt hw1 0 8) else .stmia (fieldAt hw1 8 3) (fieldAt hw1 0 8)
  | .condBranch => decodeCondBranch hw1
  | .branch => .b (fieldAt hw1 0 11)

/-- Why a pair of halfwords is no instruction: no entry matches hw1 (R117; only hw1 is recorded, R265). -/
inductive DecodeError where
  | unknownInstruction (hw1 : Half)
  deriving DecidableEq, Repr

/-- `Decode(hw1, hw2)` (R115). -/
def decode (hw1 hw2 : Half) : Except DecodeError Instr :=
  match classify hw1 hw2 with
  | some cls => .ok (cls.select hw1 hw2)
  | none => .error (.unknownInstruction hw1)

/-! ## Lengths and bytes -/

/-- The instructions of two halfwords: BL and the three barriers (R90). -/
def Instr.isLong : Instr → Bool
  | .bl .. | .dsb _ | .dmb _ | .isb _ => true
  | _ => false

/-- Why a sequence of bytes does not begin with an instruction. -/
inductive DecodeBytesError where
  | tooFewBytes
  | unknown (e : DecodeError)
  deriving DecidableEq, Repr

/-- A halfword of two bytes, the low byte first (R71). -/
def halfOfBytes (lo hi : Byte) : Half := hi ++ lo

/-- The two bytes of a halfword, the low byte first (R71). -/
def bytesOfHalf (h : Half) : List Byte := [fieldAt h 0 8, fieldAt h 8 8]

/-- The first instruction of a byte sequence, hw1 at the lower address (R71, R91), and the rest of the sequence. A 16-bit instruction at
the very end is decoded with hw2 = 0, on which its class does not depend (R90). -/
def decodeBytes : List Byte → Except DecodeBytesError (Instr × List Byte)
  | b0 :: b1 :: b2 :: b3 :: rest =>
    match decode (halfOfBytes b0 b1) (halfOfBytes b2 b3) with
    | .ok i => .ok (i, if i.isLong then rest else b2 :: b3 :: rest)
    | .error e => .error (.unknown e)
  | b0 :: b1 :: rest =>
    match decode (halfOfBytes b0 b1) 0 with
    | .ok i => if i.isLong then .error .tooFewBytes else .ok (i, rest)
    | .error e => .error (.unknown e)
  | _ => .error .tooFewBytes

/-- The halfwords of an instruction whose bits are `w`, as the opcode table numbers them: the table writes a 32-bit row as hw1:hw2,
hw1 in bits 31:16 (R91; log entry 15). -/
def tableHalves (nbits w : Nat) : Half × Half :=
  if nbits ≤ 16 then (BitVec.ofNat 16 w, 0)
  else (BitVec.ofNat 16 (w / 65536), BitVec.ofNat 16 w)

/-- What the decoder reads from an instruction word numbered as the opcode table numbers it: the two halfwords laid out as bytes in memory
order and given to `decodeBytes`. -/
def decodeTableWord (nbits w : Nat) : Option Instr :=
  let (hw1, hw2) := tableHalves nbits w
  match decodeBytes (bytesOfHalf hw1 ++ bytesOfHalf hw2) with
  | .ok (i, _) => some i
  | .error _ => none

/-! ## The encoder -/

/-- A condition bit as a field. -/
def bit (x : Bool) : BitVec 1 := BitVec.ofBool x

/-- Formats 1, 9 (R92, R100): five opcode bits, imm5 and two registers. -/
def encImm5 (op : BitVec 5) (imm5 : BitVec 5) (rs rd : LowReg) : Half := op ++ imm5 ++ rs ++ rd

/-- Formats 2, 7, 8 (R93, R98, R99): seven opcode bits and three 3-bit fields. -/
def encThree (op : BitVec 7) (third rs rd : BitVec 3) : Half := op ++ third ++ rs ++ rd

/-- Formats 3, 6, 11, 12, 15 (R94, R97, R102, R103, R106): five opcode bits, a register, eight bits. -/
def encImm8 (op : BitVec 5) (rd : LowReg) (imm8 : BitVec 8) : Half := op ++ rd ++ imm8

/-- Format 4 (R95): `010000 op Rs Rd`. -/
def encAlu (op : BitVec 4) (rs rd : LowReg) : Half := 0b010000#6 ++ op ++ rs ++ rd

/-- Format 5 (R96): `010001 op H1 H2 Rs Rd`. -/
def encHi (op : BitVec 2) (m d : Reg) : Half := 0b010001#6 ++ op ++ d.extractLsb' 3 1 ++ m ++ d.extractLsb' 0 3

/-- Format 16 and the other encodings of eight opcode bits and an imm8 (R105, R107, R108, R111). -/
def encByte (op imm8 : BitVec 8) : Half := op ++ imm8

/-- The first halfword of an instruction (R92 to R112). -/
def encodeFirst : Instr → Half
  | .lslImm imm5 rs rd => encImm5 0b00000 imm5 rs rd
  | .lsrImm imm5 rs rd => encImm5 0b00001 imm5 rs rd
  | .asrImm imm5 rs rd => encImm5 0b00010 imm5 rs rd
  | .addReg rn rs rd => encThree 0b0001100 rn rs rd
  | .subReg rn rs rd => encThree 0b0001101 rn rs rd
  | .addImm3 imm3 rs rd => encThree 0b0001110 imm3 rs rd
  | .subImm3 imm3 rs rd => encThree 0b0001111 imm3 rs rd
  | .movImm8 rd imm8 => encImm8 0b00100 rd imm8
  | .cmpImm8 rd imm8 => encImm8 0b00101 rd imm8
  | .addImm8 rd imm8 => encImm8 0b00110 rd imm8
  | .subImm8 rd imm8 => encImm8 0b00111 rd imm8
  | .and rs rd => encAlu 0b0000 rs rd
  | .eor rs rd => encAlu 0b0001 rs rd
  | .lslReg rs rd => encAlu 0b0010 rs rd
  | .lsrReg rs rd => encAlu 0b0011 rs rd
  | .asrReg rs rd => encAlu 0b0100 rs rd
  | .adc rs rd => encAlu 0b0101 rs rd
  | .sbc rs rd => encAlu 0b0110 rs rd
  | .ror rs rd => encAlu 0b0111 rs rd
  | .tst rs rd => encAlu 0b1000 rs rd
  | .neg rs rd => encAlu 0b1001 rs rd
  | .cmpReg rs rd => encAlu 0b1010 rs rd
  | .cmn rs rd => encAlu 0b1011 rs rd
  | .orr rs rd => encAlu 0b1100 rs rd
  | .mul rs rd => encAlu 0b1101 rs rd
  | .bic rs rd => encAlu 0b1110 rs rd
  | .mvn rs rd => encAlu 0b1111 rs rd
  | .addHi m d => encHi 0b00 m d
  | .cmpHi m d => encHi 0b01 m d
  | .movHi m d => encHi 0b10 m d
  | .bx m sbz => encHi 0b11 m (0#1 ++ sbz)
  | .blx m sbz => encHi 0b11 m (1#1 ++ sbz)
  | .ldrPc rd imm8 => encImm8 0b01001 rd imm8
  | .strReg ro rb rd => encThree 0b0101000 ro rb rd
  | .strbReg ro rb rd => encThree 0b0101010 ro rb rd
  | .ldrReg ro rb rd => encThree 0b0101100 ro rb rd
  | .ldrbReg ro rb rd => encThree 0b0101110 ro rb rd
  | .strhReg ro rb rd => encThree 0b0101001 ro rb rd
  | .ldrhReg ro rb rd => encThree 0b0101101 ro rb rd
  | .ldsb ro rb rd => encThree 0b0101011 ro rb rd
  | .ldsh ro rb rd => encThree 0b0101111 ro rb rd
  | .strImm imm5 rb rd => encImm5 0b01100 imm5 rb rd
  | .ldrImm imm5 rb rd => encImm5 0b01101 imm5 rb rd
  | .strbImm imm5 rb rd => encImm5 0b01110 imm5 rb rd
  | .ldrbImm imm5 rb rd => encImm5 0b01111 imm5 rb rd
  | .strhImm imm5 rb rd => encImm5 0b10000 imm5 rb rd
  | .ldrhImm imm5 rb rd => encImm5 0b10001 imm5 rb rd
  | .strSp rd imm8 => encImm8 0b10010 rd imm8
  | .ldrSp rd imm8 => encImm8 0b10011 rd imm8
  | .addPc rd imm8 => encImm8 0b10100 rd imm8
  | .addRdSp rd imm8 => encImm8 0b10101 rd imm8
  | .addSp imm7 => encByte 0b10110000 (0#1 ++ imm7)
  | .subSp imm7 => encByte 0b10110000 (1#1 ++ imm7)
  | .push lr rlist => encByte (0b1011010#7 ++ bit lr) rlist
  | .pop pc rlist => encByte (0b1011110#7 ++ bit pc) rlist
  | .stmia rb rlist => encImm8 0b11000 rb rlist
  | .ldmia rb rlist => encImm8 0b11001 rb rlist
  | .beq imm8 => encByte 0b11010000 imm8
  | .bne imm8 => encByte 0b11010001 imm8
  | .bcs imm8 => encByte 0b11010010 imm8
  | .bcc imm8 => encByte 0b11010011 imm8
  | .bmi imm8 => encByte 0b11010100 imm8
  | .bpl imm8 => encByte 0b11010101 imm8
  | .bvs imm8 => encByte 0b11010110 imm8
  | .bvc imm8 => encByte 0b11010111 imm8
  | .bhi imm8 => encByte 0b11011000 imm8
  | .bls imm8 => encByte 0b11011001 imm8
  | .bge imm8 => encByte 0b11011010 imm8
  | .blt imm8 => encByte 0b11011011 imm8
  | .bgt imm8 => encByte 0b11011100 imm8
  | .ble imm8 => encByte 0b11011101 imm8
  | .bUndefined imm8 => encByte 0b11011110 imm8
  | .svc imm8 => encByte 0b11011111 imm8
  | .b imm11 => 0b11100#5 ++ imm11
  | .bl s imm10 _ _ _ => 0b11110#5 ++ s ++ imm10
  | .nop => 0xBF00
  | .yield => 0xBF10
  | .wfe => 0xBF20
  | .wfi => 0xBF30
  | .sev => 0xBF40
  | .hint op => encByte 0xBF (op ++ 0#4)
  | .cpsie low => encByte 0xB6 (0x6#4 ++ low)
  | .cpsid low => encByte 0xB6 (0x7#4 ++ low)
  | .bkpt imm8 => encByte 0xBE imm8
  | .dsb _ => 0xF3BF
  | .dmb _ => 0xF3BF
  | .isb _ => 0xF3BF

/-- The second halfword of BL and of the barriers (R110, R112). -/
def encodeSecond : Instr → Option Half
  | .bl _ _ j1 j2 imm11 => some (0b11#2 ++ j1 ++ 1#1 ++ j2 ++ imm11)
  | .dsb option => some (0x8F4#12 ++ option)
  | .dmb option => some (0x8F5#12 ++ option)
  | .isb option => some (0x8F6#12 ++ option)
  | _ => none

/-- The halfwords of a well-formed instruction, the first at the lower address (R91). -/
def encode (i : Instr) : List Half := encodeFirst i :: (encodeSecond i).toList

/-! ## The encodings ARMv7-M calls UNPREDICTABLE -/

/-- UP1 to UP6 of 93_implementation_defined.md, the encodings `UNPRED_POLICY` governs. UP7 and UP8 (CPS bits, barrier options) fault with
NotImplementedFeature under either policy and are not in the list. -/
def Instr.unpredictable : Instr → Bool
  | .cmpHi m d => (m < 8 && d < 8) || m == 15 || d == 15                                  -- UP1
  | .addHi m d => m == 15 && d == 15                                                      -- UP2
  | .bx _ sbz => sbz != 0                                                                 -- UP3
  | .blx m sbz => sbz != 0 || m == 15                                                     -- UP3, UP4
  | .push lr rlist => !lr && rlist == 0                                                   -- UP5
  | .pop pc rlist => !pc && rlist == 0                                                    -- UP5
  | .ldmia _ rlist => rlist == 0                                                          -- UP5
  | .stmia rb rlist =>                                                                    -- UP5, UP6
    rlist == 0 || (rlist.getLsbD rb.toNat && (rlist &&& ((1#8 <<< rb.toNat) - 1)) != 0)
  | _ => false

end Sys2Proof
end

