-- ==== Sys2Proof/Config.lean ====
section
/-! DEFINITION. The platform parameters the source leaves open (00_scope.md R11, R12), as plain data carried in State, and the one
free value of the model: what a peripheral answers a read with (20_memory.md R66). -/

namespace Sys2Proof

/-- `MISALIGNED_POLICY` (R12, R69; D2). -/
inductive MisalignedPolicy where
  /-- the default: the access is made at the address given, with no fault -/
  | bytewise
  /-- a misaligned data access of 2 or 4 bytes is a fatal error -/
  | fault
  deriving DecidableEq, Repr

/-- `UNPRED_POLICY` (R12; D15), for the encodings ARMv7-M calls UNPREDICTABLE. -/
inductive UnpredPolicy where
  /-- the default: the instruction's rule runs as written -/
  | literal
  /-- the encoding is a fatal error at decode -/
  | fault
  deriving DecidableEq, Repr

/-- A registered peripheral: its half-open range `[start, stop)` and its name (R11, R62; the spec's `end` is Lean's keyword).
The bounds are 32-bit addresses, so no range reaches past 0xFFFFFFFE (R70; log entry 10). -/
structure Peripheral where
  start : Word
  stop  : Word
  name  : String
  deriving DecidableEq, Repr

/-- What the platform fixes before a run: the inclusive bounds of the two byte arrays, the registry in registration order, and the
two policies (R11, R12, R61, R80). -/
structure Platform where
  codeBegin   : Word
  codeEnd     : Word
  sramBegin   : Word
  sramEnd     : Word
  peripherals : List Peripheral
  misaligned  : MisalignedPolicy
  unpred      : UnpredPolicy
  deriving DecidableEq, Repr

/-- Reading, or writing a value (of which only the low 8n bits are the access's). -/
inductive AccessKind where
  | read
  | write (value : Word)
  deriving DecidableEq, Repr

/-- One access that reached a peripheral: which, of what width, at which absolute address (R66; D20). -/
structure PeripheralAccess where
  peripheral : Peripheral
  width      : Width
  addr       : Word
  kind       : AccessKind
  deriving DecidableEq, Repr

/-- The platform of `State.reset`: the example bounds of 95_test_vectors.md section 0, no peripheral, the default policies.
DESIGN CHOICE (log entry 4, unsafe for claims about this one platform; every claim of this package is for every platform): the spec
gives no bounds (D3). The policies' defaults are the spec's (D2, D15). -/
def Config.examplePlatform : Platform where
  codeBegin   := 0x00000000
  codeEnd     := 0x0000FFFF
  sramBegin   := 0x20000000
  sramEnd     := 0x2000FFFF
  peripherals := []
  misaligned  := .bytewise
  unpred      := .literal

/-- FREE VALUE (log entry 8, safe). The oracle of R66 and ID2: the value peripheral `p` answers a read of width `w` at `addr` with,
when `history` is every earlier access to `p`, newest first. It has no body, so nothing can be proved about its value. -/
opaque Config.peripheralRead (p : Peripheral) (history : List PeripheralAccess) (w : Width) (addr : Word) : BitVec (8 * w.bytes)

end Sys2Proof
end

