-- ==== Sys2Proof/Machine/State.lean ====
section
/-! DEFINITION. Everything the spec gives the machine, as plain data (10_state.md, 20_memory.md R61, R66, R79; 60_exceptions.md R270),
and the state right after reset (70_reset_and_hazards.md R300, R301). -/

namespace Sys2Proof.Machine

/-- The condition flags (R33). -/
structure Flags where
  n : Bool
  z : Bool
  c : Bool
  v : Bool
  deriving DecidableEq, Repr

/-! ## Fatal errors (60_exceptions.md) -/

/-- The recognised-but-unimplemented instructions (R250 to R263), whose name is part of the error. -/
inductive Feature where
  | nop | yield | wfe | wfi | sev | hint | cpsie | cpsid | svc | bkpt | dsb | dmb | isb
  deriving DecidableEq, Repr

/-- The info of UnsupportedSubOperation (R272). -/
inductive SubOperation where
  /-- the raw halfword: cond = 1110 -/
  | encoding (hw1 : Half)
  /-- under MISALIGNED_POLICY = fault -/
  | misaligned
  /-- under UNPRED_POLICY = fault -/
  | unpredictable
  deriving DecidableEq, Repr

/-- The kind of a fatal error together with its kind-specific info (R270 to R274). -/
inductive FatalCause where
  | unknownInstruction (hw1 : Half)
  | unsupportedSubOperation (info : SubOperation)
  | notImplementedFeature (name : Feature) (hw1 : Half) (hw2 : Option Half)
  | illegalStateTransition (target : Word)
  deriving DecidableEq, Repr

/-- The record `err = (kind, info, X)`: X is the address of the first halfword of the instruction that raised it (R270). -/
structure FatalError where
  cause : FatalCause
  x     : Word
  deriving DecidableEq, Repr

/-- `run` (R47): Halted carries no record when the host halted the run. -/
inductive RunState where
  | running
  | halted (err : Option FatalError)
  deriving DecidableEq, Repr

/-! ## The outcomes of a step that are no next state -/

/-- There is none. Memory never faults (R288), no exception exists (R280), and the four fatal errors are described by the spec down to the
state they leave (R275), so each is a next state whose `run` is Halted (log entry 7, safe: nobody raises a fault). -/
inductive Fault where
  deriving DecidableEq, Repr

/-- Why a step is refused. -/
inductive Refusal where
  /-- Raised by exec for an instruction that has no meaning yet. Safe: nothing is claimed of it. -/
  | notModelled (mnemonic : String)
  /-- Raised by step when the platform is one the spec refuses before a run: BEGIN > END (ID3), or a registry with a conflict, which
  registration never builds (ID6, R79). Safe: the spec gives such a machine no run (log entry 17). -/
  | platformRejected
  deriving DecidableEq, Repr

/-! ## The state -/

/-- The machine. One home for each piece of state; the inventory names the rule of each. -/
structure State where
  /-- R0 to R15; R[15] is the pipeline-visible PC (R30, R37) -/
  regs          : Vector Word 16
  /-- N, Z, C, V (R33) -/
  flags         : Flags
  /-- T (R34) -/
  t             : Bool
  /-- fetch_ptr, the address of the halfword in slot0 (R38) -/
  fetchPtr      : Word
  /-- the instruction about to execute (R38) -/
  slot0         : Half
  /-- the halfword after it (R38) -/
  slot1         : Half
  /-- Running or Halted (R47) -/
  run           : RunState
  /-- the bytes of the code and SRAM arrays by address, in canonical form (R61; log entries 3 and 11) -/
  mem           : List Host.Cell
  /-- the accesses that reached a peripheral, newest first (R66; log entry 8) -/
  peripheralLog : List PeripheralAccess
  /-- what is fixed before a run (R11, R12, R80) -/
  platform      : Platform
  deriving DecidableEq, Repr

/-- The machine right after reset (R300, R301) on the example platform with nothing loaded: the vector word at 0x00000004 reads 0, so
fetch_ptr = 0 and both slots read 0; R15 = fetch_ptr + 2; T is true and run is Running. R0 to R14 and the flags are 0: DESIGN CHOICE (log
entries 1 and 2, unsafe: the spec leaves INIT_REGS open). -/
def State.reset : State where
  regs          := (Vector.replicate 16 0).set 15 2
  flags         := ⟨false, false, false, false⟩
  t             := true
  fetchPtr      := 0
  slot0         := 0
  slot1         := 0
  run           := .running
  mem           := []
  peripheralLog := []
  platform      := Config.examplePlatform

end Sys2Proof.Machine
end

