-- ==== Sys2Proof/Machine/Flags.lean ====
section
/-! DEFINITION. Every flag computation (41_data_processing.md R130 to R137) and the condition test (44_branch.md R236). -/

namespace Sys2Proof.Machine

/-- `Neg(x) = bit31(x)` (R130). -/
def isNeg (x : Word) : Bool := x.getLsbD 31

/-- `Pos(x) = !bit31(x)` (R130). -/
def isPos (x : Word) : Bool := !isNeg x

/-- R131. -/
def addCarry (a b c : Word) : Bool := (isNeg a && isNeg b) || (isNeg a && isPos c) || (isNeg b && isPos c)

/-- R132. -/
def addOverflow (a b c : Word) : Bool := (isNeg a && isNeg b && isPos c) || (isPos a && isPos b && isNeg c)

/-- R133: C = 1 means no borrow. -/
def subCarry (a b c : Word) : Bool := (isNeg a && isPos b) || (isNeg a && isPos c) || (isPos b && isPos c)

/-- R134. -/
def subOverflow (a b c : Word) : Bool := (isNeg a && isPos b && isPos c) || (isPos a && isNeg b && isNeg c)

/-- `SetNZ(r)` (R137): C and V are kept. -/
def setNZ (f : Flags) (r : Word) : Flags := { f with n := r.getLsbD 31, z := r == 0 }

/-- A carry or borrow bit as a 32-bit value. -/
def carryIn (c : Bool) : Word := if c then 1 else 0

/-- `AddS(a, b, cin)` (R137): the sum and all four flags. -/
def addS (a b : Word) (cin : Bool) : Word × Flags :=
  let c := a + b + carryIn cin
  (c, ⟨c.getLsbD 31, c == 0, addCarry a b c, addOverflow a b c⟩)

/-- `SubS(a, b, cin)` (R137): the difference `a - b - (1 - cin)` and all four flags. -/
def subS (a b : Word) (cin : Bool) : Word × Flags :=
  let c := a - b - carryIn (!cin)
  (c, ⟨c.getLsbD 31, c == 0, subCarry a b c, subOverflow a b c⟩)

/-- The fourteen conditions (R236). -/
inductive Cond where
  | eq | ne | cs | cc | mi | pl | vs | vc | hi | ls | ge | lt | gt | le
  deriving DecidableEq, Repr

/-- `Cond(c)` (R236). -/
def condHolds (c : Cond) (f : Flags) : Bool :=
  match c with
  | .eq => f.z
  | .ne => !f.z
  | .cs => f.c
  | .cc => !f.c
  | .mi => f.n
  | .pl => !f.n
  | .vs => f.v
  | .vc => !f.v
  | .hi => f.c && !f.z
  | .ls => !f.c || f.z
  | .ge => f.n == f.v
  | .lt => f.n != f.v
  | .gt => !f.z && f.n == f.v
  | .le => f.z || f.n != f.v

end Sys2Proof.Machine
end

