-- ==== Sys2Proof/Machine/Routing.lean ====
section
/-! DEFINITION. The address router (20_memory.md R60 to R62, R67, R78) and what makes a platform acceptable (R61, R79). -/

namespace Sys2Proof.Machine

/-- What a byte address reaches (R62). -/
inductive Target where
  | code
  | sram
  | peripheral (p : Peripheral)
  | unmapped
  deriving DecidableEq, Repr

/-- `p.start <= a < p.end` (R62). -/
def inPeripheral (p : Peripheral) (a : Word) : Bool := p.start ≤ a && a < p.stop

/-- `Route(a)`: code, then SRAM, then the first registered peripheral that contains the address, else Unmapped (R62, R78). -/
def route (pf : Platform) (a : Word) : Target :=
  if pf.codeBegin ≤ a ∧ a ≤ pf.codeEnd then .code
  else if pf.sramBegin ≤ a ∧ a ≤ pf.sramEnd then .sram
  else match pf.peripherals.find? (inPeripheral · a) with
    | some p => .peripheral p
    | none => .unmapped

/-- An address backed by storage: the code array or the SRAM array (R61). -/
def isStorage (pf : Platform) (a : Word) : Bool :=
  match route pf a with
  | .code | .sram => true
  | .peripheral _ | .unmapped => false

/-- The addresses of one access of `n` bytes, ascending, modulo 2^32 (R67, R70). -/
def accessAddrs : Nat → Word → List Word
  | 0, _ => []
  | n + 1, a => a :: accessAddrs n (a + 1)

/-- An access is contained when all its bytes route to the same target; otherwise it straddles (R67). -/
def contained (pf : Platform) (a : Word) (w : Width) : Bool :=
  (accessAddrs w.bytes a).all (fun b => route pf b == route pf a)

/-- The two-part test of registration: the candidate's start lies inside the existing range, or the existing start inside the candidate's
(R79). -/
def conflicts (new existing : Peripheral) : Bool :=
  (existing.start ≤ new.start && new.start < existing.stop) || (new.start ≤ existing.start && existing.start < new.stop)

/-- No entry of the registry conflicts with an earlier one, as registration leaves it (R79). -/
def registryOk : List Peripheral → Bool
  | [] => true
  | p :: later => later.all (fun q => !conflicts q p) && registryOk later

/-- The platforms the spec admits: `CODE_BEGIN <= CODE_END`, `SRAM_BEGIN <= SRAM_END` (R61, ID3) and a registry built by registration. -/
def platformOk (pf : Platform) : Bool :=
  pf.codeBegin ≤ pf.codeEnd && pf.sramBegin ≤ pf.sramEnd && registryOk pf.peripherals

end Sys2Proof.Machine
end

