-- ==== Sys2Proof/Machine/Memory.lean ====
section
/-! DEFINITION. The byte store of the two arrays in canonical form, and the MMU's `MemRead` and `MemWrite` (20_memory.md R61 to R72). -/

namespace Sys2Proof.Machine

/-! ## The byte store -/

/-- What an address of the code or SRAM array that nothing has written reads as. DESIGN CHOICE (log entry 3, unsafe): INIT_MEM is open (D4);
any other initial contents are the cells a state's `mem` lists. -/
def Memory.unlisted (_a : Nat) : Byte := 0

/-- The byte stored at an address. -/
def Memory.get : List Host.Cell → Nat → Byte
  | [], a => Memory.unlisted a
  | (k, x) :: rest, a => if k = a then x else Memory.get rest a

/-- A cell in front of a memory, unless it says what an unlisted address reads as anyway. -/
def Memory.cons (a : Nat) (x : Byte) (m : List Host.Cell) : List Host.Cell :=
  if x = Memory.unlisted a then m else (a, x) :: m

/-- The memory with `x` at address `a`, in canonical form again. -/
def Memory.set : List Host.Cell → Nat → Byte → List Host.Cell
  | [], a, x => Memory.cons a x []
  | (k, y) :: rest, a, x =>
    if a < k then Memory.cons a x ((k, y) :: rest)
    else if a = k then Memory.cons a x rest
    else (k, y) :: Memory.set rest a x

/-- Every listed address is above `lo`, the addresses rise strictly, and no cell is superfluous. -/
def Memory.wfAbove : Option Nat → List Host.Cell → Bool
  | _, [] => true
  | lo, (k, x) :: rest =>
    (match lo with | none => true | some b => decide (b < k)) && x != Memory.unlisted k && Memory.wfAbove (some k) rest

/-- The canonical form: addresses strictly rising, no entry equal to what an unlisted address reads as. -/
def Memory.wf (m : List Host.Cell) : Bool := Memory.wfAbove none m

/-- The little-endian value of the `n` bytes stored from `a` on, zero-extended (R63). -/
def storedValue (mem : List Host.Cell) : Nat → Word → Word
  | 0, _ => 0
  | n + 1, a => (Memory.get mem a.toNat).setWidth 32 ||| (storedValue mem n (a + 1) <<< 8)

/-- The low `n` bytes of `v` stored from `a` on, least significant first (R63). -/
def storeValue (mem : List Host.Cell) : Nat → Word → Word → List Host.Cell
  | 0, _, _ => mem
  | n + 1, a, v => storeValue (Memory.set mem a.toNat (v.setWidth 8)) n (a + 1) (v >>> 8)

/-! ## Contained accesses -/

/-- The earlier accesses to one peripheral (R66). -/
def historyOf (p : Peripheral) (log : List PeripheralAccess) : List PeripheralAccess := log.filter (·.peripheral == p)

/-- A contained read (R63, R64, R66): the value, and the peripherals' history after it. -/
def readContained (pf : Platform) (mem : List Host.Cell) (log : List PeripheralAccess) (a : Word) (w : Width) :
    Word × List PeripheralAccess :=
  match route pf a with
  | .code | .sram => (storedValue mem w.bytes a, log)
  | .peripheral p => ((Config.peripheralRead p (historyOf p log) w a).setWidth 32, ⟨p, w, a, .read⟩ :: log)
  | .unmapped => (0, log)

/-- The low 8n bits of a value, as an access of that width carries them. -/
def lowBytes (w : Width) (v : Word) : Word :=
  match w with
  | .byte => (v.setWidth 8).setWidth 32
  | .half => (v.setWidth 16).setWidth 32
  | .word => v

/-- A contained write (R63, R64, R66): the memory and the peripherals' history after it. -/
def writeContained (pf : Platform) (mem : List Host.Cell) (log : List PeripheralAccess) (a : Word) (w : Width) (v : Word) :
    List Host.Cell × List PeripheralAccess :=
  match route pf a with
  | .code | .sram => (storeValue mem w.bytes a v, log)
  | .peripheral p => (mem, ⟨p, w, a, .write (lowBytes w v)⟩ :: log)
  | .unmapped => (mem, log)

/-! ## Straddling accesses: single bytes in ascending order (R67) -/

/-- `n` single-byte reads from `a` on, assembled little-endian. -/
def readBytes (pf : Platform) (mem : List Host.Cell) : Nat → List PeripheralAccess → Word → Word × List PeripheralAccess
  | 0, log, _ => (0, log)
  | n + 1, log, a =>
    let first := readContained pf mem log a .byte
    let later := readBytes pf mem n first.2 (a + 1)
    (first.1 ||| (later.1 <<< 8), later.2)

/-- `n` single-byte writes from `a` on, least significant byte first. -/
def writeBytes (pf : Platform) : Nat → List Host.Cell → List PeripheralAccess → Word → Word → List Host.Cell × List PeripheralAccess
  | 0, mem, log, _, _ => (mem, log)
  | n + 1, mem, log, a, v =>
    let first := writeContained pf mem log a .byte v
    writeBytes pf n first.1 first.2 (a + 1) (v >>> 8)

/-! ## The primitives of R68 -/

/-- `MemRead(a, n)` (R68): the value, zero-extended, and the peripherals' history after it. -/
def busRead (pf : Platform) (mem : List Host.Cell) (log : List PeripheralAccess) (a : Word) (w : Width) :
    Word × List PeripheralAccess :=
  if contained pf a w then readContained pf mem log a w else readBytes pf mem w.bytes log a

/-- `MemWrite(a, n, v)` (R68): the memory and the peripherals' history after it. -/
def busWrite (pf : Platform) (mem : List Host.Cell) (log : List PeripheralAccess) (a : Word) (w : Width) (v : Word) :
    List Host.Cell × List PeripheralAccess :=
  if contained pf a w then writeContained pf mem log a w v else writeBytes pf w.bytes mem log a v

end Sys2Proof.Machine
end

