-- ==== Sys2Proof/Machine/Operands.lean ====
section
/-! DEFINITION. Every operand form: register fields, immediates (30_encoding.md R113, R114), shifts (41_data_processing.md R138), register
lists (43_address_stack_multiple.md R214) and extensions (42_load_store.md R180). -/

namespace Sys2Proof.Machine

/-! ## Registers -/

/-- A 3-bit register field names R0 to R7 by its unsigned value (R113). -/
def low (r : LowReg) : Reg := r.setWidth 4

/-- R13 (R31). -/
def SP : Reg := 13

/-- R14 (R31). -/
def LR : Reg := 14

/-- R15 (R37). -/
def PC : Reg := 15

/-! ## Immediates (R114) -/

/-- `zext_32(imm)`: formats 2, 3 and the byte forms of format 9. -/
def imm {n : Nat} (i : BitVec n) : Word := i.setWidth 32

/-- `zext_32(imm:'0')`: format 10. -/
def immX2 {n : Nat} (i : BitVec n) : Word := (i ++ 0#1).setWidth 32

/-- `zext_32(imm:'00')`: formats 6, 9 (word), 11, 12 and 13. -/
def immX4 {n : Nat} (i : BitVec n) : Word := (i ++ 0#2).setWidth 32

/-- `sext_32(imm:'0')`: formats 16 and 18. -/
def branchOffset {n : Nat} (i : BitVec n) : Word := (i ++ 0#1).signExtend 32

/-- `sext_32(S:I1:I2:imm10:imm11:'0')` with `I1 = NOT(J1 XOR S)`, `I2 = NOT(J2 XOR S)`: format 19. -/
def longBranchOffset (s : BitVec 1) (imm10 : BitVec 10) (j1 j2 : BitVec 1) (imm11 : BitVec 11) : Word :=
  (s ++ ~~~(j1 ^^^ s) ++ ~~~(j2 ^^^ s) ++ imm10 ++ imm11 ++ 0#1).signExtend 32

/-- The shift amount of LSR and ASR by immediate: imm5 = 0 means 32 (R114; D10). -/
def shiftAmount (imm5 : BitVec 5) : Nat := if imm5 = 0 then 32 else imm5.toNat

/-- "by value of low byte of Rs": the amount of a shift by register (R153). -/
def shiftByRegister (b : Word) : Nat := (b.setWidth 8).toNat

/-! ## Shifts (R138): the result and the carry -/

def lslC (x : Word) (n : Nat) (ci : Bool) : Word × Bool :=
  if n = 0 then (x, ci)
  else if n < 32 then (x <<< n, x.getLsbD (32 - n))
  else if n = 32 then (0, x.getLsbD 0)
  else (0, false)

def lsrC (x : Word) (n : Nat) (ci : Bool) : Word × Bool :=
  if n = 0 then (x, ci)
  else if n < 32 then (x >>> n, x.getLsbD (n - 1))
  else if n = 32 then (0, x.getLsbD 31)
  else (0, false)

def asrC (x : Word) (n : Nat) (ci : Bool) : Word × Bool :=
  if n = 0 then (x, ci)
  else if n < 32 then (x.sshiftRight n, x.getLsbD (n - 1))
  else (if x.getLsbD 31 then 0xFFFFFFFF else 0, x.getLsbD 31)

def rorC (x : Word) (n : Nat) (ci : Bool) : Word × Bool :=
  if n = 0 then (x, ci)
  else if n % 32 = 0 then (x, x.getLsbD 31)
  else
    let r := (x >>> (n % 32)) ||| (x <<< (32 - n % 32))
    (r, r.getLsbD 31)

/-! ## Addresses and lists -/

/-- `(PC AND 0xFFFFFFFC)`, the base of the PC-relative forms (R181, R210). -/
def wordAligned (pc : Word) : Word := pc &&& 0xFFFFFFFC

/-- The selected registers R0 to R7 in ascending order (R214). -/
def listedRegs (rlist : BitVec 8) : List Reg :=
  ([0, 1, 2, 3, 4, 5, 6, 7] : List Reg).filter (fun r => rlist.getLsbD r.toNat)

/-- The transfer list of PUSH: LR last when R = 1 (R214, R215). -/
def pushList (lr : Bool) (rlist : BitVec 8) : List Reg := listedRegs rlist ++ (if lr then [LR] else [])

/-- 4n, the bytes of n words. -/
def wordsSize (n : Nat) : Word := BitVec.ofNat 32 (4 * n)

/-- How a load fills its destination (R180). -/
inductive Extension where
  | zero
  | signByte
  | signHalf
  deriving DecidableEq, Repr

/-- The 32-bit value a load of that extension writes. -/
def Extension.apply (e : Extension) (v : Word) : Word :=
  match e with
  | .zero => v
  | .signByte => (v.setWidth 8).signExtend 32
  | .signHalf => (v.setWidth 16).signExtend 32

end Sys2Proof.Machine
end

