-- ==== Sys2Proof/Machine/Ops.lean ====
section
/-! DEFINITION. The named operations over registers, memory and the prefetch FIFO; raising a fatal error, which is this core's whole
exception mechanism (60_exceptions.md R270 to R278, R280); reset (70_reset_and_hazards.md R300). The instructions' meanings are one line or
a few over these. -/

namespace Sys2Proof.Machine

/-- What a step and a meaning answer. -/
abbrev Outcome := Host.Outcome State Fault Refusal

/-! ## Registers and flags (10_state.md R30, R33) -/

/-- `R[i]`. During an instruction R[15] holds X + 4 (R37). -/
def State.reg (s : State) (r : Reg) : Word := s.regs[r.toNat]

/-- `R[i] <- v`. -/
def State.setReg (s : State) (r : Reg) (v : Word) : State := { s with regs := s.regs.set r.toNat v }

/-- The flags written. -/
def State.setFlags (s : State) (f : Flags) : State := { s with flags := f }

/-- N and Z from a result, C and V kept (R137). -/
def State.setNZ (s : State) (r : Word) : State := s.setFlags (Machine.setNZ s.flags r)

/-- N and Z from a result, C written, V kept: the shifts (R140 to R142, R153 to R155, R158). -/
def State.setNZC (s : State) (r : Word) (c : Bool) : State := s.setFlags { Machine.setNZ s.flags r with c := c }

/-! ## Memory (20_memory.md R68) -/

/-- The byte the code or SRAM array holds at an address; 0 where no array has been written. Claims speak of memory through it. -/
def State.byteAt (s : State) (a : Word) : Byte := Memory.get s.mem a.toNat

/-- `MemRead(a, n)` and the state after it. -/
def State.read (s : State) (a : Word) (w : Width) : Word × State :=
  let r := busRead s.platform s.mem s.peripheralLog a w
  (r.1, { s with peripheralLog := r.2 })

/-- `MemWrite(a, n, v)`. -/
def State.write (s : State) (a : Word) (w : Width) (v : Word) : State :=
  let r := busWrite s.platform s.mem s.peripheralLog a w v
  { s with mem := r.1, peripheralLog := r.2 }

/-- A data access MISALIGNED_POLICY makes a fatal error (R69). -/
def State.misaligned (s : State) (a : Word) (w : Width) : Bool :=
  s.platform.misaligned == .fault && a.toNat % w.bytes != 0

/-! ## The prefetch FIFO (10_state.md R38 to R45) -/

/-- `Advance()` (R41). -/
def advance (s : State) : State :=
  let fp := s.fetchPtr + 2
  let r := s.read (fp + 2) .half
  { r.2 with slot0 := s.slot1, fetchPtr := fp, slot1 := r.1.setWidth 16, regs := s.regs.set PC.toNat (fp + 2) }

/-- `BranchTo(t)`, which every `pc <- t` performs (R42). -/
def branchTo (t : Word) (s : State) : State :=
  let a := t &&& 0xFFFFFFFE
  let r0 := s.read a .half
  let r1 := r0.2.read (a + 2) .half
  { r1.2 with fetchPtr := a, slot0 := r0.1.setWidth 16, slot1 := r1.1.setWidth 16, regs := s.regs.set PC.toNat (a + 2) }

/-- A write of register `d` by a hi-register form: R15 is written by `pc <- v` (R167, R169). -/
def State.writeHi (s : State) (d : Reg) (v : Word) : State := if d = PC then branchTo v s else s.setReg d v

/-! ## Fatal errors (60_exceptions.md R270, R275) -/

/-- `raise Fatal(kind, info)`: the run halts with the record and nothing else changes; the instruction's Advance has happened, so its
address X is fetch_ptr - 2 (R39, R275). -/
def raise (cause : FatalCause) (s : State) : Outcome := .next { s with run := .halted (some ⟨cause, s.fetchPtr - 2⟩) }

/-- An instruction of 45_unimplemented.md: its own NotImplementedFeature (R250). -/
def raiseNotImplemented (name : Feature) (hw1 : Half) (hw2 : Option Half) (s : State) : Outcome :=
  raise (.notImplementedFeature name hw1 hw2) s

/-! ## Shared meanings -/

/-- A data-processing result to a low register with all four flags: `R[Rd] <- AddS(…)` or `SubS(…)` (R137). -/
def writeArith (rd : LowReg) (r : Word × Flags) (s : State) : Outcome := .next ((s.setReg (low rd) r.1).setFlags r.2)

/-- A comparison: the flags of `AddS(…)` or `SubS(…)`, the result discarded (R148, R161, R162, R168). -/
def writeCompare (r : Word × Flags) (s : State) : Outcome := .next (s.setFlags r.2)

/-- A logical result, N and Z (R151, R152, R163 to R166). -/
def writeLogical (rd : LowReg) (r : Word) (s : State) : Outcome := .next ((s.setReg (low rd) r).setNZ r)

/-- A shift result, N, Z and the shifter's carry (R138). -/
def writeShift (rd : LowReg) (r : Word × Bool) (s : State) : Outcome := .next ((s.setReg (low rd) r.1).setNZC r.1 r.2)

/-- A load: `R[Rd] <- ext(MemRead(ea, n))`; under MISALIGNED_POLICY = fault a misaligned ea is fatal before any access or write (R180). -/
def loadReg (rd : LowReg) (ea : Word) (w : Width) (e : Extension) (s : State) : Outcome :=
  if s.misaligned ea w then raise (.unsupportedSubOperation .misaligned) s
  else
    let r := s.read ea w
    .next (r.2.setReg (low rd) (e.apply r.1))

/-- A store: `MemWrite(ea, n, R[Rd])` (R180). -/
def storeReg (rd : LowReg) (ea : Word) (w : Width) (s : State) : Outcome :=
  if s.misaligned ea w then raise (.unsupportedSubOperation .misaligned) s
  else .next (s.write ea w (s.reg (low rd)))

/-- The stores of a transfer list, ascending by 4 (R214). -/
def storeList : List Reg → Word → State → State
  | [], _, s => s
  | r :: rest, addr, s => storeList rest (addr + 4) (s.write addr .word (s.reg r))

/-- The loads of a transfer list, ascending by 4 (R214). -/
def loadList : List Reg → Word → State → State
  | [], _, s => s
  | r :: rest, addr, s =>
    let m := s.read addr .word
    loadList rest (addr + 4) (m.2.setReg r m.1)

/-- A transfer of `n` words from `base` on is fatal before its first access when the policy is fault and the base misaligned (R214); a
transfer of no word makes no access (R219; log entry 13). -/
def State.misalignedList (s : State) (n : Nat) (base : Word) : Bool := n != 0 && s.misaligned base .word

/-- `if Cond(cond) then pc <- R[15] + offset` (R237). -/
def branchIf (c : Cond) (imm8 : BitVec 8) (s : State) : Outcome :=
  .next (if condHolds c s.flags then branchTo (s.reg PC + branchOffset imm8) s else s)

/-! ## Reset (70_reset_and_hazards.md R300) -/

/-- `Reset()` on any state: T, the vector word at 0x00000004, the re-seed, and run; nothing else is written (R300, R301, R307). -/
def resetCore (s : State) : State :=
  let v := { s with t := true }.read 0x00000004 .word
  { branchTo v.1 v.2 with run := .running }

/-! ## The fetched pair -/

/-- What a Cycle executes when the FIFO holds `hw1` and `hw2`: the decoded instruction, or the fatal error decoding raises, which is
UnknownInstruction (R271) or, under UNPRED_POLICY = fault, "unpredictable" (R272; D15; log entry 16). -/
def decodeFetched (pf : Platform) (hw1 hw2 : Half) : Except FatalCause Instr :=
  match decode hw1 hw2 with
  | .error (.unknownInstruction raw) => .error (.unknownInstruction raw)
  | .ok i =>
    if pf.unpred = .fault ∧ i.unpredictable = true then .error (.unsupportedSubOperation .unpredictable) else .ok i

end Sys2Proof.Machine
end

