-- ==== Sys2Proof/Machine/Branch.lean ====
section
/-! DEFINITION. The meanings of the branches (44_branch.md R230 to R242) and of the conditional branch with cond = 1110
(45_unimplemented.md R264). -/

namespace Sys2Proof.Machine

/-- BX Rs (R231): a target with bit 0 = 0 is fatal; T stays 1. -/
def execBx (m : Reg) (_sbz : BitVec 3) (s : State) : Outcome :=
  let t := s.reg m
  if t.getLsbD 0 then .next (branchTo t s) else raise (.illegalStateTransition t) s

/-- BLX Rs (R232): the target is read and checked before LR is written; in the state after the Advance, X + 2 is fetch_ptr (R39). -/
def execBlx (m : Reg) (_sbz : BitVec 3) (s : State) : Outcome :=
  let t := s.reg m
  if t.getLsbD 0 then .next (branchTo t (s.setReg LR (s.fetchPtr ||| 1))) else raise (.illegalStateTransition t) s

/-- BEQ label (R236, R237). -/
def execBeq (imm8 : BitVec 8) (s : State) : Outcome := branchIf .eq imm8 s

/-- BNE label (R236, R237). -/
def execBne (imm8 : BitVec 8) (s : State) : Outcome := branchIf .ne imm8 s

/-- BCS label (R236, R237). -/
def execBcs (imm8 : BitVec 8) (s : State) : Outcome := branchIf .cs imm8 s

/-- BCC label (R236, R237). -/
def execBcc (imm8 : BitVec 8) (s : State) : Outcome := branchIf .cc imm8 s

/-- BMI label (R236, R237). -/
def execBmi (imm8 : BitVec 8) (s : State) : Outcome := branchIf .mi imm8 s

/-- BPL label (R236, R237). -/
def execBpl (imm8 : BitVec 8) (s : State) : Outcome := branchIf .pl imm8 s

/-- BVS label (R236, R237). -/
def execBvs (imm8 : BitVec 8) (s : State) : Outcome := branchIf .vs imm8 s

/-- BVC label (R236, R237). -/
def execBvc (imm8 : BitVec 8) (s : State) : Outcome := branchIf .vc imm8 s

/-- BHI label (R236, R237). -/
def execBhi (imm8 : BitVec 8) (s : State) : Outcome := branchIf .hi imm8 s

/-- BLS label (R236, R237). -/
def execBls (imm8 : BitVec 8) (s : State) : Outcome := branchIf .ls imm8 s

/-- BGE label (R236, R237). -/
def execBge (imm8 : BitVec 8) (s : State) : Outcome := branchIf .ge imm8 s

/-- BLT label (R236, R237). -/
def execBlt (imm8 : BitVec 8) (s : State) : Outcome := branchIf .lt imm8 s

/-- BGT label (R236, R237). -/
def execBgt (imm8 : BitVec 8) (s : State) : Outcome := branchIf .gt imm8 s

/-- BLE label (R236, R237). -/
def execBle (imm8 : BitVec 8) (s : State) : Outcome := branchIf .le imm8 s

/-- The conditional branch whose cond is outside the fourteen (R264; R119): UnsupportedSubOperation with the raw halfword. -/
def execBUndefined (imm8 : BitVec 8) (s : State) : Outcome :=
  raise (.unsupportedSubOperation (.encoding (0xDE#8 ++ imm8))) s

/-- B label (R240). -/
def execB (imm11 : BitVec 11) (s : State) : Outcome := .next (branchTo (s.reg PC + branchOffset imm11) s)

/-- BL label (R241): the return address is R[15] = X + 4. -/
def execBl (sgn : BitVec 1) (imm10 : BitVec 10) (j1 j2 : BitVec 1) (imm11 : BitVec 11) (s : State) : Outcome :=
  let ret := s.reg PC
  .next (branchTo (ret + longBranchOffset sgn imm10 j1 j2 imm11) (s.setReg LR (ret ||| 1)))

end Sys2Proof.Machine
end

