-- ==== Sys2Proof/Machine/DataProcessing.lean ====
section
/-! DEFINITION. The meanings of the data-processing instructions (41_data_processing.md R140 to R169). -/

namespace Sys2Proof.Machine

/-! ## Format 1: move shifted register -/

/-- LSL Rd, Rs, #imm5 (R140). -/
def execLslImm (imm5 : BitVec 5) (rs rd : LowReg) (s : State) : Outcome :=
  writeShift rd (lslC (s.reg (low rs)) imm5.toNat s.flags.c) s

/-- LSR Rd, Rs, #imm5 (R141): imm5 = 0 shifts by 32. -/
def execLsrImm (imm5 : BitVec 5) (rs rd : LowReg) (s : State) : Outcome :=
  writeShift rd (lsrC (s.reg (low rs)) (shiftAmount imm5) s.flags.c) s

/-- ASR Rd, Rs, #imm5 (R142): imm5 = 0 shifts by 32. -/
def execAsrImm (imm5 : BitVec 5) (rs rd : LowReg) (s : State) : Outcome :=
  writeShift rd (asrC (s.reg (low rs)) (shiftAmount imm5) s.flags.c) s

/-! ## Format 2: add/subtract -/

/-- ADD Rd, Rs, Rn (R143). -/
def execAddReg (rn rs rd : LowReg) (s : State) : Outcome := writeArith rd (addS (s.reg (low rs)) (s.reg (low rn)) false) s

/-- SUB Rd, Rs, Rn (R144). -/
def execSubReg (rn rs rd : LowReg) (s : State) : Outcome := writeArith rd (subS (s.reg (low rs)) (s.reg (low rn)) true) s

/-- ADD Rd, Rs, #imm3 (R145). -/
def execAddImm3 (imm3 : BitVec 3) (rs rd : LowReg) (s : State) : Outcome := writeArith rd (addS (s.reg (low rs)) (imm imm3) false) s

/-- SUB Rd, Rs, #imm3 (R146). -/
def execSubImm3 (imm3 : BitVec 3) (rs rd : LowReg) (s : State) : Outcome := writeArith rd (subS (s.reg (low rs)) (imm imm3) true) s

/-! ## Format 3: move/compare/add/subtract immediate -/

/-- MOV Rd, #imm8 (R147): C and V are kept. -/
def execMovImm8 (rd : LowReg) (imm8 : BitVec 8) (s : State) : Outcome := writeLogical rd (imm imm8) s

/-- CMP Rd, #imm8 (R148). -/
def execCmpImm8 (rd : LowReg) (imm8 : BitVec 8) (s : State) : Outcome := writeCompare (subS (s.reg (low rd)) (imm imm8) true) s

/-- ADD Rd, #imm8 (R149). -/
def execAddImm8 (rd : LowReg) (imm8 : BitVec 8) (s : State) : Outcome := writeArith rd (addS (s.reg (low rd)) (imm imm8) false) s

/-- SUB Rd, #imm8 (R150). -/
def execSubImm8 (rd : LowReg) (imm8 : BitVec 8) (s : State) : Outcome := writeArith rd (subS (s.reg (low rd)) (imm imm8) true) s

/-! ## Format 4: ALU operations, a = R[Rd] and b = R[Rs] read before any write -/

/-- AND Rd, Rs (R151). -/
def execAnd (rs rd : LowReg) (s : State) : Outcome := writeLogical rd ((s.reg (low rd)) &&& (s.reg (low rs))) s

/-- EOR Rd, Rs (R152). -/
def execEor (rs rd : LowReg) (s : State) : Outcome := writeLogical rd ((s.reg (low rd)) ^^^ (s.reg (low rs))) s

/-- LSL Rd, Rs (R153). -/
def execLslReg (rs rd : LowReg) (s : State) : Outcome := writeShift rd (lslC (s.reg (low rd)) (shiftByRegister (s.reg (low rs))) s.flags.c) s

/-- LSR Rd, Rs (R154). -/
def execLsrReg (rs rd : LowReg) (s : State) : Outcome := writeShift rd (lsrC (s.reg (low rd)) (shiftByRegister (s.reg (low rs))) s.flags.c) s

/-- ASR Rd, Rs (R155). -/
def execAsrReg (rs rd : LowReg) (s : State) : Outcome := writeShift rd (asrC (s.reg (low rd)) (shiftByRegister (s.reg (low rs))) s.flags.c) s

/-- ADC Rd, Rs (R156). -/
def execAdc (rs rd : LowReg) (s : State) : Outcome := writeArith rd (addS (s.reg (low rd)) (s.reg (low rs)) s.flags.c) s

/-- SBC Rd, Rs (R157). -/
def execSbc (rs rd : LowReg) (s : State) : Outcome := writeArith rd (subS (s.reg (low rd)) (s.reg (low rs)) s.flags.c) s

/-- ROR Rd, Rs (R158). -/
def execRor (rs rd : LowReg) (s : State) : Outcome := writeShift rd (rorC (s.reg (low rd)) (shiftByRegister (s.reg (low rs))) s.flags.c) s

/-- TST Rd, Rs (R159). -/
def execTst (rs rd : LowReg) (s : State) : Outcome := .next (s.setNZ ((s.reg (low rd)) &&& (s.reg (low rs))))

/-- NEG Rd, Rs (R160). -/
def execNeg (rs rd : LowReg) (s : State) : Outcome := writeArith rd (subS 0 (s.reg (low rs)) true) s

/-- CMP Rd, Rs (R161). -/
def execCmpReg (rs rd : LowReg) (s : State) : Outcome := writeCompare (subS (s.reg (low rd)) (s.reg (low rs)) true) s

/-- CMN Rd, Rs (R162). -/
def execCmn (rs rd : LowReg) (s : State) : Outcome := writeCompare (addS (s.reg (low rd)) (s.reg (low rs)) false) s

/-- ORR Rd, Rs (R163). -/
def execOrr (rs rd : LowReg) (s : State) : Outcome := writeLogical rd ((s.reg (low rd)) ||| (s.reg (low rs))) s

/-- MUL Rd, Rs (R164). -/
def execMul (rs rd : LowReg) (s : State) : Outcome := writeLogical rd ((s.reg (low rd)) * (s.reg (low rs))) s

/-- BIC Rd, Rs (R165). -/
def execBic (rs rd : LowReg) (s : State) : Outcome := writeLogical rd ((s.reg (low rd)) &&& ~~~(s.reg (low rs))) s

/-- MVN Rd, Rs (R166). -/
def execMvn (rs rd : LowReg) (s : State) : Outcome := writeLogical rd (~~~(s.reg (low rs))) s

/-! ## Format 5: hi-register ADD, CMP, MOV; R[15] reads X + 4 -/

/-- ADD Rd, Rs over R0 to R15 (R167): no flag; a destination R15 is a branch. -/
def execAddHi (m d : Reg) (s : State) : Outcome := .next (s.writeHi d (s.reg d + s.reg m))

/-- CMP Rd, Rs over R0 to R15 (R168). -/
def execCmpHi (m d : Reg) (s : State) : Outcome := writeCompare (subS (s.reg d) (s.reg m) true) s

/-- MOV Rd, Rs over R0 to R15 (R169): no flag; a destination R15 is a branch, bit 0 cleared and not checked. -/
def execMovHi (m d : Reg) (s : State) : Outcome := .next (s.writeHi d (s.reg m))

end Sys2Proof.Machine
end

