-- ==== Sys2Proof/Machine/LoadStore.lean ====
section
/-! DEFINITION. The meanings of the single-register loads and stores (42_load_store.md R180 to R198). The effective addresses are
definitions of their own, so that claims compute the address with the function the meaning uses. -/

namespace Sys2Proof.Machine

/-- `Rb + Ro`, formats 7 and 8 (R198). -/
def State.eaReg (s : State) (ro rb : LowReg) : Word := s.reg (low rb) + s.reg (low ro)

/-- `Rb + offset`, formats 9 and 10, the offset already scaled (R198). -/
def State.eaImm (s : State) (rb : LowReg) (offset : Word) : Word := s.reg (low rb) + offset

/-- `SP + imm8*4`, format 11 (R198). -/
def State.eaSp (s : State) (imm8 : BitVec 8) : Word := s.reg SP + immX4 imm8

/-- `((X+4) AND ~3) + imm8*4`, formats 6 and 12 (R181, R210). -/
def State.eaPc (s : State) (imm8 : BitVec 8) : Word := wordAligned (s.reg PC) + immX4 imm8

/-- LDR Rd, [PC, #imm] (R181). -/
def execLdrPc (rd : LowReg) (imm8 : BitVec 8) (s : State) : Outcome := loadReg rd (s.eaPc imm8) .word .zero s

/-- STR Rd, [Rb, Ro] (R182). -/
def execStrReg (ro rb rd : LowReg) (s : State) : Outcome := storeReg rd (s.eaReg ro rb) .word s

/-- STRB Rd, [Rb, Ro] (R183). -/
def execStrbReg (ro rb rd : LowReg) (s : State) : Outcome := storeReg rd (s.eaReg ro rb) .byte s

/-- LDR Rd, [Rb, Ro] (R184). -/
def execLdrReg (ro rb rd : LowReg) (s : State) : Outcome := loadReg rd (s.eaReg ro rb) .word .zero s

/-- LDRB Rd, [Rb, Ro] (R185). -/
def execLdrbReg (ro rb rd : LowReg) (s : State) : Outcome := loadReg rd (s.eaReg ro rb) .byte .zero s

/-- STRH Rd, [Rb, Ro] (R186). -/
def execStrhReg (ro rb rd : LowReg) (s : State) : Outcome := storeReg rd (s.eaReg ro rb) .half s

/-- LDRH Rd, [Rb, Ro] (R187). -/
def execLdrhReg (ro rb rd : LowReg) (s : State) : Outcome := loadReg rd (s.eaReg ro rb) .half .zero s

/-- LDSB Rd, [Rb, Ro], sign-extended (R188). -/
def execLdsb (ro rb rd : LowReg) (s : State) : Outcome := loadReg rd (s.eaReg ro rb) .byte .signByte s

/-- LDSH Rd, [Rb, Ro], sign-extended (90_conflicts.md C4) (R189). -/
def execLdsh (ro rb rd : LowReg) (s : State) : Outcome := loadReg rd (s.eaReg ro rb) .half .signHalf s

/-- STR Rd, [Rb, #imm5*4] (R190). -/
def execStrImm (imm5 : BitVec 5) (rb rd : LowReg) (s : State) : Outcome := storeReg rd (s.eaImm rb (immX4 imm5)) .word s

/-- LDR Rd, [Rb, #imm5*4] (R191). -/
def execLdrImm (imm5 : BitVec 5) (rb rd : LowReg) (s : State) : Outcome := loadReg rd (s.eaImm rb (immX4 imm5)) .word .zero s

/-- STRB Rd, [Rb, #imm5] (R192). -/
def execStrbImm (imm5 : BitVec 5) (rb rd : LowReg) (s : State) : Outcome := storeReg rd (s.eaImm rb (imm imm5)) .byte s

/-- LDRB Rd, [Rb, #imm5] (R193). -/
def execLdrbImm (imm5 : BitVec 5) (rb rd : LowReg) (s : State) : Outcome := loadReg rd (s.eaImm rb (imm imm5)) .byte .zero s

/-- STRH Rd, [Rb, #imm5*2] (90_conflicts.md C3) (R194). -/
def execStrhImm (imm5 : BitVec 5) (rb rd : LowReg) (s : State) : Outcome := storeReg rd (s.eaImm rb (immX2 imm5)) .half s

/-- LDRH Rd, [Rb, #imm5*2] (90_conflicts.md C3) (R195). -/
def execLdrhImm (imm5 : BitVec 5) (rb rd : LowReg) (s : State) : Outcome := loadReg rd (s.eaImm rb (immX2 imm5)) .half .zero s

/-- STR Rd, [SP, #imm8*4] (R196). -/
def execStrSp (rd : LowReg) (imm8 : BitVec 8) (s : State) : Outcome := storeReg rd (s.eaSp imm8) .word s

/-- LDR Rd, [SP, #imm8*4] (R197). -/
def execLdrSp (rd : LowReg) (imm8 : BitVec 8) (s : State) : Outcome := loadReg rd (s.eaSp imm8) .word .zero s

end Sys2Proof.Machine
end

