-- ==== Sys2Proof/Machine/StackMultiple.lean ====
section
/-! DEFINITION. The meanings of the address-generation, SP-adjustment, stack and multiple-transfer instructions
(43_address_stack_multiple.md R210 to R219). -/

namespace Sys2Proof.Machine

/-- ADD Rd, PC, #imm8*4 (R210). -/
def execAddPc (rd : LowReg) (imm8 : BitVec 8) (s : State) : Outcome := .next (s.setReg (low rd) (s.eaPc imm8))

/-- ADD Rd, SP, #imm8*4 (R211). -/
def execAddRdSp (rd : LowReg) (imm8 : BitVec 8) (s : State) : Outcome := .next (s.setReg (low rd) (s.eaSp imm8))

/-- ADD SP, #imm7*4 (R212). -/
def execAddSp (imm7 : BitVec 7) (s : State) : Outcome := .next (s.setReg SP (s.reg SP + immX4 imm7))

/-- SUB SP, #imm7*4 (R213). -/
def execSubSp (imm7 : BitVec 7) (s : State) : Outcome := .next (s.setReg SP (s.reg SP - immX4 imm7))

/-- The address of the lowest word PUSH stores, which SP then holds (R215). -/
def State.pushBase (s : State) (lr : Bool) (rlist : BitVec 8) : Word := s.reg SP - wordsSize (pushList lr rlist).length

/-- PUSH of a register list and LR if R = 1 (R215). -/
def execPush (lr : Bool) (rlist : BitVec 8) (s : State) : Outcome :=
  let list := pushList lr rlist
  let base := s.pushBase lr rlist
  if s.misalignedList list.length base then raise (.unsupportedSubOperation .misaligned) s
  else .next ((storeList list base s).setReg SP base)

/-- POP of a register list and PC if R = 1 (R216): SP is written before the branch, and a target with bit 0 = 0 is no error. -/
def execPop (pc : Bool) (rlist : BitVec 8) (s : State) : Outcome :=
  let list := listedRegs rlist
  let base := s.reg SP
  let top := base + wordsSize list.length
  if s.misalignedList (list.length + pc.toNat) base then raise (.unsupportedSubOperation .misaligned) s
  else
    let loaded := loadList list base s
    .next (if pc then
        let target := loaded.read top .word
        branchTo target.1 (target.2.setReg SP (top + 4))
      else loaded.setReg SP top)

/-- STMIA Rb!, rlist (R217): writeback after the last transfer, so the base stored is the original one. -/
def execStmia (rb : LowReg) (rlist : BitVec 8) (s : State) : Outcome :=
  let list := listedRegs rlist
  let base := s.reg (low rb)
  if s.misalignedList list.length base then raise (.unsupportedSubOperation .misaligned) s
  else .next ((storeList list base s).setReg (low rb) (base + wordsSize list.length))

/-- LDMIA Rb!, rlist (R218): no writeback when Rb is in the list. -/
def execLdmia (rb : LowReg) (rlist : BitVec 8) (s : State) : Outcome :=
  let list := listedRegs rlist
  let base := s.reg (low rb)
  if s.misalignedList list.length base then raise (.unsupportedSubOperation .misaligned) s
  else
    let loaded := loadList list base s
    .next (if rlist.getLsbD rb.toNat then loaded else loaded.setReg (low rb) (base + wordsSize list.length))

end Sys2Proof.Machine
end

