-- ==== Sys2Proof/Machine/Unimplemented.lean ====
section
/-! DEFINITION. The recognised-but-unimplemented instructions (45_unimplemented.md R250 to R263): each raises its own
NotImplementedFeature with the raw halfwords, writes nothing, and so halts the run. -/

namespace Sys2Proof.Machine

/-- NOP (R251). -/
def execNop (s : State) : Outcome := raiseNotImplemented .nop 0xBF00 none s

/-- YIELD (R252). -/
def execYield (s : State) : Outcome := raiseNotImplemented .yield 0xBF10 none s

/-- WFE (R253). -/
def execWfe (s : State) : Outcome := raiseNotImplemented .wfe 0xBF20 none s

/-- WFI (R254). -/
def execWfi (s : State) : Outcome := raiseNotImplemented .wfi 0xBF30 none s

/-- SEV (R255). -/
def execSev (s : State) : Outcome := raiseNotImplemented .sev 0xBF40 none s

/-- The other hints (R256). -/
def execHint (op : BitVec 4) (s : State) : Outcome := raiseNotImplemented .hint (0xBF#8 ++ op ++ 0#4) none s

/-- CPSIE (R257): the should-be-zero bits are not checked. -/
def execCpsie (low4 : BitVec 4) (s : State) : Outcome := raiseNotImplemented .cpsie (0xB66#12 ++ low4) none s

/-- CPSID (R258): the should-be-zero bits are not checked. -/
def execCpsid (low4 : BitVec 4) (s : State) : Outcome := raiseNotImplemented .cpsid (0xB67#12 ++ low4) none s

/-- SVC #imm8 (R259): no SVCall exception is taken. -/
def execSvc (imm8 : BitVec 8) (s : State) : Outcome := raiseNotImplemented .svc (0xDF#8 ++ imm8) none s

/-- BKPT #imm8 (R260): there is no debug halt state. -/
def execBkpt (imm8 : BitVec 8) (s : State) : Outcome := raiseNotImplemented .bkpt (0xBE#8 ++ imm8) none s

/-- DSB (R261): the option is ignored. -/
def execDsb (option : BitVec 4) (s : State) : Outcome := raiseNotImplemented .dsb 0xF3BF (some (0x8F4#12 ++ option)) s

/-- DMB (R262): the option is ignored. -/
def execDmb (option : BitVec 4) (s : State) : Outcome := raiseNotImplemented .dmb 0xF3BF (some (0x8F5#12 ++ option)) s

/-- ISB (R263): the option is ignored. -/
def execIsb (option : BitVec 4) (s : State) : Outcome := raiseNotImplemented .isb 0xF3BF (some (0x8F6#12 ++ option)) s

end Sys2Proof.Machine
end

