-- ==== Sys2Proof/Machine/Dispatch.lean ====
section
/-! DEFINITION. The dispatch: one arm per constructor of Instr. It is applied to the state after the instruction's Advance (10_state.md
R49), in which R[15] = X + 4 and fetch_ptr = X + 2 (R37, R39). -/

namespace Sys2Proof.Machine

def exec (i : Instr) (s : State) : Host.Outcome State Fault Refusal :=
  match i with
  | .lslImm imm5 rs rd => Sys2Proof.Machine.execLslImm imm5 rs rd s
  | .lsrImm imm5 rs rd => Sys2Proof.Machine.execLsrImm imm5 rs rd s
  | .asrImm imm5 rs rd => Sys2Proof.Machine.execAsrImm imm5 rs rd s
  | .addReg rn rs rd => Sys2Proof.Machine.execAddReg rn rs rd s
  | .subReg rn rs rd => Sys2Proof.Machine.execSubReg rn rs rd s
  | .addImm3 imm3 rs rd => Sys2Proof.Machine.execAddImm3 imm3 rs rd s
  | .subImm3 imm3 rs rd => Sys2Proof.Machine.execSubImm3 imm3 rs rd s
  | .movImm8 rd imm8 => Sys2Proof.Machine.execMovImm8 rd imm8 s
  | .cmpImm8 rd imm8 => Sys2Proof.Machine.execCmpImm8 rd imm8 s
  | .addImm8 rd imm8 => Sys2Proof.Machine.execAddImm8 rd imm8 s
  | .subImm8 rd imm8 => Sys2Proof.Machine.execSubImm8 rd imm8 s
  | .and rs rd => Sys2Proof.Machine.execAnd rs rd s
  | .eor rs rd => Sys2Proof.Machine.execEor rs rd s
  | .lslReg rs rd => Sys2Proof.Machine.execLslReg rs rd s
  | .lsrReg rs rd => Sys2Proof.Machine.execLsrReg rs rd s
  | .asrReg rs rd => Sys2Proof.Machine.execAsrReg rs rd s
  | .adc rs rd => Sys2Proof.Machine.execAdc rs rd s
  | .sbc rs rd => Sys2Proof.Machine.execSbc rs rd s
  | .ror rs rd => Sys2Proof.Machine.execRor rs rd s
  | .tst rs rd => Sys2Proof.Machine.execTst rs rd s
  | .neg rs rd => Sys2Proof.Machine.execNeg rs rd s
  | .cmpReg rs rd => Sys2Proof.Machine.execCmpReg rs rd s
  | .cmn rs rd => Sys2Proof.Machine.execCmn rs rd s
  | .orr rs rd => Sys2Proof.Machine.execOrr rs rd s
  | .mul rs rd => Sys2Proof.Machine.execMul rs rd s
  | .bic rs rd => Sys2Proof.Machine.execBic rs rd s
  | .mvn rs rd => Sys2Proof.Machine.execMvn rs rd s
  | .addHi m d => Sys2Proof.Machine.execAddHi m d s
  | .cmpHi m d => Sys2Proof.Machine.execCmpHi m d s
  | .movHi m d => Sys2Proof.Machine.execMovHi m d s
  | .bx m sbz => Sys2Proof.Machine.execBx m sbz s
  | .blx m sbz => Sys2Proof.Machine.execBlx m sbz s
  | .ldrPc rd imm8 => Sys2Proof.Machine.execLdrPc rd imm8 s
  | .strReg ro rb rd => Sys2Proof.Machine.execStrReg ro rb rd s
  | .strbReg ro rb rd => Sys2Proof.Machine.execStrbReg ro rb rd s
  | .ldrReg ro rb rd => Sys2Proof.Machine.execLdrReg ro rb rd s
  | .ldrbReg ro rb rd => Sys2Proof.Machine.execLdrbReg ro rb rd s
  | .strhReg ro rb rd => Sys2Proof.Machine.execStrhReg ro rb rd s
  | .ldrhReg ro rb rd => Sys2Proof.Machine.execLdrhReg ro rb rd s
  | .ldsb ro rb rd => Sys2Proof.Machine.execLdsb ro rb rd s
  | .ldsh ro rb rd => Sys2Proof.Machine.execLdsh ro rb rd s
  | .strImm imm5 rb rd => Sys2Proof.Machine.execStrImm imm5 rb rd s
  | .ldrImm imm5 rb rd => Sys2Proof.Machine.execLdrImm imm5 rb rd s
  | .strbImm imm5 rb rd => Sys2Proof.Machine.execStrbImm imm5 rb rd s
  | .ldrbImm imm5 rb rd => Sys2Proof.Machine.execLdrbImm imm5 rb rd s
  | .strhImm imm5 rb rd => Sys2Proof.Machine.execStrhImm imm5 rb rd s
  | .ldrhImm imm5 rb rd => Sys2Proof.Machine.execLdrhImm imm5 rb rd s
  | .strSp rd imm8 => Sys2Proof.Machine.execStrSp rd imm8 s
  | .ldrSp rd imm8 => Sys2Proof.Machine.execLdrSp rd imm8 s
  | .addPc rd imm8 => Sys2Proof.Machine.execAddPc rd imm8 s
  | .addRdSp rd imm8 => Sys2Proof.Machine.execAddRdSp rd imm8 s
  | .addSp imm7 => Sys2Proof.Machine.execAddSp imm7 s
  | .subSp imm7 => Sys2Proof.Machine.execSubSp imm7 s
  | .push lr rlist => Sys2Proof.Machine.execPush lr rlist s
  | .pop pc rlist => Sys2Proof.Machine.execPop pc rlist s
  | .stmia rb rlist => Sys2Proof.Machine.execStmia rb rlist s
  | .ldmia rb rlist => Sys2Proof.Machine.execLdmia rb rlist s
  | .beq imm8 => Sys2Proof.Machine.execBeq imm8 s
  | .bne imm8 => Sys2Proof.Machine.execBne imm8 s
  | .bcs imm8 => Sys2Proof.Machine.execBcs imm8 s
  | .bcc imm8 => Sys2Proof.Machine.execBcc imm8 s
  | .bmi imm8 => Sys2Proof.Machine.execBmi imm8 s
  | .bpl imm8 => Sys2Proof.Machine.execBpl imm8 s
  | .bvs imm8 => Sys2Proof.Machine.execBvs imm8 s
  | .bvc imm8 => Sys2Proof.Machine.execBvc imm8 s
  | .bhi imm8 => Sys2Proof.Machine.execBhi imm8 s
  | .bls imm8 => Sys2Proof.Machine.execBls imm8 s
  | .bge imm8 => Sys2Proof.Machine.execBge imm8 s
  | .blt imm8 => Sys2Proof.Machine.execBlt imm8 s
  | .bgt imm8 => Sys2Proof.Machine.execBgt imm8 s
  | .ble imm8 => Sys2Proof.Machine.execBle imm8 s
  | .bUndefined imm8 => Sys2Proof.Machine.execBUndefined imm8 s
  | .svc imm8 => Sys2Proof.Machine.execSvc imm8 s
  | .b imm11 => Sys2Proof.Machine.execB imm11 s
  | .bl sgn imm10 j1 j2 imm11 => Sys2Proof.Machine.execBl sgn imm10 j1 j2 imm11 s
  | .nop => Sys2Proof.Machine.execNop s
  | .yield => Sys2Proof.Machine.execYield s
  | .wfe => Sys2Proof.Machine.execWfe s
  | .wfi => Sys2Proof.Machine.execWfi s
  | .sev => Sys2Proof.Machine.execSev s
  | .hint op => Sys2Proof.Machine.execHint op s
  | .cpsie low => Sys2Proof.Machine.execCpsie low s
  | .cpsid low => Sys2Proof.Machine.execCpsid low s
  | .bkpt imm8 => Sys2Proof.Machine.execBkpt imm8 s
  | .dsb option => Sys2Proof.Machine.execDsb option s
  | .dmb option => Sys2Proof.Machine.execDmb option s
  | .isb option => Sys2Proof.Machine.execIsb option s

end Sys2Proof.Machine
end

