-- ==== Sys2Proof/Machine/Step.lean ====
section
/-! DEFINITION. One step of the machine: one Cycle (10_state.md R49) when the run loop's state check allows one (R50). -/

namespace Sys2Proof.Machine

/-- The state with an instruction where the next Cycle takes it: the Cycle consumes slot0 and slot1, and the same halfwords lie in memory
at fetch_ptr (R38, R49); run is Running, without which no Cycle runs (R50). It stands for the host's load and Reset (log entry 14). -/
def State.withFetchWord (s : State) (nbits w : Nat) : State :=
  let hw := tableHalves nbits w
  { (s.write s.fetchPtr .half (hw.1.setWidth 32)).write (s.fetchPtr + 2) .half (hw.2.setWidth 32) with
    slot0 := hw.1, slot1 := hw.2, run := .running }

/-- One step. A halted core executes no Cycle: nothing changes (R47, R276; log entry 7). A platform the spec refuses has no run (ID3, ID6;
log entry 17). Otherwise one Cycle: the two slots are taken, the FIFO advances, the pair is decoded and the instruction executes (R49). -/
def step (s : State) : Host.Outcome State Fault Refusal :=
  match s.run with
  | .halted _ => .next s
  | .running =>
    if platformOk s.platform then
      match decodeFetched s.platform s.slot0 s.slot1 with
      | .error cause => raise cause (advance s)
      | .ok i => exec i (advance s)
    else .refused .platformRejected

end Sys2Proof.Machine
end

