-- ==== Sys2Proof/Machine/RunLoop.lean ====
section
/-! DEFINITION. The run loop with its budget, halt flag and verbose trace (10_state.md R47, R50; 60_exceptions.md R276, R284), and the final
report (70_reset_and_hazards.md R303). BUDGET, HALT_REQUEST and VERBOSE are inputs, not core state (00_scope.md R13). -/

namespace Sys2Proof.Machine

/-- Why a run ended, or that the samples of the halt flag given are used up (R50). -/
inductive RunEnd where
  /-- `run` is not Running: a fatal error, or halted by the host -/
  | notRunning
  /-- HALT_REQUEST was set -/
  | haltRequested
  /-- the remaining budget is zero -/
  | budgetExhausted
  /-- the platform is refused, or an instruction has no meaning -/
  | stepRefused (r : Refusal)
  /-- the run goes on beyond the samples given -/
  | samplesUsedUp
  deriving DecidableEq, Repr

/-- The trace record of one executed instruction: hw1 (and hw2 for BL and the barriers) and X, the PC at fetch time (R284; D29). -/
structure TraceRecord where
  hw1 : Half
  hw2 : Option Half
  x   : Word
  deriving DecidableEq, Repr

/-- The record emitted before the instruction executes, so a fatal instruction has one too (R284). -/
def traceRecord (s : State) : TraceRecord :=
  let long := match decode s.slot0 s.slot1 with
    | .ok i => i.isLong
    | .error _ => false
  ⟨s.slot0, if long then some s.slot1 else none, s.fetchPtr⟩

/-- What the loop leaves: the state, the budget that remains, why it ended, and what it reported of each instruction, oldest first. -/
structure RunResult where
  state  : State
  budget : Option Nat
  ending : RunEnd
  trace  : List TraceRecord
  deriving DecidableEq, Repr

/-- The run loop (R50) over the host's parameters (R13): VERBOSE selects the tracing variant, which alone reports records (R284); the list holds
the value HALT_REQUEST has at each iteration's check; BUDGET is absent for run-until-halt. Each
iteration checks the run state, the halt flag and the budget, in that order (D19); a passing one takes one unit of budget and runs one Cycle.
A host halt leaves Halted with no record (R47; log entry 12). -/
def runLoop (verbose : Bool) : List Bool → Option Nat → State → RunResult
  | [], budget, s => ⟨s, budget, .samplesUsedUp, []⟩
  | h :: halts, budget, s =>
    if s.run ≠ .running then ⟨s, budget, .notRunning, []⟩
    else if h then ⟨{ s with run := .halted none }, budget, .haltRequested, []⟩
    else if budget = some 0 then ⟨s, budget, .budgetExhausted, []⟩
    else match step s with
      | .next s' =>
        let later := runLoop verbose halts (budget.map (· - 1)) s'
        if verbose then { later with trace := traceRecord s :: later.trace } else later
      | .fault r => nomatch r
      | .refused r => ⟨s, budget, .stepRefused r, []⟩

/-- Run until halt: no budget (R50); `halts` samples the flag at each check. -/
def runUntilHalt (verbose : Bool) (halts : List Bool) (s : State) : RunResult := runLoop verbose halts none s

/-- The run for N instructions with the halt flag never set: N + 1 iterations, the last of which finds the budget spent (R50). -/
def runFor (verbose : Bool) (n : Nat) (s : State) : RunResult := runLoop verbose (List.replicate (n + 1) false) (some n) s

/-- The final register and flag state, and the error record of a run that ended on a fatal error (R303, R276). -/
structure FinalReport where
  regs  : Vector Word 16
  flags : Flags
  t     : Bool
  error : Option FatalError
  deriving DecidableEq, Repr

/-- R303; the text format is out of scope (R8). -/
def finalReport (s : State) : FinalReport where
  regs  := s.regs
  flags := s.flags
  t     := s.t
  error := match s.run with
    | .halted err => err
    | .running => none

end Sys2Proof.Machine
end

