-- ==== Sys2Proof/Machine/Setup.lean ====
section
/-! DEFINITION. What the host does before a run: registration of peripherals, loading through the MMU's writes, Reset (20_memory.md R79,
R80; 70_reset_and_hazards.md R300, R302, R307; 60_exceptions.md R281). -/

namespace Sys2Proof.Machine

/-- `ConflictError{new, existing}` (R79, R281). -/
structure ConflictError where
  new      : Peripheral
  existing : Peripheral
  deriving DecidableEq, Repr

/-- `register(p)` on a registry: the first conflicting entry in registration order fails it, otherwise p is appended (R79). -/
def register (p : Peripheral) (registry : List Peripheral) : Except ConflictError (List Peripheral) :=
  match registry.find? (conflicts p) with
  | some e => .error ⟨p, e⟩
  | none => .ok (registry ++ [p])

/-- Registration as the host's setup call: a conflict is returned and nothing is changed (R79, R281). -/
def registerPeripheral (p : Peripheral) (s : State) : Except ConflictError State :=
  match register p s.platform.peripherals with
  | .error e => .error e
  | .ok registry => .ok { s with platform := { s.platform with peripherals := registry } }

/-- One of the host's loading writes, through the MMU's `write{8,16,32}` (R61, R302). -/
structure LoadWrite where
  addr  : Word
  width : Width
  value : Word
  deriving DecidableEq, Repr

/-- The loading writes in order (R302). -/
def loadProgram (writes : List LoadWrite) (s : State) : State := writes.foldl (fun s l => s.write l.addr l.width l.value) s

/-- The state `Reset()` is first called in: the values of INIT_REGS and INIT_MEM this model takes (log entries 1 to 4); R15, the FIFO, T
and run are about to be written by Reset, so what stands there is of no consequence. -/
def State.powerOn (pf : Platform) : State where
  regs          := Vector.replicate 16 0
  flags         := ⟨false, false, false, false⟩
  t             := true
  fetchPtr      := 0
  slot0         := 0
  slot1         := 0
  run           := .running
  mem           := []
  peripheralLog := []
  platform      := pf

/-- Boot (R302): the loading writes, then `Reset()`. -/
def boot (pf : Platform) (writes : List LoadWrite) : State := resetCore (loadProgram writes (State.powerOn pf))

end Sys2Proof.Machine
end

