-- ==== Sys2Proof/Safety.lean ====
section
/-! DEFINITION. The terms claims are made in: the invariant of the machine, what a step keeps, what a fatal error leaves. -/

namespace Sys2Proof.Machine

/-- Every listed cell lies in an array: its address is one of the 2^32, and it routes to code or SRAM (20_memory.md R61, R64). -/
def memBacked (pf : Platform) (mem : List Host.Cell) : Bool :=
  mem.all (fun cell => decide (cell.1 < 2 ^ 32) && isStorage pf (BitVec.ofNat 32 cell.1))

/-- The invariant of the machine at every instruction boundary, and of the state between an Advance and the end of its instruction. -/
structure State.Inv (s : State) : Prop where
  /-- the memory is in canonical form -/
  memCanonical : Memory.wf s.mem = true
  /-- only the arrays hold bytes -/
  memInArrays : memBacked s.platform s.mem = true
  /-- R[15] = fetch_ptr + 2 (10_state.md R39) -/
  pcPair : s.reg PC = s.fetchPtr + 2
  /-- fetch_ptr is even (10_state.md R44) -/
  fetchEven : s.fetchPtr.getLsbD 0 = false
  /-- T is true (10_state.md R34) -/
  thumb : s.t = true
  /-- the platform is one the spec admits (20_memory.md R61, R79) -/
  platformAdmitted : platformOk s.platform = true

/-- What no instruction changes, whatever it does: T (R34), the platform and registry (R80). -/
structure SameMachine (s t : State) : Prop where
  thumb    : t.t = s.t
  platform : t.platform = s.platform

/-- Memory and the peripherals' history are as before: every byte of every address. -/
structure SameMemory (s t : State) : Prop where
  bytes   : ∀ a, t.byteAt a = s.byteAt a
  history : t.peripheralLog = s.peripheralLog

/-- The FIFO, R[15] and the run state are as before: the instruction continues at X + 2 (10_state.md R46). -/
structure NoTransfer (s t : State) : Prop where
  pc       : t.reg PC = s.reg PC
  fetchPtr : t.fetchPtr = s.fetchPtr
  slot0    : t.slot0 = s.slot0
  slot1    : t.slot1 = s.slot1
  run      : t.run = s.run

/-- Every register but R15 and those of a list is as before. -/
def SameRegsExcept (written : List Reg) (s t : State) : Prop := ∀ r : Reg, r ≠ PC → r ∉ written → t.reg r = s.reg r

/-- The address is one of the `n` bytes from `base` on, modulo 2^32. -/
def InBytes (base : Word) (n : Nat) (a : Word) : Prop := (a - base).toNat < n

/-- Every byte outside the `n` bytes from `base` on is as before. -/
def SameBytesOutside (base : Word) (n : Nat) (s t : State) : Prop := ∀ a, ¬ InBytes base n a → t.byteAt a = s.byteAt a

/-- The state a fatal error leaves: `s` is the state after the instruction's Advance, X = fetch_ptr - 2, and nothing changes but `run`
(60_exceptions.md R275). -/
def haltedAt (cause : FatalCause) (s : State) : State := { s with run := .halted (some ⟨cause, s.fetchPtr - 2⟩) }

/-- A state reached by a number of steps, each of which answered a next state. -/
inductive Reachable (s : State) : State → Prop where
  | here : Reachable s s
  | step {t u : State} : Reachable s t → step t = .next u → Reachable s u

/-- A safe run: no reachable state is refused a step, and none halts on a fatal error. -/
def SafeFrom (s : State) : Prop :=
  ∀ t, Reachable s t → (∀ err, t.run ≠ .halted (some err)) ∧ ∃ u, step t = .next u

/-! ## What an instruction leaves unchanged -/

/-- All is as before but the registers of a list and the flags: `s` is the state after the instruction's Advance. -/
structure OnlyRegsAndFlags (written : List Reg) (s t : State) : Prop where
  regs      : SameRegsExcept written s t
  memory    : SameMemory s t
  continues : NoTransfer s t
  machine   : SameMachine s t

/-- All is as before but the registers of a list. -/
structure OnlyRegs (written : List Reg) (s t : State) : Prop where
  others : OnlyRegsAndFlags written s t
  flags  : t.flags = s.flags

/-- All is as before but the registers of a list and the peripherals' history: what a load leaves. -/
structure OnlyRegsAndHistory (written : List Reg) (s t : State) : Prop where
  regs      : SameRegsExcept written s t
  flags     : t.flags = s.flags
  bytes     : ∀ a, t.byteAt a = s.byteAt a
  continues : NoTransfer s t
  machine   : SameMachine s t

/-- All is as before but the registers of a list, the `n` bytes from `base` on and the peripherals' history: what a store leaves. -/
structure OnlyBytes (written : List Reg) (base : Word) (n : Nat) (s t : State) : Prop where
  regs      : SameRegsExcept written s t
  flags     : t.flags = s.flags
  bytes     : SameBytesOutside base n s t
  continues : NoTransfer s t
  machine   : SameMachine s t

/-- A register and the flags were written, nothing else: what a data-processing instruction leaves. -/
structure Wrote (r : Reg) (value : Word) (f : Flags) (s t : State) : Prop where
  result : t.reg r = value
  flags  : t.flags = f
  rest   : OnlyRegsAndFlags [r] s t

/-- The flags were written, nothing else: what a comparison leaves. -/
structure Compared (f : Flags) (s t : State) : Prop where
  flags : t.flags = f
  rest  : OnlyRegsAndFlags [] s t

/-- A value was read through `MemRead(ea, n)`, extended and written to a register, nothing else: what a load leaves. -/
structure Loaded (r : Reg) (ea : Word) (w : Width) (extend : Word → Word) (s t : State) : Prop where
  result  : t.reg r = extend (s.read ea w).1
  history : t.peripheralLog = (s.read ea w).2.peripheralLog
  rest    : OnlyRegsAndHistory [r] s t

/-- A value was written through `MemWrite(ea, n, v)`, nothing else: what a store leaves. -/
structure Stored (ea : Word) (w : Width) (v : Word) (s t : State) : Prop where
  written : t = s.write ea w v
  rest    : Memory.wf s.mem = true → OnlyBytes [] ea w.bytes s t

/-- MISALIGNED_POLICY lets an access be made: always under bytewise, at a multiple of its size under fault (20_memory.md R69). -/
def AccessAllowed (s : State) (a : Word) (n : Nat) : Prop := s.platform.misaligned = .fault → a.toNat % n = 0

/-- The listed registers in ascending order, as 43_address_stack_multiple.md R215 writes the list. -/
def ascending (rlist : BitVec 8) : List Reg := ((List.range 8).filter (fun i => rlist.getLsbD i)).map (BitVec.ofNat 4)

/-- `for r in list: MemWrite(addr, 4, R[r]); addr <- addr + 4`, the values stored those before the instruction (R214). -/
def storesInOrder (list : List Reg) (addr : Word) (s : State) : State × Word :=
  list.foldl (fun u r => (u.1.write u.2 .word (s.reg r), u.2 + 4)) (s, addr)

/-- `for r in list: R[r] <- MemRead(addr, 4); addr <- addr + 4` (R216, R218). -/
def loadsInOrder (list : List Reg) (addr : Word) (s : State) : State × Word :=
  list.foldl (fun u r => let m := u.1.read u.2 .word; (m.2.setReg r m.1, u.2 + 4)) (s, addr)

/-! ## Arithmetic without the model's own primitives -/

/-- The flags of a 32-bit sum with carry-in: C is the unsigned carry out, V says that the signed sum does not fit
(41_data_processing.md R135, R136). -/
def sumFlags (a b : Word) (cin : Bool) : Flags :=
  let r : Word := a + b + BitVec.ofNat 32 cin.toNat
  { n := decide (r.toInt < 0)
    z := decide (r.toNat = 0)
    c := decide (2 ^ 32 ≤ a.toNat + b.toNat + cin.toNat)
    v := decide (a.toInt + b.toInt + cin.toNat < -2 ^ 31 ∨ 2 ^ 31 ≤ a.toInt + b.toInt + cin.toNat) }

/-- The flags of a 32-bit difference `a - b - (1 - cin)`: C says that there is no unsigned borrow, V that the signed difference does not
fit (R135, R136). -/
def differenceFlags (a b : Word) (cin : Bool) : Flags :=
  let r : Word := a - b - BitVec.ofNat 32 (!cin).toNat
  { n := decide (r.toInt < 0)
    z := decide (r.toNat = 0)
    c := decide (b.toNat + (!cin).toNat ≤ a.toNat)
    v := decide (a.toInt - b.toInt - (!cin).toNat < -2 ^ 31 ∨ 2 ^ 31 ≤ a.toInt - b.toInt - (!cin).toNat) }

/-- The flags with N and Z those of a result and C, V given (R137). -/
def resultFlags (r : Word) (c v : Bool) : Flags := ⟨decide (r.toInt < 0), decide (r.toNat = 0), c, v⟩

/-- The number the `n` bytes of the arrays from `a` on spell, least significant first (20_memory.md R63). -/
def State.littleEndian (s : State) : Nat → Word → Nat
  | 0, _ => 0
  | n + 1, a => (s.byteAt a).toNat + 256 * s.littleEndian n (a + 1)

/-- Every one of the `n` bytes from `base` on lies in the code or the SRAM array. -/
def InStorage (pf : Platform) (base : Word) (n : Nat) : Prop := ∀ a, InBytes base n a → isStorage pf a = true

end Sys2Proof.Machine

namespace Sys2Proof

open Sys2Proof.Machine

/-- A 16-bit encoding: the halfword decodes to the instruction, whatever follows it (30_encoding.md R90). -/
def EncodedAs (hw1 : Half) (i : Instr) : Prop := ∀ hw2, decode hw1 hw2 = .ok i

/-- The three pairs of classes of the decode table that overlap: the first of a pair shadows the second (30_encoding.md R116). -/
def shadowPairs : List (OpClass × OpClass) :=
  [(.svc, .condBranch), (.addSubtract, .moveShifted), (.nop, .otherHint), (.yield, .otherHint), (.wfe, .otherHint), (.wfi, .otherHint),
    (.sev, .otherHint)]

/-! ## What an instruction may change, by instruction -/

/-- Which flags an instruction writes (41_data_processing.md R171). -/
inductive FlagEffect where
  | none
  | nz
  | nzc
  | nzcv
  deriving DecidableEq, Repr

/-- The table of R171. -/
def Instr.flagEffect : Instr → FlagEffect
  | .lslImm .. | .lsrImm .. | .asrImm .. | .lslReg .. | .lsrReg .. | .asrReg .. | .ror .. => .nzc
  | .addReg .. | .subReg .. | .addImm3 .. | .subImm3 .. | .addImm8 .. | .subImm8 .. | .adc .. | .sbc .. | .neg ..
  | .cmpImm8 .. | .cmpReg .. | .cmpHi .. | .cmn .. => .nzcv
  | .movImm8 .. | .and .. | .eor .. | .orr .. | .bic .. | .mvn .. | .tst .. | .mul .. => .nz
  | _ => .none

/-- The registers other than R15 an instruction may write (10_state.md R32, 44_branch.md R234). -/
def Instr.writesRegs : Instr → List Reg
  | .lslImm _ _ rd | .lsrImm _ _ rd | .asrImm _ _ rd | .addReg _ _ rd | .subReg _ _ rd | .addImm3 _ _ rd | .subImm3 _ _ rd
  | .movImm8 rd _ | .addImm8 rd _ | .subImm8 rd _ | .and _ rd | .eor _ rd | .lslReg _ rd | .lsrReg _ rd | .asrReg _ rd | .adc _ rd
  | .sbc _ rd | .ror _ rd | .neg _ rd | .orr _ rd | .mul _ rd | .bic _ rd | .mvn _ rd | .ldrPc rd _ | .ldrReg _ _ rd | .ldrbReg _ _ rd
  | .ldrhReg _ _ rd | .ldsb _ _ rd | .ldsh _ _ rd | .ldrImm _ _ rd | .ldrbImm _ _ rd | .ldrhImm _ _ rd | .ldrSp rd _ | .addPc rd _
  | .addRdSp rd _ => [low rd]
  | .addHi _ d | .movHi _ d => [d]
  | .addSp _ | .subSp _ | .push .. => [SP]
  | .pop _ rlist => SP :: listedRegs rlist
  | .stmia rb _ => [low rb]
  | .ldmia rb rlist => low rb :: listedRegs rlist
  | .blx .. | .bl .. => [LR]
  | _ => []

/-- The instructions that store (20_memory.md R73). -/
def Instr.stores : Instr → Bool
  | .strReg .. | .strbReg .. | .strhReg .. | .strImm .. | .strbImm .. | .strhImm .. | .strSp .. | .push .. | .stmia .. => true
  | _ => false

/-- The fourteen conditions over the flags (44_branch.md R236), `none` for an instruction that is no conditional branch. -/
def Instr.condition : Instr → Flags → Option Bool
  | .beq _, f => some f.z
  | .bne _, f => some (!f.z)
  | .bcs _, f => some f.c
  | .bcc _, f => some (!f.c)
  | .bmi _, f => some f.n
  | .bpl _, f => some (!f.n)
  | .bvs _, f => some f.v
  | .bvc _, f => some (!f.v)
  | .bhi _, f => some (f.c && !f.z)
  | .bls _, f => some (!f.c || f.z)
  | .bge _, f => some (decide (f.n = f.v))
  | .blt _, f => some (decide (f.n ≠ f.v))
  | .bgt _, f => some (!f.z && decide (f.n = f.v))
  | .ble _, f => some (f.z || decide (f.n ≠ f.v))
  | _, _ => none

/-- The instructions that may transfer control, in a given flag state (10_state.md R46). -/
def Instr.mayTransfer (i : Instr) (f : Flags) : Bool :=
  match i with
  | .b _ | .bl .. | .bx .. | .blx .. => true
  | .pop pc _ => pc
  | .addHi _ d | .movHi _ d => d == PC
  | i => i.condition f == some true

/-- The instructions that raise NotImplementedFeature: name and second halfword (45_unimplemented.md R250 to R263). -/
def Instr.unimplementedName : Instr → Option Feature
  | .nop => some .nop
  | .yield => some .yield
  | .wfe => some .wfe
  | .wfi => some .wfi
  | .sev => some .sev
  | .hint _ => some .hint
  | .cpsie _ => some .cpsie
  | .cpsid _ => some .cpsid
  | .svc _ => some .svc
  | .bkpt _ => some .bkpt
  | .dsb _ => some .dsb
  | .dmb _ => some .dmb
  | .isb _ => some .isb
  | _ => none

/-- The data access a single-register transfer makes: its address and width (42_load_store.md R198). -/
def Instr.singleAccess (i : Instr) (s : State) : Option (Word × Width) :=
  match i with
  | .ldrPc _ imm8 => some ((s.reg PC &&& 0xFFFFFFFC) + immX4 imm8, .word)
  | .strReg ro rb _ | .ldrReg ro rb _ => some (s.reg (low rb) + s.reg (low ro), .word)
  | .strbReg ro rb _ | .ldrbReg ro rb _ | .ldsb ro rb _ => some (s.reg (low rb) + s.reg (low ro), .byte)
  | .strhReg ro rb _ | .ldrhReg ro rb _ | .ldsh ro rb _ => some (s.reg (low rb) + s.reg (low ro), .half)
  | .strImm imm5 rb _ | .ldrImm imm5 rb _ => some (s.reg (low rb) + immX4 imm5, .word)
  | .strbImm imm5 rb _ | .ldrbImm imm5 rb _ => some (s.reg (low rb) + imm imm5, .byte)
  | .strhImm imm5 rb _ | .ldrhImm imm5 rb _ => some (s.reg (low rb) + immX2 imm5, .half)
  | .strSp _ imm8 | .ldrSp _ imm8 => some (s.reg SP + immX4 imm8, .word)
  | _ => none

/-- The base of a multiple transfer and how many words it moves (43_address_stack_multiple.md R214). -/
def Instr.multipleAccess (i : Instr) (s : State) : Option (Word × Nat) :=
  match i with
  | .push lr rlist => some (s.reg SP - wordsSize (pushList lr rlist).length, (pushList lr rlist).length)
  | .pop pc rlist => some (s.reg SP, (listedRegs rlist).length + pc.toNat)
  | .stmia rb rlist | .ldmia rb rlist => some (s.reg (low rb), (listedRegs rlist).length)
  | _ => none

/-- An access MISALIGNED_POLICY = fault turns into a fatal error: of 2 or 4 bytes at an address that is no multiple of its size
(20_memory.md R69), the base of a multiple transfer of at least one word included (R214; log entry 13). -/
def Instr.accessMisaligned (i : Instr) (s : State) : Prop :=
  s.platform.misaligned = .fault ∧
    ((∃ a w, i.singleAccess s = some (a, w) ∧ a.toNat % w.bytes ≠ 0) ∨
      (∃ a n, i.multipleAccess s = some (a, n) ∧ 0 < n ∧ a.toNat % 4 ≠ 0))

end Sys2Proof
end

