-- ==== Sys2Proof/Certificates/Slice0/Obligations.lean ====
section
/-! DEFINITION. The statements for the provers. In every statement about `exec` the state is the one after the instruction's Advance, so
R[15] reads X + 4 and fetchPtr is X + 2 (10_state.md R39, R49). Every statement is for every platform: every region bound, every registry and
both values of each policy. -/

open Sys2Proof Sys2Proof.Machine

/-! ## Encoding -/

/-- The decoder gives back every well-formed instruction from its encoding, whatever halfword or bytes follow (30_encoding.md R90 to R115). -/
def Obligations.DecodeReadsBackEveryEncoding : Prop :=
  ∀ i : Instr, i.wf = true →
    (∀ hw2, decode (encodeFirst i) ((encodeSecond i).getD hw2) = .ok i) ∧
    (∀ rest, decodeBytes ((encode i).flatMap bytesOfHalf ++ rest) = .ok (i, rest))

/-- Whatever decodes is the encoding of what it decodes to: no bit is dropped, and the result is well formed (30_encoding.md R92 to R115). -/
def Obligations.EveryDecodedPairIsTheEncoding : Prop :=
  ∀ (hw1 hw2 : Half) (i : Instr), decode hw1 hw2 = .ok i →
    i.wf = true ∧ encodeFirst i = hw1 ∧ encodeSecond i = if i.isLong then some hw2 else none

/-- R90: BL and the barriers are the two-halfword instructions, their first halfword has one of the three 32-bit prefixes, and without such a
prefix the second halfword is ignored. -/
def Obligations.LengthIsToldByTheFirstHalfword : Prop :=
  (∀ i : Instr, i.isLong = true ↔ (∃ s imm10 j1 j2 imm11, i = .bl s imm10 j1 j2 imm11) ∨ ∃ op, i = .dsb op ∨ i = .dmb op ∨ i = .isb op) ∧
  (∀ (hw1 hw2 : Half) (i : Instr), decode hw1 hw2 = .ok i →
    (i.isLong = true ↔
      hw1.extractLsb' 11 5 = 0b11101#5 ∨ hw1.extractLsb' 11 5 = 0b11110#5 ∨ hw1.extractLsb' 11 5 = 0b11111#5)) ∧
  (∀ hw1 hw2 hw2' : Half,
    ¬(hw1.extractLsb' 11 5 = 0b11101#5 ∨ hw1.extractLsb' 11 5 = 0b11110#5 ∨ hw1.extractLsb' 11 5 = 0b11111#5) →
    decode hw1 hw2 = decode hw1 hw2')

/-- R116: two entries of the decode table overlap only as SVC in the conditional branches, add/subtract in the shifts and a named hint in the
hints; the earlier entry of such a pair lies inside the later one; cond = 1111 is SVC and op = 11 of format 1 is format 2; and any order of the
entries that keeps these pairs in order decodes alike. -/
def Obligations.DecodeEntriesOverlapInThreePairs : Prop :=
  (∀ a ∈ decodeTable, ∀ b ∈ decodeTable, a ≠ b → (∃ hw1 hw2, a.matches hw1 hw2 = true ∧ b.matches hw1 hw2 = true) →
    (a.cls, b.cls) ∈ shadowPairs ∨ (b.cls, a.cls) ∈ shadowPairs) ∧
  (∀ a ∈ decodeTable, ∀ b ∈ decodeTable, (a.cls, b.cls) ∈ shadowPairs →
    ∀ hw1 hw2, a.matches hw1 hw2 = true → b.matches hw1 hw2 = true) ∧
  (∀ imm8 : BitVec 8, EncodedAs (0b1101#4 ++ 0b1111#4 ++ imm8) (.svc imm8)) ∧
  (∀ (x : BitVec 2) (third rs rd : BitVec 3) (hw2 : Half), ∃ i, decode (0b00011#5 ++ x ++ third ++ rs ++ rd) hw2 = .ok i ∧
    (i = .addReg third rs rd ∨ i = .subReg third rs rd ∨ i = .addImm3 third rs rd ∨ i = .subImm3 third rs rd)) ∧
  (∀ table : List DecodeRow, table.Perm decodeTable → table.Pairwise (fun x y => (y.cls, x.cls) ∉ shadowPairs) →
    ∀ hw1 hw2, table.find? (·.matches hw1 hw2) = decodeTable.find? (·.matches hw1 hw2))

/-- R117: exactly these halfwords are no instruction, and the error records hw1 alone (R265). -/
def Obligations.UnallocatedEncodingsAreUnknown : Prop :=
  ∀ hw1 hw2 : Half,
    (decode hw1 hw2 = .error (.unknownInstruction hw1) ∨ ∃ i, decode hw1 hw2 = .ok i) ∧
    (decode hw1 hw2 = .error (.unknownInstruction hw1) ↔
      (0xB100#16 ≤ hw1 ∧ hw1 ≤ 0xB3FF#16) ∨ (0xB600#16 ≤ hw1 ∧ hw1 ≤ 0xB65F#16) ∨ (0xB680#16 ≤ hw1 ∧ hw1 ≤ 0xBBFF#16) ∨
      (0xBF00#16 ≤ hw1 ∧ hw1 ≤ 0xBFFF#16 ∧ hw1.extractLsb' 0 4 ≠ 0#4) ∨
      (0xE800#16 ≤ hw1 ∧ hw1 ≤ 0xEFFF#16) ∨ 0xF800#16 ≤ hw1 ∨
      (0xF000#16 ≤ hw1 ∧ hw1 ≤ 0xF7FF#16 ∧ hw2 &&& 0xD000#16 ≠ 0xD000#16 ∧
        ¬(hw1 = 0xF3BF#16 ∧ 0x8F40#16 ≤ hw2 ∧ hw2 ≤ 0x8F6F#16)))

/-- A few words written out from the spec's encodings decode to the instructions they stand for (30_encoding.md R92 to R112; the spec's own
examples of 95_test_vectors.md section 3). -/
def Obligations.SampleWordsDecode : Prop :=
  decodeTableWord 16 0b0001100001000000 = some (.addReg 1 0 0) ∧
  decodeTableWord 16 0b0010000000001100 = some (.movImm8 0 12) ∧
  decodeTableWord 16 0b0100010010001000 = some (.addHi 1 8) ∧
  decodeTableWord 16 0b0101011010001000 = some (.ldsb 2 1 0) ∧
  decodeTableWord 16 0b1011010100000010 = some (.push true 2) ∧
  decodeTableWord 16 0b1101000000000010 = some (.beq 2) ∧
  decodeTableWord 32 0b11110000000000001111100010000000 = some (.bl 0 0 1 1 0x080) ∧
  decodeTableWord 32 0b11110011101111111000111101001111 = some (.dsb 15)

/-- The value of every immediate field (30_encoding.md R114): zero-extended and scaled, sign-extended and doubled, and BL's offset with
I1 = NOT(J1 XOR S), I2 = NOT(J2 XOR S), each with its range. -/
def Obligations.ImmediateFieldValues : Prop :=
  (∀ imm5 : BitVec 5, shiftAmount imm5 = if imm5 = 0 then 32 else imm5.toNat) ∧
  (∀ imm3 : BitVec 3, (imm imm3).toNat = imm3.toNat) ∧
  (∀ imm8 : BitVec 8, (imm imm8).toNat = imm8.toNat ∧ (immX4 imm8).toNat = 4 * imm8.toNat) ∧
  (∀ imm7 : BitVec 7, (immX4 imm7).toNat = 4 * imm7.toNat) ∧
  (∀ imm5 : BitVec 5, (imm imm5).toNat = imm5.toNat ∧ (immX2 imm5).toNat = 2 * imm5.toNat ∧ (immX4 imm5).toNat = 4 * imm5.toNat) ∧
  (∀ imm8 : BitVec 8, (branchOffset imm8).toInt = 2 * imm8.toInt ∧ -256 ≤ (branchOffset imm8).toInt ∧ (branchOffset imm8).toInt ≤ 254) ∧
  (∀ imm11 : BitVec 11,
    (branchOffset imm11).toInt = 2 * imm11.toInt ∧ -2048 ≤ (branchOffset imm11).toInt ∧ (branchOffset imm11).toInt ≤ 2046) ∧
  (∀ (s : BitVec 1) (imm10 : BitVec 10) (j1 j2 : BitVec 1) (imm11 : BitVec 11),
    (longBranchOffset s imm10 j1 j2 imm11).toInt =
      -2 ^ 24 * (s.toNat : Int) + 2 ^ 23 * (if j1 = s then 1 else 0) + 2 ^ 22 * (if j2 = s then 1 else 0) + 2 ^ 12 * (imm10.toNat : Int) +
        2 * (imm11.toNat : Int) ∧
    -16777216 ≤ (longBranchOffset s imm10 j1 j2 imm11).toInt ∧ (longBranchOffset s imm10 j1 j2 imm11).toInt ≤ 16777214)

/-! ## Flag primitives and shifts -/

/-- R135 and R136: the four sign-bit formulas are the exact unsigned carry (no borrow) and signed overflow, with and without a carry-in. -/
def Obligations.FlagPrimitivesAreExact : Prop :=
  ∀ (a b : Word) (cin : Bool),
    (∀ c : Word, c = a + b + BitVec.ofNat 32 cin.toNat →
      addCarry a b c = decide (a.toNat + b.toNat + cin.toNat ≥ 2 ^ 32) ∧
      addOverflow a b c = decide (a.toInt + b.toInt + cin.toNat < -2 ^ 31 ∨ a.toInt + b.toInt + cin.toNat > 2 ^ 31 - 1)) ∧
    (∀ c : Word, c = a - b - BitVec.ofNat 32 (!cin).toNat →
      c = a + ~~~b + BitVec.ofNat 32 cin.toNat ∧
      subCarry a b c = decide (a.toNat ≥ b.toNat + (!cin).toNat) ∧
      subOverflow a b c = decide (a.toInt - b.toInt - (!cin).toNat < -2 ^ 31 ∨ a.toInt - b.toInt - (!cin).toNat > 2 ^ 31 - 1))

/-- R138 in integers: a left shift multiplies by 2^n with bit 32 of the product as carry, a logical right shift divides the unsigned value and
an arithmetic one the signed value with the last bit shifted out as carry, a rotation's carry is the result's top bit, and an amount of 0 keeps
the carry; for every amount, 0, 32 and above 32 included. -/
def Obligations.ShiftHelpersAgreeWithIntegers : Prop :=
  ∀ (x : Word) (n : Nat) (ci : Bool),
    lslC x n ci = (BitVec.ofNat 32 (x.toNat * 2 ^ n), if n = 0 then ci else (x.toNat * 2 ^ n).testBit 32) ∧
    lsrC x n ci = (BitVec.ofNat 32 (x.toNat / 2 ^ n), if n = 0 then ci else x.toNat.testBit (n - 1)) ∧
    asrC x n ci = (BitVec.ofInt 32 (x.toInt / 2 ^ n), if n = 0 then ci else decide (x.toInt / 2 ^ (n - 1) % 2 = 1)) ∧
    rorC x n ci = (x.rotateRight n, if n = 0 then ci else (x.rotateRight n).getLsbD 31)

/-! ## Data processing: encoding, completion, result, flags and frame -/

/-- R140 to R142. -/
def Obligations.ShiftsByImmediate : Prop :=
  ∀ (imm5 : BitVec 5) (rs rd : LowReg),
    EncodedAs (0b000#3 ++ 0b00#2 ++ imm5 ++ rs ++ rd) (.lslImm imm5 rs rd) ∧
    EncodedAs (0b000#3 ++ 0b01#2 ++ imm5 ++ rs ++ rd) (.lsrImm imm5 rs rd) ∧
    EncodedAs (0b000#3 ++ 0b10#2 ++ imm5 ++ rs ++ rd) (.asrImm imm5 rs rd) ∧
    ∀ s : State,
      let x := s.reg (low rs)
      let amount := if imm5 = 0 then 32 else imm5.toNat
      let left := lslC x imm5.toNat s.flags.c
      let right := lsrC x amount s.flags.c
      let arith := asrC x amount s.flags.c
      (∃ t, exec (.lslImm imm5 rs rd) s = .next t ∧ Wrote (low rd) left.1 (resultFlags left.1 left.2 s.flags.v) s t) ∧
      (∃ t, exec (.lsrImm imm5 rs rd) s = .next t ∧ Wrote (low rd) right.1 (resultFlags right.1 right.2 s.flags.v) s t) ∧
      (∃ t, exec (.asrImm imm5 rs rd) s = .next t ∧ Wrote (low rd) arith.1 (resultFlags arith.1 arith.2 s.flags.v) s t)

/-- R143 to R146, R149, R150. -/
def Obligations.AdditionAndSubtraction : Prop :=
  (∀ third rs rd : BitVec 3,
    EncodedAs (0b00011#5 ++ 0#1 ++ 0#1 ++ third ++ rs ++ rd) (.addReg third rs rd) ∧
    EncodedAs (0b00011#5 ++ 0#1 ++ 1#1 ++ third ++ rs ++ rd) (.subReg third rs rd) ∧
    EncodedAs (0b00011#5 ++ 1#1 ++ 0#1 ++ third ++ rs ++ rd) (.addImm3 third rs rd) ∧
    EncodedAs (0b00011#5 ++ 1#1 ++ 1#1 ++ third ++ rs ++ rd) (.subImm3 third rs rd) ∧
    ∀ s : State,
      let a := s.reg (low rs)
      let b := s.reg (low third)
      let k := BitVec.ofNat 32 third.toNat
      (∃ t, exec (.addReg third rs rd) s = .next t ∧ Wrote (low rd) (a + b) (sumFlags a b false) s t) ∧
      (∃ t, exec (.subReg third rs rd) s = .next t ∧ Wrote (low rd) (a - b) (differenceFlags a b true) s t) ∧
      (∃ t, exec (.addImm3 third rs rd) s = .next t ∧ Wrote (low rd) (a + k) (sumFlags a k false) s t) ∧
      (∃ t, exec (.subImm3 third rs rd) s = .next t ∧ Wrote (low rd) (a - k) (differenceFlags a k true) s t)) ∧
  (∀ (rd : LowReg) (imm8 : BitVec 8),
    EncodedAs (0b001#3 ++ 0b10#2 ++ rd ++ imm8) (.addImm8 rd imm8) ∧
    EncodedAs (0b001#3 ++ 0b11#2 ++ rd ++ imm8) (.subImm8 rd imm8) ∧
    ∀ s : State,
      let a := s.reg (low rd)
      let k := BitVec.ofNat 32 imm8.toNat
      (∃ t, exec (.addImm8 rd imm8) s = .next t ∧ Wrote (low rd) (a + k) (sumFlags a k false) s t) ∧
      (∃ t, exec (.subImm8 rd imm8) s = .next t ∧ Wrote (low rd) (a - k) (differenceFlags a k true) s t))

/-- R153 to R155 and R158: the amount is the low byte of Rs. -/
def Obligations.ShiftsByRegister : Prop :=
  ∀ rs rd : LowReg,
    EncodedAs (0b010000#6 ++ 0b0010#4 ++ rs ++ rd) (.lslReg rs rd) ∧
    EncodedAs (0b010000#6 ++ 0b0011#4 ++ rs ++ rd) (.lsrReg rs rd) ∧
    EncodedAs (0b010000#6 ++ 0b0100#4 ++ rs ++ rd) (.asrReg rs rd) ∧
    EncodedAs (0b010000#6 ++ 0b0111#4 ++ rs ++ rd) (.ror rs rd) ∧
    ∀ s : State,
      let x := s.reg (low rd)
      let n := (s.reg (low rs)).toNat % 256
      let left := lslC x n s.flags.c
      let right := lsrC x n s.flags.c
      let arith := asrC x n s.flags.c
      let rotated := rorC x n s.flags.c
      (∃ t, exec (.lslReg rs rd) s = .next t ∧ Wrote (low rd) left.1 (resultFlags left.1 left.2 s.flags.v) s t) ∧
      (∃ t, exec (.lsrReg rs rd) s = .next t ∧ Wrote (low rd) right.1 (resultFlags right.1 right.2 s.flags.v) s t) ∧
      (∃ t, exec (.asrReg rs rd) s = .next t ∧ Wrote (low rd) arith.1 (resultFlags arith.1 arith.2 s.flags.v) s t) ∧
      (∃ t, exec (.ror rs rd) s = .next t ∧ Wrote (low rd) rotated.1 (resultFlags rotated.1 rotated.2 s.flags.v) s t)

/-- R156, R157, R160: the carry enters ADC as one more and SBC as NOT C less. -/
def Obligations.CarryChainAndNegation : Prop :=
  ∀ rs rd : LowReg,
    EncodedAs (0b010000#6 ++ 0b0101#4 ++ rs ++ rd) (.adc rs rd) ∧
    EncodedAs (0b010000#6 ++ 0b0110#4 ++ rs ++ rd) (.sbc rs rd) ∧
    EncodedAs (0b010000#6 ++ 0b1001#4 ++ rs ++ rd) (.neg rs rd) ∧
    ∀ s : State,
      let a := s.reg (low rd)
      let b := s.reg (low rs)
      (∃ t, exec (.adc rs rd) s = .next t ∧
        Wrote (low rd) (BitVec.ofNat 32 (a.toNat + b.toNat + s.flags.c.toNat)) (sumFlags a b s.flags.c) s t) ∧
      (∃ t, exec (.sbc rs rd) s = .next t ∧
        Wrote (low rd) (BitVec.ofInt 32 ((a.toNat : Int) - b.toNat - (!s.flags.c).toNat)) (differenceFlags a b s.flags.c) s t) ∧
      (∃ t, exec (.neg rs rd) s = .next t ∧ Wrote (low rd) (-b) (differenceFlags 0 b true) s t)

/-- R148, R159, R161, R162, R168: no register is written; R15 reads X + 4 in the hi form. -/
def Obligations.ComparisonsWriteFlagsOnly : Prop :=
  (∀ (rd : LowReg) (imm8 : BitVec 8),
    EncodedAs (0b001#3 ++ 0b01#2 ++ rd ++ imm8) (.cmpImm8 rd imm8) ∧
    ∀ s : State, ∃ t, exec (.cmpImm8 rd imm8) s = .next t ∧
      Compared (differenceFlags (s.reg (low rd)) (BitVec.ofNat 32 imm8.toNat) true) s t) ∧
  (∀ rs rd : LowReg,
    EncodedAs (0b010000#6 ++ 0b1000#4 ++ rs ++ rd) (.tst rs rd) ∧
    EncodedAs (0b010000#6 ++ 0b1010#4 ++ rs ++ rd) (.cmpReg rs rd) ∧
    EncodedAs (0b010000#6 ++ 0b1011#4 ++ rs ++ rd) (.cmn rs rd) ∧
    ∀ s : State,
      let a := s.reg (low rd)
      let b := s.reg (low rs)
      (∃ t, exec (.tst rs rd) s = .next t ∧ Compared (resultFlags (a &&& b) s.flags.c s.flags.v) s t) ∧
      (∃ t, exec (.cmpReg rs rd) s = .next t ∧ Compared (differenceFlags a b true) s t) ∧
      (∃ t, exec (.cmn rs rd) s = .next t ∧ Compared (sumFlags a b false) s t)) ∧
  (∀ m d : Reg,
    EncodedAs (0b010001#6 ++ 0b01#2 ++ d.extractLsb' 3 1 ++ m ++ d.extractLsb' 0 3) (.cmpHi m d) ∧
    ∀ s : State, ∃ t, exec (.cmpHi m d) s = .next t ∧ Compared (differenceFlags (s.reg d) (s.reg m) true) s t)

/-- R147, R151, R152, R163 to R166: N and Z from the result, C and V kept; MUL keeps the low 32 bits of the product. -/
def Obligations.LogicalMoveAndMultiply : Prop :=
  (∀ (rd : LowReg) (imm8 : BitVec 8),
    EncodedAs (0b001#3 ++ 0b00#2 ++ rd ++ imm8) (.movImm8 rd imm8) ∧
    ∀ s : State, ∃ t, exec (.movImm8 rd imm8) s = .next t ∧
      Wrote (low rd) (BitVec.ofNat 32 imm8.toNat) ⟨false, decide (imm8 = 0), s.flags.c, s.flags.v⟩ s t) ∧
  (∀ rs rd : LowReg,
    EncodedAs (0b010000#6 ++ 0b0000#4 ++ rs ++ rd) (.and rs rd) ∧
    EncodedAs (0b010000#6 ++ 0b0001#4 ++ rs ++ rd) (.eor rs rd) ∧
    EncodedAs (0b010000#6 ++ 0b1100#4 ++ rs ++ rd) (.orr rs rd) ∧
    EncodedAs (0b010000#6 ++ 0b1101#4 ++ rs ++ rd) (.mul rs rd) ∧
    EncodedAs (0b010000#6 ++ 0b1110#4 ++ rs ++ rd) (.bic rs rd) ∧
    EncodedAs (0b010000#6 ++ 0b1111#4 ++ rs ++ rd) (.mvn rs rd) ∧
    ∀ s : State,
      let a := s.reg (low rd)
      let b := s.reg (low rs)
      let product := BitVec.ofNat 32 (a.toNat * b.toNat)
      let kept := fun r : Word => resultFlags r s.flags.c s.flags.v
      (∃ t, exec (.and rs rd) s = .next t ∧ Wrote (low rd) (a &&& b) (kept (a &&& b)) s t) ∧
      (∃ t, exec (.eor rs rd) s = .next t ∧ Wrote (low rd) (a ^^^ b) (kept (a ^^^ b)) s t) ∧
      (∃ t, exec (.orr rs rd) s = .next t ∧ Wrote (low rd) (a ||| b) (kept (a ||| b)) s t) ∧
      (∃ t, exec (.mul rs rd) s = .next t ∧ Wrote (low rd) product (kept product) s t) ∧
      (∃ t, exec (.bic rs rd) s = .next t ∧ Wrote (low rd) (a &&& ~~~b) (kept (a &&& ~~~b)) s t) ∧
      (∃ t, exec (.mvn rs rd) s = .next t ∧ Wrote (low rd) (~~~b) (kept (~~~b)) s t))

/-- R167, R169: no flag; a destination R15 is a branch, any other register holds the result. -/
def Obligations.HiRegisterAddAndMove : Prop :=
  ∀ m d : Reg,
    EncodedAs (0b010001#6 ++ 0b00#2 ++ d.extractLsb' 3 1 ++ m ++ d.extractLsb' 0 3) (.addHi m d) ∧
    EncodedAs (0b010001#6 ++ 0b10#2 ++ d.extractLsb' 3 1 ++ m ++ d.extractLsb' 0 3) (.movHi m d) ∧
    ∀ s : State,
      (d ≠ 15 →
        (∃ t, exec (.addHi m d) s = .next t ∧ t.reg d = s.reg d + s.reg m ∧ OnlyRegs [d] s t) ∧
        (∃ t, exec (.movHi m d) s = .next t ∧ t.reg d = s.reg m ∧ OnlyRegs [d] s t)) ∧
      (d = 15 →
        exec (.addHi m d) s = .next (branchTo (s.reg PC + s.reg m) s) ∧
        exec (.movHi m d) s = .next (branchTo (s.reg m) s))

/-! ## Branches -/

/-- R231, R232: a target with bit 0 = 1 is branched to, and BLX links to X + 2 with bit 0 set after reading the target; a target with bit 0 = 0
is IllegalStateTransition before any write, which is always so for R15. -/
def Obligations.BranchAndExchange : Prop :=
  ∀ (m : Reg) (sbz : BitVec 3),
    EncodedAs (0b010001#6 ++ 0b11#2 ++ 0#1 ++ m ++ sbz) (.bx m sbz) ∧
    EncodedAs (0b010001#6 ++ 0b11#2 ++ 1#1 ++ m ++ sbz) (.blx m sbz) ∧
    ∀ s : State,
      ((s.reg m).toNat % 2 = 1 →
        exec (.bx m sbz) s = .next (branchTo (s.reg m) s) ∧
        exec (.blx m sbz) s = .next (branchTo (s.reg m) (s.setReg LR (s.fetchPtr ||| 1)))) ∧
      ((s.reg m).toNat % 2 = 0 →
        exec (.bx m sbz) s = .next (haltedAt (.illegalStateTransition (s.reg m)) s) ∧
        exec (.blx m sbz) s = .next (haltedAt (.illegalStateTransition (s.reg m)) s)) ∧
      (s.Inv → (s.reg PC).toNat % 2 = 0)

/-- R236, R237, R264: each condition with its 4-bit value and its test; taken to X + 4 plus twice the signed field, not taken to X + 2; 1110 is
UnsupportedSubOperation with the halfword and 1111 is SVC. -/
def Obligations.ConditionalBranches : Prop :=
  ∀ imm8 : BitVec 8,
    let target := fun s : State => s.reg PC + BitVec.ofInt 32 (2 * imm8.toInt)
    let branches := fun (i : Instr) (cond : BitVec 4) (holds : Flags → Prop) =>
      EncodedAs (0b1101#4 ++ cond ++ imm8) i ∧
      ∀ s : State, (holds s.flags → exec i s = .next (branchTo (target s) s)) ∧ (¬holds s.flags → exec i s = .next s)
    branches (.beq imm8) 0b0000 (fun f => f.z = true) ∧
    branches (.bne imm8) 0b0001 (fun f => f.z = false) ∧
    branches (.bcs imm8) 0b0010 (fun f => f.c = true) ∧
    branches (.bcc imm8) 0b0011 (fun f => f.c = false) ∧
    branches (.bmi imm8) 0b0100 (fun f => f.n = true) ∧
    branches (.bpl imm8) 0b0101 (fun f => f.n = false) ∧
    branches (.bvs imm8) 0b0110 (fun f => f.v = true) ∧
    branches (.bvc imm8) 0b0111 (fun f => f.v = false) ∧
    branches (.bhi imm8) 0b1000 (fun f => f.c = true ∧ f.z = false) ∧
    branches (.bls imm8) 0b1001 (fun f => f.c = false ∨ f.z = true) ∧
    branches (.bge imm8) 0b1010 (fun f => f.n = f.v) ∧
    branches (.blt imm8) 0b1011 (fun f => f.n ≠ f.v) ∧
    branches (.bgt imm8) 0b1100 (fun f => f.z = false ∧ f.n = f.v) ∧
    branches (.ble imm8) 0b1101 (fun f => f.z = true ∨ f.n ≠ f.v) ∧
    EncodedAs (0b1101#4 ++ 0b1110#4 ++ imm8) (.bUndefined imm8) ∧
    (∀ s : State, exec (.bUndefined imm8) s = .next (haltedAt (.unsupportedSubOperation (.encoding (0b11011110#8 ++ imm8))) s)) ∧
    EncodedAs (0b1101#4 ++ 0b1111#4 ++ imm8) (.svc imm8)

/-- R240, R241: B and BL go to X + 4 plus their offset; BL links to X + 4 with bit 0 set. -/
def Obligations.BranchAndBranchWithLink : Prop :=
  (∀ imm11 : BitVec 11,
    EncodedAs (0b11100#5 ++ imm11) (.b imm11) ∧
    ∀ s : State, exec (.b imm11) s = .next (branchTo (s.reg PC + BitVec.ofInt 32 (2 * imm11.toInt)) s)) ∧
  (∀ (sgn : BitVec 1) (imm10 : BitVec 10) (j1 j2 : BitVec 1) (imm11 : BitVec 11),
    decode (0b11110#5 ++ sgn ++ imm10) (0b11#2 ++ j1 ++ 1#1 ++ j2 ++ imm11) = .ok (.bl sgn imm10 j1 j2 imm11) ∧
    ∀ s : State,
      let i1 : BitVec 1 := ~~~(j1 ^^^ sgn)
      let i2 : BitVec 1 := ~~~(j2 ^^^ sgn)
      let offset : Word := (sgn ++ i1 ++ i2 ++ imm10 ++ imm11 ++ 0#1).signExtend 32
      exec (.bl sgn imm10 j1 j2 imm11) s = .next (branchTo (s.reg PC + offset) (s.setReg LR (s.reg PC ||| 1))))

/-- R234: BL links to X + 4, BLX to X + 2, both odd; beside them only the hi-register ADD and MOV with destination R14 write LR. -/
def Obligations.LinkValuesAndTheirWriters : Prop :=
  (∀ (sgn : BitVec 1) (imm10 : BitVec 10) (j1 j2 : BitVec 1) (imm11 : BitVec 11) (s : State),
    ∃ t, exec (.bl sgn imm10 j1 j2 imm11) s = .next t ∧ t.reg LR = (s.reg PC ||| 1) ∧ (t.reg LR).toNat % 2 = 1) ∧
  (∀ (m : Reg) (sbz : BitVec 3) (s : State), (s.reg m).toNat % 2 = 1 →
    ∃ t, exec (.blx m sbz) s = .next t ∧ t.reg LR = (s.fetchPtr ||| 1) ∧ (t.reg LR).toNat % 2 = 1) ∧
  (∀ (i : Instr) (s t : State), exec i s = .next t → t.reg LR ≠ s.reg LR →
    (∃ sgn imm10 j1 j2 imm11, i = .bl sgn imm10 j1 j2 imm11) ∨ (∃ m sbz, i = .blx m sbz) ∨ (∃ m, i = .addHi m 14) ∨ ∃ m, i = .movHi m 14)

/-! ## Recognised but unimplemented -/

/-- R251 to R258: the hints and CPS halt the run with their own NotImplementedFeature and their halfword; nothing else changes. -/
def Obligations.HintsAndCpsHaltAsUnimplemented : Prop :=
  (EncodedAs 0xBF00 .nop ∧ ∀ s, exec .nop s = .next (haltedAt (.notImplementedFeature .nop 0xBF00 none) s)) ∧
  (EncodedAs 0xBF10 .yield ∧ ∀ s, exec .yield s = .next (haltedAt (.notImplementedFeature .yield 0xBF10 none) s)) ∧
  (EncodedAs 0xBF20 .wfe ∧ ∀ s, exec .wfe s = .next (haltedAt (.notImplementedFeature .wfe 0xBF20 none) s)) ∧
  (EncodedAs 0xBF30 .wfi ∧ ∀ s, exec .wfi s = .next (haltedAt (.notImplementedFeature .wfi 0xBF30 none) s)) ∧
  (EncodedAs 0xBF40 .sev ∧ ∀ s, exec .sev s = .next (haltedAt (.notImplementedFeature .sev 0xBF40 none) s)) ∧
  (∀ op : BitVec 4, 5 ≤ op.toNat →
    EncodedAs (0xBF#8 ++ op ++ 0#4) (.hint op) ∧
    ∀ s, exec (.hint op) s = .next (haltedAt (.notImplementedFeature .hint (0xBF#8 ++ op ++ 0#4) none) s)) ∧
  (∀ low4 : BitVec 4,
    EncodedAs (0xB66#12 ++ low4) (.cpsie low4) ∧ EncodedAs (0xB67#12 ++ low4) (.cpsid low4) ∧
    ∀ s, exec (.cpsie low4) s = .next (haltedAt (.notImplementedFeature .cpsie (0xB66#12 ++ low4) none) s) ∧
      exec (.cpsid low4) s = .next (haltedAt (.notImplementedFeature .cpsid (0xB67#12 ++ low4) none) s))

/-- R259 to R263: SVC, BKPT and the barriers halt the run with their own NotImplementedFeature and their halfwords. -/
def Obligations.SvcBkptAndBarriersHaltAsUnimplemented : Prop :=
  (∀ imm8 : BitVec 8,
    EncodedAs (0xDF#8 ++ imm8) (.svc imm8) ∧ EncodedAs (0xBE#8 ++ imm8) (.bkpt imm8) ∧
    ∀ s, exec (.svc imm8) s = .next (haltedAt (.notImplementedFeature .svc (0xDF#8 ++ imm8) none) s) ∧
      exec (.bkpt imm8) s = .next (haltedAt (.notImplementedFeature .bkpt (0xBE#8 ++ imm8) none) s)) ∧
  (∀ op : BitVec 4,
    decode 0xF3BF (0x8F4#12 ++ op) = .ok (.dsb op) ∧
    decode 0xF3BF (0x8F5#12 ++ op) = .ok (.dmb op) ∧
    decode 0xF3BF (0x8F6#12 ++ op) = .ok (.isb op) ∧
    ∀ s, exec (.dsb op) s = .next (haltedAt (.notImplementedFeature .dsb 0xF3BF (some (0x8F4#12 ++ op))) s) ∧
      exec (.dmb op) s = .next (haltedAt (.notImplementedFeature .dmb 0xF3BF (some (0x8F5#12 ++ op))) s) ∧
      exec (.isb op) s = .next (haltedAt (.notImplementedFeature .isb 0xF3BF (some (0x8F6#12 ++ op))) s))

/-! ## Loads and stores -/

/-- R184, R185, R187 to R189: address Rb + Ro, the value zero- or sign-extended into Rd, nothing else changed but a peripheral's history. -/
def Obligations.RegisterOffsetLoads : Prop :=
  ∀ ro rb rd : LowReg,
    EncodedAs (0b0101#4 ++ 1#1 ++ 0#1 ++ 0#1 ++ ro ++ rb ++ rd) (.ldrReg ro rb rd) ∧
    EncodedAs (0b0101#4 ++ 1#1 ++ 1#1 ++ 0#1 ++ ro ++ rb ++ rd) (.ldrbReg ro rb rd) ∧
    EncodedAs (0b0101#4 ++ 1#1 ++ 0#1 ++ 1#1 ++ ro ++ rb ++ rd) (.ldrhReg ro rb rd) ∧
    EncodedAs (0b0101#4 ++ 0#1 ++ 1#1 ++ 1#1 ++ ro ++ rb ++ rd) (.ldsb ro rb rd) ∧
    EncodedAs (0b0101#4 ++ 1#1 ++ 1#1 ++ 1#1 ++ ro ++ rb ++ rd) (.ldsh ro rb rd) ∧
    ∀ s : State,
      let ea := s.reg (low rb) + s.reg (low ro)
      (AccessAllowed s ea 4 → ∃ t, exec (.ldrReg ro rb rd) s = .next t ∧ Loaded (low rd) ea .word id s t) ∧
      (∃ t, exec (.ldrbReg ro rb rd) s = .next t ∧ Loaded (low rd) ea .byte (fun v => BitVec.ofNat 32 (v.toNat % 2 ^ 8)) s t) ∧
      (AccessAllowed s ea 2 → ∃ t, exec (.ldrhReg ro rb rd) s = .next t ∧
        Loaded (low rd) ea .half (fun v => BitVec.ofNat 32 (v.toNat % 2 ^ 16)) s t) ∧
      (∃ t, exec (.ldsb ro rb rd) s = .next t ∧ Loaded (low rd) ea .byte (fun v => (v.extractLsb' 0 8).signExtend 32) s t) ∧
      (AccessAllowed s ea 2 → ∃ t, exec (.ldsh ro rb rd) s = .next t ∧
        Loaded (low rd) ea .half (fun v => (v.extractLsb' 0 16).signExtend 32) s t)

/-- R181, R191, R193, R195, R197: the PC-relative base is word-aligned first, so it is never misaligned; the immediate is scaled by the size. -/
def Obligations.PcSpAndImmediateOffsetLoads : Prop :=
  (∀ (rd : LowReg) (imm8 : BitVec 8),
    EncodedAs (0b01001#5 ++ rd ++ imm8) (.ldrPc rd imm8) ∧
    EncodedAs (0b1001#4 ++ 1#1 ++ rd ++ imm8) (.ldrSp rd imm8) ∧
    ∀ s : State,
      let fromPc := (s.reg PC &&& 0xFFFFFFFC) + BitVec.ofNat 32 (4 * imm8.toNat)
      let fromSp := s.reg SP + BitVec.ofNat 32 (4 * imm8.toNat)
      (∃ t, exec (.ldrPc rd imm8) s = .next t ∧ Loaded (low rd) fromPc .word id s t) ∧
      (AccessAllowed s fromSp 4 → ∃ t, exec (.ldrSp rd imm8) s = .next t ∧ Loaded (low rd) fromSp .word id s t)) ∧
  (∀ (imm5 : BitVec 5) (rb rd : LowReg),
    EncodedAs (0b011#3 ++ 0#1 ++ 1#1 ++ imm5 ++ rb ++ rd) (.ldrImm imm5 rb rd) ∧
    EncodedAs (0b011#3 ++ 1#1 ++ 1#1 ++ imm5 ++ rb ++ rd) (.ldrbImm imm5 rb rd) ∧
    EncodedAs (0b1000#4 ++ 1#1 ++ imm5 ++ rb ++ rd) (.ldrhImm imm5 rb rd) ∧
    ∀ s : State,
      let word := s.reg (low rb) + BitVec.ofNat 32 (4 * imm5.toNat)
      let byte := s.reg (low rb) + BitVec.ofNat 32 imm5.toNat
      let half := s.reg (low rb) + BitVec.ofNat 32 (2 * imm5.toNat)
      (AccessAllowed s word 4 → ∃ t, exec (.ldrImm imm5 rb rd) s = .next t ∧ Loaded (low rd) word .word id s t) ∧
      (∃ t, exec (.ldrbImm imm5 rb rd) s = .next t ∧ Loaded (low rd) byte .byte (fun v => BitVec.ofNat 32 (v.toNat % 2 ^ 8)) s t) ∧
      (AccessAllowed s half 2 → ∃ t, exec (.ldrhImm imm5 rb rd) s = .next t ∧
        Loaded (low rd) half .half (fun v => BitVec.ofNat 32 (v.toNat % 2 ^ 16)) s t))

/-- R182, R183, R186, R190, R192, R194, R196: one write of the low bytes of Rd at the address the meaning computes, no other byte changed. -/
def Obligations.StoresWriteOnlyTheirBytes : Prop :=
  (∀ ro rb rd : LowReg,
    EncodedAs (0b0101#4 ++ 0#1 ++ 0#1 ++ 0#1 ++ ro ++ rb ++ rd) (.strReg ro rb rd) ∧
    EncodedAs (0b0101#4 ++ 0#1 ++ 1#1 ++ 0#1 ++ ro ++ rb ++ rd) (.strbReg ro rb rd) ∧
    EncodedAs (0b0101#4 ++ 0#1 ++ 0#1 ++ 1#1 ++ ro ++ rb ++ rd) (.strhReg ro rb rd) ∧
    ∀ s : State,
      let ea := s.reg (low rb) + s.reg (low ro)
      let v := s.reg (low rd)
      (AccessAllowed s ea 4 → ∃ t, exec (.strReg ro rb rd) s = .next t ∧ Stored ea .word v s t) ∧
      (∃ t, exec (.strbReg ro rb rd) s = .next t ∧ Stored ea .byte v s t) ∧
      (AccessAllowed s ea 2 → ∃ t, exec (.strhReg ro rb rd) s = .next t ∧ Stored ea .half v s t)) ∧
  (∀ (imm5 : BitVec 5) (rb rd : LowReg),
    EncodedAs (0b011#3 ++ 0#1 ++ 0#1 ++ imm5 ++ rb ++ rd) (.strImm imm5 rb rd) ∧
    EncodedAs (0b011#3 ++ 1#1 ++ 0#1 ++ imm5 ++ rb ++ rd) (.strbImm imm5 rb rd) ∧
    EncodedAs (0b1000#4 ++ 0#1 ++ imm5 ++ rb ++ rd) (.strhImm imm5 rb rd) ∧
    ∀ s : State,
      let word := s.reg (low rb) + BitVec.ofNat 32 (4 * imm5.toNat)
      let byte := s.reg (low rb) + BitVec.ofNat 32 imm5.toNat
      let half := s.reg (low rb) + BitVec.ofNat 32 (2 * imm5.toNat)
      let v := s.reg (low rd)
      (AccessAllowed s word 4 → ∃ t, exec (.strImm imm5 rb rd) s = .next t ∧ Stored word .word v s t) ∧
      (∃ t, exec (.strbImm imm5 rb rd) s = .next t ∧ Stored byte .byte v s t) ∧
      (AccessAllowed s half 2 → ∃ t, exec (.strhImm imm5 rb rd) s = .next t ∧ Stored half .half v s t)) ∧
  (∀ (rd : LowReg) (imm8 : BitVec 8),
    EncodedAs (0b1001#4 ++ 0#1 ++ rd ++ imm8) (.strSp rd imm8) ∧
    ∀ s : State,
      let ea := s.reg SP + BitVec.ofNat 32 (4 * imm8.toNat)
      AccessAllowed s ea 4 → ∃ t, exec (.strSp rd imm8) s = .next t ∧ Stored ea .word (s.reg (low rd)) s t)

/-- Under MISALIGNED_POLICY = fault a misaligned data access of 2 or 4 bytes, or a misaligned base of a multiple transfer that moves a word,
is the error "misaligned" before any access or write; under bytewise no instruction is so (20_memory.md R69, 42_load_store.md R180,
43_address_stack_multiple.md R214; that a transfer of no word makes no error is the model's reading, log entry 13). -/
def Obligations.MisalignedAccessesHaltUnderTheFaultPolicy : Prop :=
  (∀ (i : Instr) (s : State), i.accessMisaligned s → exec i s = .next (haltedAt (.unsupportedSubOperation .misaligned) s)) ∧
  (∀ (i : Instr) (s t : State) (x : Word), s.platform.misaligned = .bytewise → s.run = .running → exec i s = .next t →
    t.run ≠ .halted (some ⟨.unsupportedSubOperation .misaligned, x⟩))

/-! ## Addresses, stack and multiple transfers -/

/-- R210 to R213: no flag and no memory access; the PC base is word-aligned, SP is not. -/
def Obligations.AddressGenerationAndStackAdjustment : Prop :=
  (∀ (rd : LowReg) (imm8 : BitVec 8),
    EncodedAs (0b1010#4 ++ 0#1 ++ rd ++ imm8) (.addPc rd imm8) ∧
    EncodedAs (0b1010#4 ++ 1#1 ++ rd ++ imm8) (.addRdSp rd imm8) ∧
    ∀ s : State,
      (∃ t, exec (.addPc rd imm8) s = .next t ∧
        t.reg (low rd) = (s.reg PC &&& 0xFFFFFFFC) + BitVec.ofNat 32 (4 * imm8.toNat) ∧ OnlyRegs [low rd] s t) ∧
      (∃ t, exec (.addRdSp rd imm8) s = .next t ∧
        t.reg (low rd) = s.reg SP + BitVec.ofNat 32 (4 * imm8.toNat) ∧ OnlyRegs [low rd] s t)) ∧
  (∀ imm7 : BitVec 7,
    EncodedAs (0b10110000#8 ++ 0#1 ++ imm7) (.addSp imm7) ∧
    EncodedAs (0b10110000#8 ++ 1#1 ++ imm7) (.subSp imm7) ∧
    ∀ s : State,
      (∃ t, exec (.addSp imm7) s = .next t ∧ t.reg SP = s.reg SP + BitVec.ofNat 32 (4 * imm7.toNat) ∧ OnlyRegs [SP] s t) ∧
      (∃ t, exec (.subSp imm7) s = .next t ∧ t.reg SP = s.reg SP - BitVec.ofNat 32 (4 * imm7.toNat) ∧ OnlyRegs [SP] s t))

/-- R215: the listed registers, then LR, at ascending addresses from SP - 4n on, SP left there, no other byte or register changed. -/
def Obligations.PushStoresBelowTheStackPointer : Prop :=
  ∀ (lr : Bool) (rlist : BitVec 8),
    EncodedAs (0b1011#4 ++ 0#1 ++ 0b10#2 ++ BitVec.ofBool lr ++ rlist) (.push lr rlist) ∧
    ∀ s : State,
      let list := ascending rlist ++ if lr then [LR] else []
      let base := s.reg SP - BitVec.ofNat 32 (4 * list.length)
      AccessAllowed s base 4 →
        ∃ t, exec (.push lr rlist) s = .next t ∧ t = (storesInOrder list base s).1.setReg SP base ∧
          (Memory.wf s.mem = true → OnlyBytes [SP] base (4 * list.length) s t)

/-- R216: the listed registers from ascending addresses, SP past the last word, then the branch to the popped PC, whose bit 0 is not
checked. -/
def Obligations.PopLoadsFromTheStackPointer : Prop :=
  ∀ rlist : BitVec 8,
    EncodedAs (0b1011#4 ++ 1#1 ++ 0b10#2 ++ 0#1 ++ rlist) (.pop false rlist) ∧
    EncodedAs (0b1011#4 ++ 1#1 ++ 0b10#2 ++ 1#1 ++ rlist) (.pop true rlist) ∧
    ∀ s : State, AccessAllowed s (s.reg SP) 4 →
      let u := loadsInOrder (ascending rlist) (s.reg SP) s
      let pc := u.1.read u.2 .word
      (∃ t, exec (.pop false rlist) s = .next t ∧ t = u.1.setReg SP u.2 ∧ OnlyRegsAndHistory (SP :: ascending rlist) s t) ∧
      exec (.pop true rlist) s = .next (branchTo pc.1 (pc.2.setReg SP (u.2 + 4)))

/-- R217: the listed registers at ascending addresses from Rb on, each as before the instruction, Rb then left past the last word. -/
def Obligations.StoreMultipleWritesBackTheBase : Prop :=
  ∀ (rb : LowReg) (rlist : BitVec 8),
    EncodedAs (0b1100#4 ++ 0#1 ++ rb ++ rlist) (.stmia rb rlist) ∧
    ∀ s : State, AccessAllowed s (s.reg (low rb)) 4 →
      let u := storesInOrder (ascending rlist) (s.reg (low rb)) s
      ∃ t, exec (.stmia rb rlist) s = .next t ∧ t = u.1.setReg (low rb) u.2 ∧
        (Memory.wf s.mem = true → OnlyBytes [low rb] (s.reg (low rb)) (4 * (ascending rlist).length) s t)

/-- R218: the listed registers from ascending addresses from Rb on; Rb is left past the last word unless it was loaded. -/
def Obligations.LoadMultipleWritesBackUnlessLoaded : Prop :=
  ∀ (rb : LowReg) (rlist : BitVec 8),
    EncodedAs (0b1100#4 ++ 1#1 ++ rb ++ rlist) (.ldmia rb rlist) ∧
    ∀ s : State, AccessAllowed s (s.reg (low rb)) 4 →
      let u := loadsInOrder (ascending rlist) (s.reg (low rb)) s
      ∃ t, exec (.ldmia rb rlist) s = .next t ∧
        (low rb ∈ ascending rlist → t = u.1) ∧
        (low rb ∉ ascending rlist → t = u.1.setReg (low rb) u.2) ∧
        OnlyRegsAndHistory (low rb :: ascending rlist) s t

/-- R219: an empty list makes no access and changes no register, whatever the policies (that the fault policy makes no error of it is the
model's reading, log entry 13); PUSH of LR alone and POP of PC alone are not empty. -/
def Obligations.EmptyListsChangeNothing : Prop :=
  (∀ (rb : LowReg) (s : State),
    exec (.push false 0) s = .next s ∧ exec (.pop false 0) s = .next s ∧ exec (.stmia rb 0) s = .next s ∧ exec (.ldmia rb 0) s = .next s) ∧
  (∀ s : State, AccessAllowed s (s.reg SP - 4) 4 →
    exec (.push true 0) s = .next ((s.write (s.reg SP - 4) .word (s.reg LR)).setReg SP (s.reg SP - 4))) ∧
  (∀ s : State, AccessAllowed s (s.reg SP) 4 →
    let pc := s.read (s.reg SP) .word
    exec (.pop true 0) s = .next (branchTo pc.1 (pc.2.setReg SP (s.reg SP + 4))))

/-- R220 of 43_address_stack_multiple.md, with the stack or the block in an array, where what is written is read back (20_memory.md R63, R64): PUSH then POP of one list restores its registers and SP; with LR and PC it also goes to
LR AND NOT 1 and leaves LR alone; STMIA then LDMIA from the same base into a list of the same size yields the stored values in order.
`u` is the state in which the second instruction runs: it agrees with what the first left on the base register and the transferred bytes. -/
def Obligations.TransfersReadBackWhatWasStored : Prop :=
  (∀ (rlist : BitVec 8) (s u : State),
    let n := 4 * (ascending rlist).length
    let base := s.reg SP - BitVec.ofNat 32 n
    Memory.wf s.mem = true → InStorage s.platform base n → AccessAllowed s base 4 →
    ∃ t, exec (.push false rlist) s = .next t ∧
      (u.platform = t.platform → u.reg SP = t.reg SP → (∀ a, InBytes base n a → u.byteAt a = t.byteAt a) →
        ∃ v, exec (.pop false rlist) u = .next v ∧ (∀ r ∈ ascending rlist, v.reg r = s.reg r) ∧ v.reg SP = s.reg SP)) ∧
  (∀ (rlist : BitVec 8) (s u : State),
    let n := 4 * ((ascending rlist).length + 1)
    let base := s.reg SP - BitVec.ofNat 32 n
    Memory.wf s.mem = true → InStorage s.platform base n → AccessAllowed s base 4 →
    ∃ t, exec (.push true rlist) s = .next t ∧
      (u.platform = t.platform → u.reg SP = t.reg SP → (∀ a, InBytes base n a → u.byteAt a = t.byteAt a) →
        ∃ v, exec (.pop true rlist) u = .next v ∧ (∀ r ∈ ascending rlist, v.reg r = s.reg r) ∧ v.reg SP = s.reg SP ∧
          v.fetchPtr = (s.reg LR &&& 0xFFFFFFFE) ∧ v.reg LR = u.reg LR)) ∧
  (∀ (rb rb' : LowReg) (rlist rlist' : BitVec 8) (s u : State),
    let n := 4 * (ascending rlist).length
    let base := s.reg (low rb)
    (ascending rlist').length = (ascending rlist).length →
    Memory.wf s.mem = true → InStorage s.platform base n → AccessAllowed s base 4 →
    ∃ t, exec (.stmia rb rlist) s = .next t ∧
      (u.platform = t.platform → u.reg (low rb') = base → (∀ a, InBytes base n a → u.byteAt a = t.byteAt a) →
        ∃ v, exec (.ldmia rb' rlist') u = .next v ∧ (ascending rlist').map v.reg = (ascending rlist).map s.reg))

/-! ## Steps -/

/-- R49: on an admitted platform a running core takes the two slots, advances, and executes the instruction they decode to; an encoding that
UNPRED_POLICY = fault turns away is the only exception, so with the default policy there is none. -/
def Obligations.StepRunsTheDecodedInstruction : Prop :=
  ∀ (s : State) (i : Instr), s.run = .running → platformOk s.platform = true → decode s.slot0 s.slot1 = .ok i →
    (s.platform.unpred = .fault → i.unpredictable = false) → step s = exec i (advance s)

/-- R271, R265: a halfword no entry matches halts the run at decode with UnknownInstruction and hw1; the Advance has happened and nothing else
changed. -/
def Obligations.UnknownInstructionHaltsAtDecode : Prop :=
  ∀ s : State, s.run = .running → platformOk s.platform = true → (∀ i, decode s.slot0 s.slot1 ≠ .ok i) →
    step s = .next (haltedAt (.unknownInstruction s.slot0) (advance s))

/-- UP1 to UP6 of 93_implementation_defined.md are the encodings UNPRED_POLICY = fault makes UnsupportedSubOperation "unpredictable" at decode,
before any write (60_exceptions.md R272; 92_eei_decisions.md D15); the policy's place before the misalignment check is the model's, log
entry 16. -/
def Obligations.UnpredictableEncodingsHaltUnderTheFaultPolicy : Prop :=
  (∀ (s : State) (i : Instr), s.run = .running → platformOk s.platform = true → decode s.slot0 s.slot1 = .ok i →
    s.platform.unpred = .fault → i.unpredictable = true →
    step s = .next (haltedAt (.unsupportedSubOperation .unpredictable) (advance s))) ∧
  (∀ i : Instr, i.unpredictable = true ↔
    (∃ m d : Reg, i = .cmpHi m d ∧ ((m.toNat < 8 ∧ d.toNat < 8) ∨ m = 15 ∨ d = 15)) ∨
    i = .addHi 15 15 ∨
    (∃ (m : Reg) (sbz : BitVec 3), sbz ≠ 0 ∧ (i = .bx m sbz ∨ i = .blx m sbz)) ∨
    (∃ sbz, i = .blx 15 sbz) ∨
    i = .push false 0 ∨ i = .pop false 0 ∨ (∃ rb, i = .stmia rb 0 ∨ i = .ldmia rb 0) ∨
    (∃ (rb : LowReg) (rlist : BitVec 8), i = .stmia rb rlist ∧ rlist.getLsbD rb.toNat = true ∧
      ∃ r : LowReg, r.toNat < rb.toNat ∧ rlist.getLsbD r.toNat = true))

/-- R41, with the wrap of R45: slot1 moves to slot0, fetch_ptr goes up by 2, slot1 is the one halfword read from fetch_ptr + 2, R[15] follows;
nothing else changes but a peripheral's history of that read. -/
def Obligations.AdvanceShiftsAndRefills : Prop :=
  ∀ s : State,
    let t := advance s
    t.slot0 = s.slot1 ∧ t.fetchPtr = s.fetchPtr + 2 ∧ t.slot1 = BitVec.ofNat 16 (s.read (s.fetchPtr + 4) .half).1.toNat ∧
    t.reg PC = t.fetchPtr + 2 ∧ t.peripheralLog = (s.read (s.fetchPtr + 4) .half).2.peripheralLog ∧
    SameRegsExcept [] s t ∧ t.flags = s.flags ∧ (∀ a, t.byteAt a = s.byteAt a) ∧ t.run = s.run ∧ SameMachine s t

/-- R42: bit 0 cleared, both slots refilled in order, R[15] = a + 2; nothing else changes but a peripheral's history of the two reads. -/
def Obligations.BranchToReseedsTheFetchUnit : Prop :=
  ∀ (target : Word) (s : State),
    let t := branchTo target s
    let a := target &&& 0xFFFFFFFE
    let first := s.read a .half
    let second := first.2.read (a + 2) .half
    t.fetchPtr = a ∧ t.slot0 = BitVec.ofNat 16 first.1.toNat ∧ t.slot1 = BitVec.ofNat 16 second.1.toNat ∧ t.reg PC = a + 2 ∧
    t.peripheralLog = second.2.peripheralLog ∧
    SameRegsExcept [] s t ∧ t.flags = s.flags ∧ (∀ b, t.byteAt b = s.byteAt b) ∧ t.run = s.run ∧ SameMachine s t

/-- Reset (70_reset_and_hazards.md R300, R301, R307): from any state, T and run are set, the vector word at 0x00000004 is read before the re-seed at it, and R0 to R14, the
flags, memory and the registry keep their values. That the peripherals' history is not cleared, and grows by those reads, is the model's choice,
log entry 8. -/
def Obligations.ResetLoadsTheVector : Prop :=
  ∀ s : State,
    let t := resetCore s
    let v := s.read 0x00000004 .word
    let a := v.1 &&& 0xFFFFFFFE
    let first := v.2.read a .half
    let second := first.2.read (a + 2) .half
    t.t = true ∧ t.run = .running ∧ t.fetchPtr = a ∧ t.slot0 = BitVec.ofNat 16 first.1.toNat ∧
    t.slot1 = BitVec.ofNat 16 second.1.toNat ∧ t.reg PC = a + 2 ∧ t.peripheralLog = second.2.peripheralLog ∧
    SameRegsExcept [] s t ∧ t.flags = s.flags ∧ (∀ b, t.byteAt b = s.byteAt b) ∧ t.platform = s.platform

/-! ## The invariant -/

/-- From any state with the invariant (canonical memory inside the arrays, R[15] = fetch_ptr + 2, fetch_ptr even, T true, an admitted
platform) every step leaves it (10_state.md R34, R39, R44; 20_memory.md R61, R64). -/
def Obligations.EveryStepKeepsTheInvariant : Prop :=
  ∀ s t : State, s.Inv → step s = .next t → t.Inv

/-- The reset state has the invariant; its memory, registers and platform are the model's choice (log entries 1 to 4). -/
def Obligations.ResetStateHasTheInvariant : Prop := State.reset.Inv

/-- Loading any bytes through the MMU and resetting gives the invariant on every admitted platform (70_reset_and_hazards.md R300, R302;
10_state.md R39, R44); the power-on registers are the model's (log entry 1), on which the invariant does not depend. -/
def Obligations.BootedMachineHasTheInvariant : Prop :=
  ∀ (pf : Platform) (writes : List LoadWrite), platformOk pf = true → (boot pf writes).Inv

/-! ## Rules over all instructions -/

/-- Every step of an admitted machine is a next state: no instruction and no address stops the model (60_exceptions.md R288); a halted core
stays as it is until a Reset (10_state.md R47, 60_exceptions.md R276), which as a step is log entry 7; a platform the spec refuses runs no
instruction (93_implementation_defined.md ID3, ID6; log entry 17). -/
def Obligations.EveryAdmittedMachineSteps : Prop :=
  (∀ s : State, platformOk s.platform = true → ∃ t, step s = .next t) ∧
  (∀ (s : State) (err : Option FatalError), s.run = .halted err → step s = .next s) ∧
  (∀ s : State, s.run = .running → platformOk s.platform = false → step s = .refused .platformRejected)

/-- R275, R277: a step that halts leaves a record with the address X of its instruction, fetch_ptr = X + 2, R[15] = X + 4, the slots as the
Advance left them, and every other register, every flag and all of memory as before. -/
def Obligations.FatalErrorsArePrecise : Prop :=
  ∀ (s t : State) (err : Option FatalError), s.run = .running → step s = .next t → t.run = .halted err →
    (∃ cause, err = some ⟨cause, s.fetchPtr⟩) ∧
    t.fetchPtr = s.fetchPtr + 2 ∧ t.reg PC = s.fetchPtr + 4 ∧ t.slot0 = s.slot1 ∧
    t.slot1 = BitVec.ofNat 16 (s.read (s.fetchPtr + 4) .half).1.toNat ∧
    t.peripheralLog = (s.read (s.fetchPtr + 4) .half).2.peripheralLog ∧
    SameRegsExcept [] s t ∧ t.flags = s.flags ∧ (∀ a, t.byteAt a = s.byteAt a) ∧ SameMachine s t

/-- A step halts the run exactly when its halfwords decode to nothing, or to an encoding the policy turns away, an unimplemented instruction,
the undefined condition, BX or BLX to an even target, or an access the policy makes an error; otherwise the core keeps running
(60_exceptions.md R271 to R274, R278, R288). That a transfer of no word at a misaligned base makes no error is the model's reading, log
entry 13. -/
def Obligations.FatalErrorsHaveTheseCausesOnly : Prop :=
  ∀ s t : State, s.run = .running → step s = .next t →
    ((∃ err, t.run = .halted err) ↔
      (∀ i, decode s.slot0 s.slot1 ≠ .ok i) ∨
      ∃ i, decode s.slot0 s.slot1 = .ok i ∧
        ((s.platform.unpred = .fault ∧ i.unpredictable = true) ∨ i.unimplementedName ≠ none ∨ (∃ imm8, i = .bUndefined imm8) ∨
          (∃ m sbz, (i = .bx m sbz ∨ i = .blx m sbz) ∧ ((advance s).reg m).toNat % 2 = 0) ∨ i.accessMisaligned (advance s)))

/-- R46: an instruction that may not transfer control leaves the fetch unit as its Advance did, so it continues at X + 2; one that may, and
does not halt the run, ends in BranchTo. -/
def Obligations.OnlyListedInstructionsTransferControl : Prop :=
  ∀ (i : Instr) (s t : State), exec i s = .next t →
    (i.mayTransfer s.flags = false →
      t.fetchPtr = s.fetchPtr ∧ t.slot0 = s.slot0 ∧ t.slot1 = s.slot1 ∧ t.reg PC = s.reg PC) ∧
    (i.mayTransfer s.flags = true → s.run = .running → (∀ err, t.run ≠ .halted err) → ∃ target u, t = branchTo target u)

/-- The table of R171 and R33: an instruction writes no flag outside its row, so a load, store, branch, stack or unimplemented instruction
writes none, a shift keeps V, a logical operation C and V. -/
def Obligations.FlagsChangeOnlyAsTabled : Prop :=
  ∀ (i : Instr) (s t : State), exec i s = .next t →
    (i.flagEffect = .none → t.flags = s.flags) ∧
    (i.flagEffect = .nz → t.flags.c = s.flags.c ∧ t.flags.v = s.flags.v) ∧
    (i.flagEffect = .nzc → t.flags.v = s.flags.v)

/-- R32: no instruction writes a register beside R15 and those its form names; SP is written by the SP forms, PUSH, POP and the hi forms
only. -/
def Obligations.RegistersChangeOnlyAsListed : Prop :=
  (∀ (i : Instr) (s t : State), exec i s = .next t → SameRegsExcept i.writesRegs s t) ∧
  (∀ (i : Instr) (s t : State), exec i s = .next t → t.reg SP ≠ s.reg SP →
    (∃ imm7, i = .addSp imm7 ∨ i = .subSp imm7) ∨ (∃ lr rlist, i = .push lr rlist) ∨ (∃ pc rlist, i = .pop pc rlist) ∨
      ∃ m, i = .addHi m 13 ∨ i = .movHi m 13)

/-- No instruction changes a byte of memory but a store, and a store only the bytes of its access: one access at the effective address, or n
words from the base on (20_memory.md R73, R74; 42_load_store.md R180, R198; 43_address_stack_multiple.md R214). -/
def Obligations.MemoryChangesOnlyInStoredBytes : Prop :=
  ∀ (i : Instr) (s t : State), exec i s = .next t →
    (i.stores = false → ∀ a, t.byteAt a = s.byteAt a) ∧
    (i.stores = true → Memory.wf s.mem = true →
      (∀ ea w, i.singleAccess s = some (ea, w) → SameBytesOutside ea w.bytes s t) ∧
      (∀ base n, i.multipleAccess s = some (base, n) → SameBytesOutside base (4 * n) s t))

/-- No step changes T (10_state.md R34), the registry (20_memory.md R80) or the regions (R61). That these parameters and the policies stand in
State, in its platform, is the model's choice, log entry 6. -/
def Obligations.NoStepChangesThumbOrPlatform : Prop :=
  ∀ s t : State, step s = .next t → t.t = s.t ∧ t.platform = s.platform

/-! ## Memory -/

/-- R62: code, then SRAM, then the first registered peripheral that contains the address, else Unmapped; regions inclusive, peripherals
half-open. -/
def Obligations.AddressesRouteInOrder : Prop :=
  ∀ (pf : Platform) (a : Word),
    let inCode := pf.codeBegin.toNat ≤ a.toNat ∧ a.toNat ≤ pf.codeEnd.toNat
    let inSram := pf.sramBegin.toNat ≤ a.toNat ∧ a.toNat ≤ pf.sramEnd.toNat
    let holds := fun p : Peripheral => p.start.toNat ≤ a.toNat ∧ a.toNat < p.stop.toNat
    (route pf a = .code ↔ inCode) ∧
    (route pf a = .sram ↔ ¬inCode ∧ inSram) ∧
    (∀ p, route pf a = .peripheral p ↔
      ¬inCode ∧ ¬inSram ∧ ∃ earlier later, pf.peripherals = earlier ++ p :: later ∧ holds p ∧ ∀ q ∈ earlier, ¬holds q) ∧
    (route pf a = .unmapped ↔ ¬inCode ∧ ¬inSram ∧ ∀ p ∈ pf.peripherals, ¬holds p)

/-- R63: a contained access to an array reads and writes its bytes little-endian; a read changes nothing, a write nothing but those bytes. -/
def Obligations.ArrayAccessesAreLittleEndian : Prop :=
  ∀ (s : State) (a : Word) (w : Width), contained s.platform a w = true → (route s.platform a = .code ∨ route s.platform a = .sram) →
    s.read a w = (BitVec.ofNat 32 (s.littleEndian w.bytes a), s) ∧
    (Memory.wf s.mem = true → ∀ v : Word,
      (∀ k < w.bytes, (s.write a w v).byteAt (a + BitVec.ofNat 32 k) = v.extractLsb' (8 * k) 8) ∧
      SameBytesOutside a w.bytes s (s.write a w v) ∧ (s.write a w v).peripheralLog = s.peripheralLog)

/-- R64 and R67: an Unmapped access reads 0 and writes nothing; an access whose bytes do not all route alike is made of single-byte accesses in
ascending order, assembled little-endian. -/
def Obligations.UnmappedAndStraddlingAccesses : Prop :=
  (∀ (s : State) (a : Word) (w : Width), contained s.platform a w = true ↔
    ∀ k < w.bytes, route s.platform (a + BitVec.ofNat 32 k) = route s.platform a) ∧
  (∀ (s : State) (a v : Word) (w : Width), contained s.platform a w = true → route s.platform a = .unmapped →
    s.read a w = (0, s) ∧ s.write a w v = s) ∧
  (∀ (s : State) (a v : Word), contained s.platform a .half = false →
    let r0 := s.read a .byte
    let r1 := r0.2.read (a + 1) .byte
    s.read a .half = (r0.1 ||| r1.1 <<< 8, r1.2) ∧
    s.write a .half v = (s.write a .byte v).write (a + 1) .byte (v >>> 8)) ∧
  (∀ (s : State) (a v : Word), contained s.platform a .word = false →
    let r0 := s.read a .byte
    let r1 := r0.2.read (a + 1) .byte
    let r2 := r1.2.read (a + 2) .byte
    let r3 := r2.2.read (a + 3) .byte
    s.read a .word = (r0.1 ||| r1.1 <<< 8 ||| r2.1 <<< 16 ||| r3.1 <<< 24, r3.2) ∧
    s.write a .word v =
      (((s.write a .byte v).write (a + 1) .byte (v >>> 8)).write (a + 2) .byte (v >>> 16)).write (a + 3) .byte (v >>> 24))

/-- A contained access that reaches a peripheral calls its method of that width with the absolute address: a read answers the oracle's value of
that width for the history of that peripheral, a write records the low bytes of the value, and nothing else changes (20_memory.md R66). The
oracle is the model's free value and the shape of the history its choice (log entries 8 and 9): nothing is said about the value read. -/
def Obligations.PeripheralAccessesDrawAndRecord : Prop :=
  ∀ (s : State) (a v : Word) (w : Width) (p : Peripheral), contained s.platform a w = true → route s.platform a = .peripheral p →
    (s.read a w).1 = (Config.peripheralRead p (s.peripheralLog.filter (fun e => decide (e.peripheral = p))) w a).setWidth 32 ∧
    (s.read a w).1.toNat < 2 ^ (8 * w.bytes) ∧
    (s.read a w).2.peripheralLog = ⟨p, w, a, .read⟩ :: s.peripheralLog ∧
    (s.write a w v).peripheralLog = ⟨p, w, a, .write (BitVec.ofNat 32 (v.toNat % 2 ^ (8 * w.bytes)))⟩ :: s.peripheralLog ∧
    (s.write a w v).mem = s.mem

/-- R72: a narrower read of bytes last written by a word write sees the little-endian bytes of that write. -/
def Obligations.NarrowReadsSeeTheBytesOfAWideWrite : Prop :=
  ∀ (s : State) (a v : Word) (w : Width) (k : Nat), Memory.wf s.mem = true → InStorage s.platform a 4 → k + w.bytes ≤ 4 →
    ((s.write a .word v).read (a + BitVec.ofNat 32 k) w).1 = BitVec.ofNat 32 (v.toNat / 2 ^ (8 * k) % 2 ^ (8 * w.bytes))

/-- R79: a candidate conflicts when either start lies inside the other's range; the first conflicting entry is named and nothing is registered;
otherwise the candidate is appended, and a registry without conflicts stays so. -/
def Obligations.RegistrationRefusesConflicts : Prop :=
  let clash := fun p e : Peripheral =>
    (e.start.toNat ≤ p.start.toNat ∧ p.start.toNat < e.stop.toNat) ∨ (p.start.toNat ≤ e.start.toNat ∧ e.start.toNat < p.stop.toNat)
  (∀ (p e : Peripheral) (registry : List Peripheral), register p registry = .error ⟨p, e⟩ ↔
    ∃ earlier later, registry = earlier ++ e :: later ∧ clash p e ∧ ∀ q ∈ earlier, ¬clash p q) ∧
  (∀ (p : Peripheral) (registry : List Peripheral), (∀ e ∈ registry, ¬clash p e) → register p registry = .ok (registry ++ [p])) ∧
  (∀ (p : Peripheral) (registry registry' : List Peripheral), registryOk registry = true → register p registry = .ok registry' →
    registryOk registry' = true)

/-! ## Hazards, the run loop, comparisons -/

/-- R304: two consecutive instructions that do not transfer control leave in slot0 what was in the FIFO before them: the halfword at X + 2 is the
old slot1, the one at X + 4 was read before the first instruction executed, the one at X + 6 after; a transfer to an array address refills both
slots from the bytes as the instruction left them. -/
def Obligations.StoresAreSeenByFetchAfterTwoHalfwords : Prop :=
  (∀ (s t u : State) (i j : Instr), s.run = .running → t.run = .running →
    decode s.slot0 s.slot1 = .ok i → i.mayTransfer s.flags = false → step s = .next t →
    decode t.slot0 t.slot1 = .ok j → j.mayTransfer t.flags = false → step t = .next u →
    t.slot0 = s.slot1 ∧ u.slot0 = BitVec.ofNat 16 (s.read (s.fetchPtr + 4) .half).1.toNat ∧
    u.slot1 = BitVec.ofNat 16 (t.read (s.fetchPtr + 6) .half).1.toNat) ∧
  (∀ (s t : State) (i : Instr), s.run = .running → t.run = .running →
    decode s.slot0 s.slot1 = .ok i → i.mayTransfer s.flags = true → step s = .next t → InStorage t.platform t.fetchPtr 4 →
    t.slot0 = BitVec.ofNat 16 (t.littleEndian 2 t.fetchPtr) ∧ t.slot1 = BitVec.ofNat 16 (t.littleEndian 2 (t.fetchPtr + 2)))

/-- The run loop (10_state.md R50) checks the run state, the halt flag and the budget once before each cycle, ends when a check fails, and
otherwise takes one unit of budget and runs one Cycle; under VERBOSE (00_scope.md R13), and only then, each Cycle has a record of its halfwords
and X (60_exceptions.md R284), and nothing else of the run depends on VERBOSE. A run for n instructions leaves what n steps leave, and a run
until halt is the loop without a budget. That a host halt leaves Halted with no record is log entry 12, that a halted core still answers a
step log entry 7. -/
def Obligations.RunLoopChecksThenCycles : Prop :=
  (∀ (verbose h : Bool) (hs : List Bool) (budget : Option Nat) (s : State),
    (s.run ≠ .running → runLoop verbose (h :: hs) budget s = ⟨s, budget, .notRunning, []⟩) ∧
    (s.run = .running → h = true →
      runLoop verbose (h :: hs) budget s = ⟨{ s with run := .halted none }, budget, .haltRequested, []⟩) ∧
    (s.run = .running → h = false → budget = some 0 → runLoop verbose (h :: hs) budget s = ⟨s, budget, .budgetExhausted, []⟩) ∧
    (s.run = .running → h = false → budget ≠ some 0 → platformOk s.platform = true →
      ∃ t, step s = .next t ∧
        let later := runLoop verbose hs (budget.map (· - 1)) t
        runLoop verbose (h :: hs) budget s =
          ⟨later.state, later.budget, later.ending, if verbose = true then traceRecord s :: later.trace else later.trace⟩)) ∧
  (∀ s : State, (traceRecord s).hw1 = s.slot0 ∧ (traceRecord s).x = s.fetchPtr ∧
    ((traceRecord s).hw2 = some s.slot1 ↔ ∃ i, decode s.slot0 s.slot1 = .ok i ∧ i.isLong = true)) ∧
  (∀ (hs : List Bool) (budget : Option Nat) (s : State), runLoop false hs budget s = { runLoop true hs budget s with trace := [] }) ∧
  (∀ (verbose : Bool) (n : Nat) (s : State), platformOk s.platform = true → Host.Core.run core n s = .next (runFor verbose n s).state) ∧
  (∀ (verbose : Bool) (hs : List Bool) (s : State), runUntilHalt verbose hs s = runLoop verbose hs none s)

/-- The low-register CMP and the branch after it decide the order of the operands: unsigned by CS, CC, HI, LS, signed by GE, LT, GT, LE, equality by
EQ, NE (41_data_processing.md R135, R161; 44_branch.md R236). -/
def Obligations.CompareThenConditionDecidesTheOrder : Prop :=
  ∀ (rs rd : LowReg) (s t : State), exec (.cmpReg rs rd) s = .next t →
    let a := s.reg (low rd)
    let b := s.reg (low rs)
    (condHolds .eq t.flags = true ↔ a = b) ∧ (condHolds .ne t.flags = true ↔ a ≠ b) ∧
    (condHolds .cs t.flags = true ↔ b.toNat ≤ a.toNat) ∧ (condHolds .cc t.flags = true ↔ a.toNat < b.toNat) ∧
    (condHolds .hi t.flags = true ↔ b.toNat < a.toNat) ∧ (condHolds .ls t.flags = true ↔ a.toNat ≤ b.toNat) ∧
    (condHolds .ge t.flags = true ↔ b.toInt ≤ a.toInt) ∧ (condHolds .lt t.flags = true ↔ a.toInt < b.toInt) ∧
    (condHolds .gt t.flags = true ↔ b.toInt < a.toInt) ∧ (condHolds .le t.flags = true ↔ a.toInt ≤ b.toInt)
end

