-- ==== Sys2Proof/Laws/State.lean ====
section
/-! SUPPORT. One lemma per field per update of the state, so that no later proof unfolds a record update; reading a register after writing
one. -/

namespace Sys2Proof.Machine

variable (s : State)

/-! ## setReg -/

@[simp] theorem State.setReg_flags (r : Reg) (x : Word) : (s.setReg r x).flags = s.flags := rfl
@[simp] theorem State.setReg_t (r : Reg) (x : Word) : (s.setReg r x).t = s.t := rfl
@[simp] theorem State.setReg_fetchPtr (r : Reg) (x : Word) : (s.setReg r x).fetchPtr = s.fetchPtr := rfl
@[simp] theorem State.setReg_slot0 (r : Reg) (x : Word) : (s.setReg r x).slot0 = s.slot0 := rfl
@[simp] theorem State.setReg_slot1 (r : Reg) (x : Word) : (s.setReg r x).slot1 = s.slot1 := rfl
@[simp] theorem State.setReg_run (r : Reg) (x : Word) : (s.setReg r x).run = s.run := rfl
@[simp] theorem State.setReg_mem (r : Reg) (x : Word) : (s.setReg r x).mem = s.mem := rfl
@[simp] theorem State.setReg_peripheralLog (r : Reg) (x : Word) : (s.setReg r x).peripheralLog = s.peripheralLog := rfl
@[simp] theorem State.setReg_platform (r : Reg) (x : Word) : (s.setReg r x).platform = s.platform := rfl
@[simp] theorem State.setReg_byteAt (r : Reg) (x : Word) (a : Word) : (s.setReg r x).byteAt a = s.byteAt a := rfl

/-- A register reads as the value written last. -/
@[simp] theorem State.reg_setReg_self (r : Reg) (x : Word) : (s.setReg r x).reg r = x := by
  simp [State.reg, State.setReg]

/-- Every other register is unchanged. -/
theorem State.reg_setReg_of_ne {r q : Reg} (x : Word) (h : q ≠ r) : (s.setReg r x).reg q = s.reg q := by
  have h' : r.toNat ≠ q.toNat := fun e => h (BitVec.eq_of_toNat_eq e.symm)
  simp [State.reg, State.setReg, Vector.getElem_set_ne, h']

theorem State.reg_setReg (r q : Reg) (x : Word) : (s.setReg r x).reg q = if q = r then x else s.reg q := by
  split
  · next h => subst h; simp
  · next h => exact s.reg_setReg_of_ne x h

/-! ## Flag updates -/

@[simp] theorem State.setFlags_flags (f : Flags) : (s.setFlags f).flags = f := rfl
@[simp] theorem State.setFlags_regs (f : Flags) : (s.setFlags f).regs = s.regs := rfl
@[simp] theorem State.setFlags_reg (f : Flags) (r : Reg) : (s.setFlags f).reg r = s.reg r := rfl
@[simp] theorem State.setFlags_t (f : Flags) : (s.setFlags f).t = s.t := rfl
@[simp] theorem State.setFlags_fetchPtr (f : Flags) : (s.setFlags f).fetchPtr = s.fetchPtr := rfl
@[simp] theorem State.setFlags_slot0 (f : Flags) : (s.setFlags f).slot0 = s.slot0 := rfl
@[simp] theorem State.setFlags_slot1 (f : Flags) : (s.setFlags f).slot1 = s.slot1 := rfl
@[simp] theorem State.setFlags_run (f : Flags) : (s.setFlags f).run = s.run := rfl
@[simp] theorem State.setFlags_mem (f : Flags) : (s.setFlags f).mem = s.mem := rfl
@[simp] theorem State.setFlags_peripheralLog (f : Flags) : (s.setFlags f).peripheralLog = s.peripheralLog := rfl
@[simp] theorem State.setFlags_platform (f : Flags) : (s.setFlags f).platform = s.platform := rfl
@[simp] theorem State.setFlags_byteAt (f : Flags) (a : Word) : (s.setFlags f).byteAt a = s.byteAt a := rfl

/-- N and Z follow the result, C and V are kept. -/
theorem State.setNZ_eq (r : Word) : s.setNZ r = s.setFlags ⟨r.getLsbD 31, r == 0, s.flags.c, s.flags.v⟩ := rfl

/-- N and Z follow the result, C is the shifter's, V is kept. -/
theorem State.setNZC_eq (r : Word) (c : Bool) : s.setNZC r c = s.setFlags ⟨r.getLsbD 31, r == 0, c, s.flags.v⟩ := rfl

/-! ## A read changes nothing but the peripherals' history -/

@[simp] theorem State.read_regs (a : Word) (w : Width) : (s.read a w).2.regs = s.regs := rfl
@[simp] theorem State.read_reg (a : Word) (w : Width) (r : Reg) : (s.read a w).2.reg r = s.reg r := rfl
@[simp] theorem State.read_flags (a : Word) (w : Width) : (s.read a w).2.flags = s.flags := rfl
@[simp] theorem State.read_t (a : Word) (w : Width) : (s.read a w).2.t = s.t := rfl
@[simp] theorem State.read_fetchPtr (a : Word) (w : Width) : (s.read a w).2.fetchPtr = s.fetchPtr := rfl
@[simp] theorem State.read_slot0 (a : Word) (w : Width) : (s.read a w).2.slot0 = s.slot0 := rfl
@[simp] theorem State.read_slot1 (a : Word) (w : Width) : (s.read a w).2.slot1 = s.slot1 := rfl
@[simp] theorem State.read_run (a : Word) (w : Width) : (s.read a w).2.run = s.run := rfl
@[simp] theorem State.read_mem (a : Word) (w : Width) : (s.read a w).2.mem = s.mem := rfl
@[simp] theorem State.read_platform (a : Word) (w : Width) : (s.read a w).2.platform = s.platform := rfl
@[simp] theorem State.read_byteAt (a : Word) (w : Width) (b : Word) : (s.read a w).2.byteAt b = s.byteAt b := rfl

/-! ## A write changes nothing but memory and the peripherals' history -/

@[simp] theorem State.write_regs (a : Word) (w : Width) (v : Word) : (s.write a w v).regs = s.regs := rfl
@[simp] theorem State.write_reg (a : Word) (w : Width) (v : Word) (r : Reg) : (s.write a w v).reg r = s.reg r := rfl
@[simp] theorem State.write_flags (a : Word) (w : Width) (v : Word) : (s.write a w v).flags = s.flags := rfl
@[simp] theorem State.write_t (a : Word) (w : Width) (v : Word) : (s.write a w v).t = s.t := rfl
@[simp] theorem State.write_fetchPtr (a : Word) (w : Width) (v : Word) : (s.write a w v).fetchPtr = s.fetchPtr := rfl
@[simp] theorem State.write_slot0 (a : Word) (w : Width) (v : Word) : (s.write a w v).slot0 = s.slot0 := rfl
@[simp] theorem State.write_slot1 (a : Word) (w : Width) (v : Word) : (s.write a w v).slot1 = s.slot1 := rfl
@[simp] theorem State.write_run (a : Word) (w : Width) (v : Word) : (s.write a w v).run = s.run := rfl
@[simp] theorem State.write_platform (a : Word) (w : Width) (v : Word) : (s.write a w v).platform = s.platform := rfl

/-! ## Advance and BranchTo -/

@[simp] theorem advance_flags : (advance s).flags = s.flags := rfl
@[simp] theorem advance_t : (advance s).t = s.t := rfl
@[simp] theorem advance_fetchPtr : (advance s).fetchPtr = s.fetchPtr + 2 := rfl
@[simp] theorem advance_slot0 : (advance s).slot0 = s.slot1 := rfl
@[simp] theorem advance_slot1 : (advance s).slot1 = (s.read (s.fetchPtr + 2 + 2) .half).1.setWidth 16 := rfl
@[simp] theorem advance_run : (advance s).run = s.run := rfl
@[simp] theorem advance_mem : (advance s).mem = s.mem := rfl
@[simp] theorem advance_peripheralLog :
    (advance s).peripheralLog = (s.read (s.fetchPtr + 2 + 2) .half).2.peripheralLog := rfl
@[simp] theorem advance_platform : (advance s).platform = s.platform := rfl
@[simp] theorem advance_byteAt (a : Word) : (advance s).byteAt a = s.byteAt a := rfl

@[simp] theorem branchTo_flags (t : Word) : (branchTo t s).flags = s.flags := rfl
@[simp] theorem branchTo_t (t : Word) : (branchTo t s).t = s.t := rfl
@[simp] theorem branchTo_fetchPtr (t : Word) : (branchTo t s).fetchPtr = t &&& 0xFFFFFFFE := rfl
@[simp] theorem branchTo_slot0 (t : Word) : (branchTo t s).slot0 = (s.read (t &&& 0xFFFFFFFE) .half).1.setWidth 16 := rfl
@[simp] theorem branchTo_slot1 (t : Word) :
    (branchTo t s).slot1 = ((s.read (t &&& 0xFFFFFFFE) .half).2.read ((t &&& 0xFFFFFFFE) + 2) .half).1.setWidth 16 := rfl
@[simp] theorem branchTo_run (t : Word) : (branchTo t s).run = s.run := rfl
@[simp] theorem branchTo_mem (t : Word) : (branchTo t s).mem = s.mem := rfl
@[simp] theorem branchTo_platform (t : Word) : (branchTo t s).platform = s.platform := rfl
@[simp] theorem branchTo_byteAt (t : Word) (a : Word) : (branchTo t s).byteAt a = s.byteAt a := rfl

/-- Advance writes R15 and no other register (R41). -/
theorem advance_reg (r : Reg) : (advance s).reg r = if r = PC then s.fetchPtr + 2 + 2 else s.reg r := by
  have h : (advance s).reg r = (s.setReg PC (s.fetchPtr + 2 + 2)).reg r := rfl
  rw [h, State.reg_setReg]

@[simp] theorem advance_reg_pc : (advance s).reg PC = s.fetchPtr + 4 := by
  rw [advance_reg, if_pos rfl, BitVec.add_assoc]; rfl

/-- BranchTo writes R15 and no other register (R42). -/
theorem branchTo_reg (t : Word) (r : Reg) :
    (branchTo t s).reg r = if r = PC then (t &&& 0xFFFFFFFE) + 2 else s.reg r := by
  have h : (branchTo t s).reg r = (s.setReg PC ((t &&& 0xFFFFFFFE) + 2)).reg r := rfl
  rw [h, State.reg_setReg]

@[simp] theorem branchTo_reg_pc (t : Word) : (branchTo t s).reg PC = (t &&& 0xFFFFFFFE) + 2 := by
  rw [branchTo_reg, if_pos rfl]

/-! ## A low register is neither SP, LR nor R15 -/

theorem low_toNat (r : LowReg) : (low r).toNat = r.toNat := by
  have := r.isLt
  simp only [low, BitVec.toNat_setWidth]
  omega

theorem low_ne_pc (r : LowReg) : low r ≠ PC := by
  intro h
  have h' := congrArg BitVec.toNat h
  rw [low_toNat] at h'
  have h2 : PC.toNat = 15 := rfl
  have := r.isLt
  omega

theorem low_ne_sp (r : LowReg) : low r ≠ SP := by
  intro h
  have h' := congrArg BitVec.toNat h
  rw [low_toNat] at h'
  have h2 : SP.toNat = 13 := rfl
  have := r.isLt
  omega

theorem low_ne_lr (r : LowReg) : low r ≠ LR := by
  intro h
  have h' := congrArg BitVec.toNat h
  rw [low_toNat] at h'
  have h2 : LR.toNat = 14 := rfl
  have := r.isLt
  omega

/-- Different low register fields name different registers (R113). -/
theorem low_injective {a b : LowReg} (h : low a = low b) : a = b := by
  have h' := congrArg BitVec.toNat h
  rw [low_toNat, low_toNat] at h'
  exact BitVec.eq_of_toNat_eq h'

end Sys2Proof.Machine
end

