-- ==== Sys2Proof/Laws/Memory.lean ====
section
/-! SUPPORT. The byte store keeps its canonical form and reads back what was written; one lemma for what a bus write does to any byte, one
for what a bus read leaves (20_memory.md R61 to R72). -/

namespace Sys2Proof.Machine

/-! ## The canonical form -/

theorem Memory.wfAbove_weaken {lo : Nat} {m : List Host.Cell} (h : Memory.wfAbove (some lo) m = true) : Memory.wf m = true := by
  cases m with
  | nil => rfl
  | cons c rest =>
    obtain ⟨k, x⟩ := c
    simp only [Memory.wfAbove, Bool.and_eq_true, Memory.wf] at *
    exact ⟨⟨trivial, h.1.2⟩, h.2⟩

theorem Memory.wfAbove_mono {lo lo' : Nat} (hle : lo ≤ lo') {m : List Host.Cell} (h : Memory.wfAbove (some lo') m = true) :
    Memory.wfAbove (some lo) m = true := by
  cases m with
  | nil => rfl
  | cons c rest =>
    obtain ⟨k, x⟩ := c
    simp only [Memory.wfAbove, Bool.and_eq_true, decide_eq_true_eq] at *
    exact ⟨⟨by omega, h.1.2⟩, h.2⟩

/-- At or below the bound nothing is listed. -/
theorem Memory.get_of_le {lo : Nat} {m : List Host.Cell} (h : Memory.wfAbove (some lo) m = true) {a : Nat} (ha : a ≤ lo) :
    Memory.get m a = Memory.unlisted a := by
  induction m generalizing lo with
  | nil => rfl
  | cons c rest ih =>
    obtain ⟨k, x⟩ := c
    simp only [Memory.wfAbove, Bool.and_eq_true, decide_eq_true_eq] at h
    rw [Memory.get, if_neg (by omega)]
    exact ih h.2 (by omega)

theorem Memory.get_cons (a : Nat) (x : Byte) (m : List Host.Cell) (hm : Memory.wfAbove (some a) m = true) (b : Nat) :
    Memory.get (Memory.cons a x m) b = if b = a then x else Memory.get m b := by
  unfold Memory.cons
  split
  · next h =>
    split
    · next hb => subst hb; rw [h]; exact Memory.get_of_le hm (Nat.le_refl _)
    · rfl
  · rw [Memory.get]
    by_cases hb : b = a
    · subst hb; simp
    · rw [if_neg (Ne.symm hb), if_neg hb]

theorem Memory.wfAbove_cons {lo : Option Nat} {a : Nat} {x : Byte} {m : List Host.Cell}
    (hlo : ∀ b, lo = some b → b < a) (hm : Memory.wfAbove (some a) m = true) : Memory.wfAbove lo (Memory.cons a x m) = true := by
  unfold Memory.cons
  split
  · cases lo with
    | none => exact Memory.wfAbove_weaken hm
    | some b => exact Memory.wfAbove_mono (Nat.le_of_lt (hlo b rfl)) hm
  · next hx =>
    simp only [Memory.wfAbove, Bool.and_eq_true, bne_iff_ne]
    refine ⟨⟨?_, hx⟩, hm⟩
    cases lo with
    | none => rfl
    | some b => simpa using hlo b rfl

/-- Writing a byte keeps the canonical form. -/
theorem Memory.wfAbove_set {lo : Option Nat} {m : List Host.Cell} (hm : Memory.wfAbove lo m = true) (a : Nat) (x : Byte)
    (hlo : ∀ b, lo = some b → b < a) : Memory.wfAbove lo (Memory.set m a x) = true := by
  induction m generalizing lo with
  | nil => exact Memory.wfAbove_cons hlo rfl
  | cons c rest ih =>
    obtain ⟨k, y⟩ := c
    have hm' := hm
    simp only [Memory.wfAbove, Bool.and_eq_true] at hm
    rw [Memory.set]
    split
    · next hlt =>
      refine Memory.wfAbove_cons hlo ?_
      simp only [Memory.wfAbove, Bool.and_eq_true, decide_eq_true_eq]
      exact ⟨⟨hlt, hm.1.2⟩, hm.2⟩
    · split
      · next heq => subst heq; exact Memory.wfAbove_cons hlo hm.2
      · simp only [Memory.wfAbove, Bool.and_eq_true]
        refine ⟨hm.1, ih hm.2 ?_⟩
        intro b hb
        cases hb
        omega

theorem Memory.wf_set {m : List Host.Cell} (hm : Memory.wf m = true) (a : Nat) (x : Byte) :
    Memory.wf (Memory.set m a x) = true := Memory.wfAbove_set hm a x (by intro b hb; cases hb)

/-- Read after write: the byte written there, every other byte unchanged. -/
theorem Memory.get_setAbove {lo : Option Nat} {m : List Host.Cell} (hm : Memory.wfAbove lo m = true) (a : Nat) (x : Byte) (b : Nat) :
    Memory.get (Memory.set m a x) b = if b = a then x else Memory.get m b := by
  induction m generalizing lo with
  | nil => exact Memory.get_cons a x [] rfl b
  | cons c rest ih =>
    obtain ⟨k, y⟩ := c
    simp only [Memory.wfAbove, Bool.and_eq_true] at hm
    rw [Memory.set]
    split
    · next hlt =>
      refine Memory.get_cons a x _ ?_ b
      simp only [Memory.wfAbove, Bool.and_eq_true, decide_eq_true_eq]
      exact ⟨⟨hlt, hm.1.2⟩, hm.2⟩
    · split
      · next heq =>
        subst heq
        rw [Memory.get_cons a x rest hm.2 b]
        split
        · rfl
        · next hb => rw [Memory.get, if_neg (Ne.symm hb)]
      · next hne =>
        rw [Memory.get, Memory.get, ih hm.2]
        by_cases hk : k = b
        · subst hk; simp [Ne.symm hne]
        · simp [hk]

theorem Memory.get_set {m : List Host.Cell} (hm : Memory.wf m = true) (a : Nat) (x : Byte) (b : Nat) :
    Memory.get (Memory.set m a x) b = if b = a then x else Memory.get m b := Memory.get_setAbove hm a x b

/-- No write lists an address but its own. -/
theorem Memory.of_mem_set {m : List Host.Cell} {a : Nat} {x : Byte} {c : Host.Cell} (h : c ∈ Memory.set m a x) :
    c.1 = a ∨ c ∈ m := by
  induction m with
  | nil =>
    simp only [Memory.set, Memory.cons] at h
    split at h
    · exact .inr h
    · left; simp_all
  | cons d rest ih =>
    obtain ⟨k, y⟩ := d
    rw [Memory.set] at h
    split at h
    · simp only [Memory.cons] at h
      split at h
      · exact .inr h
      · rcases List.mem_cons.1 h with h | h
        · left; rw [h]
        · exact .inr h
    · split at h
      · simp only [Memory.cons] at h
        split at h
        · exact .inr (List.mem_cons_of_mem _ h)
        · rcases List.mem_cons.1 h with h | h
          · left; rw [h]
          · exact .inr (List.mem_cons_of_mem _ h)
      · rcases List.mem_cons.1 h with h | h
        · right; rw [h]; exact List.mem_cons_self
        · rcases ih h with h | h
          · exact .inl h
          · exact .inr (List.mem_cons_of_mem _ h)

/-- Two canonical memories that read alike are equal. -/
theorem Memory.get_listed {lo : Option Nat} {k : Nat} {x : Byte} {m : List Host.Cell}
    (h : Memory.wfAbove lo ((k, x) :: m) = true) : Memory.get ((k, x) :: m) k ≠ Memory.unlisted k := by
  simp only [Memory.wfAbove, Bool.and_eq_true, bne_iff_ne] at h
  rw [Memory.get, if_pos rfl]
  exact h.1.2

/-! ## Addresses of an access -/

theorem inBytes_succ {a b : Word} {n : Nat} (hn : n + 1 ≤ 2 ^ 32) :
    InBytes a (n + 1) b ↔ b = a ∨ InBytes (a + 1) n b := by
  unfold InBytes
  constructor
  · intro h
    by_cases hb : b = a
    · exact .inl hb
    · right; bv_omega
  · rintro (h | h)
    · subst h; simp
    · bv_omega

theorem inBytes_succ_offset {a b : Word} {n : Nat} (hn : n + 1 ≤ 2 ^ 32) (h : InBytes (a + 1) n b) :
    b ≠ a ∧ (b - a).toNat = (b - (a + 1)).toNat + 1 := by
  unfold InBytes at h
  constructor
  · rintro rfl; bv_omega
  · bv_omega

theorem mem_accessAddrs {n : Nat} (hn : n ≤ 2 ^ 32) (a b : Word) : b ∈ accessAddrs n a ↔ InBytes a n b := by
  induction n generalizing a with
  | zero => simp [accessAddrs, InBytes]
  | succ n ih => rw [accessAddrs, List.mem_cons, ih (by omega), inBytes_succ hn]

theorem width_bytes_le (w : Width) : w.bytes ≤ 2 ^ 32 := by cases w <;> decide

/-- Every byte of a contained access routes as the first (R67). -/
theorem contained_route {pf : Platform} {a : Word} {w : Width} (h : contained pf a w = true) {b : Word}
    (hb : InBytes a w.bytes b) : route pf b = route pf a := by
  rw [contained, List.all_eq_true] at h
  exact eq_of_beq (h b ((mem_accessAddrs (width_bytes_le w) a b).2 hb))

/-- A byte access is contained. -/
@[simp] theorem contained_byte (pf : Platform) (a : Word) : contained pf a .byte = true := by
  simp [contained, Width.bytes, accessAddrs]

theorem isStorage_iff (pf : Platform) (a : Word) : isStorage pf a = true ↔ route pf a = .code ∨ route pf a = .sram := by
  unfold isStorage
  cases route pf a <;> simp

/-! ## What a bus write does to a byte -/

/-- The byte at offset `i` of a little-endian value (R63). -/
def byteOf (v : Word) (i : Nat) : Byte := (v >>> (8 * i)).setWidth 8

theorem byteOf_shift (v : Word) (i : Nat) : byteOf (v >>> 8) i = byteOf v (i + 1) := by
  unfold byteOf
  rw [← BitVec.shiftRight_add, Nat.mul_add, Nat.add_comm]

theorem byteOf_zero (v : Word) : byteOf v 0 = v.setWidth 8 := by simp [byteOf]

theorem wf_storeValue {mem : List Host.Cell} (hm : Memory.wf mem = true) (n : Nat) (a v : Word) :
    Memory.wf (storeValue mem n a v) = true := by
  induction n generalizing mem a v with
  | zero => exact hm
  | succ n ih => exact ih (Memory.wf_set hm _ _) _ _

/-- The store of a value: byte i of it lies at base + i, every other byte is unchanged. -/
theorem get_storeValue {mem : List Host.Cell} (hm : Memory.wf mem = true) {n : Nat} (hn : n ≤ 2 ^ 32) (a v b : Word) :
    Memory.get (storeValue mem n a v) b.toNat =
      if (b - a).toNat < n then byteOf v (b - a).toNat else Memory.get mem b.toNat := by
  induction n generalizing mem a v with
  | zero => simp [storeValue]
  | succ n ih =>
    rw [storeValue, ih (Memory.wf_set hm _ _) (by omega), Memory.get_set hm, byteOf_shift]
    have key := inBytes_succ (a := a) (b := b) hn
    unfold InBytes at key
    by_cases hb : b = a
    · subst hb
      have h1 : ¬ (b - (b + 1)).toNat < n := by bv_omega
      have h0 : (b - b).toNat = 0 := by simp
      rw [if_neg h1, if_pos rfl, h0, if_pos (Nat.succ_pos n), byteOf_zero]
    · have hne : b.toNat ≠ a.toNat := fun e => hb (BitVec.eq_of_toNat_eq e)
      by_cases hin : (b - (a + 1)).toNat < n
      · have hoff := (inBytes_succ_offset (a := a) (b := b) hn hin).2
        rw [if_pos hin, if_pos (key.2 (.inr hin)), hoff]
      · have hnot : ¬ (b - a).toNat < n + 1 := fun h => by
          rcases key.1 h with h | h
          · exact hb h
          · exact hin h
        rw [if_neg hin, if_neg hne, if_neg hnot]

theorem wf_writeContained {pf : Platform} {mem : List Host.Cell} (hm : Memory.wf mem = true) (log : List PeripheralAccess) (a : Word)
    (w : Width) (v : Word) : Memory.wf (writeContained pf mem log a w v).1 = true := by
  unfold writeContained
  split
  · exact wf_storeValue hm _ _ _
  · exact wf_storeValue hm _ _ _
  · exact hm
  · exact hm

theorem wf_writeBytes {pf : Platform} {mem : List Host.Cell} (hm : Memory.wf mem = true) (log : List PeripheralAccess) (n : Nat)
    (a v : Word) : Memory.wf (writeBytes pf n mem log a v).1 = true := by
  induction n generalizing mem log a v with
  | zero => exact hm
  | succ n ih => exact ih (wf_writeContained hm _ _ _ _) _ _ _

/-- Every bus write keeps the canonical form. -/
theorem wf_busWrite {pf : Platform} {mem : List Host.Cell} (hm : Memory.wf mem = true) (log : List PeripheralAccess) (a : Word)
    (w : Width) (v : Word) : Memory.wf (busWrite pf mem log a w v).1 = true := by
  unfold busWrite
  split
  · exact wf_writeContained hm _ _ _ _
  · exact wf_writeBytes hm _ _ _ _

theorem get_writeByte {pf : Platform} {mem : List Host.Cell} (hm : Memory.wf mem = true) (log : List PeripheralAccess) (a v b : Word) :
    Memory.get (writeContained pf mem log a .byte v).1 b.toNat =
      if b = a ∧ isStorage pf a = true then v.setWidth 8 else Memory.get mem b.toNat := by
  have hset : Memory.get (storeValue mem 1 a v) b.toNat = if b = a then v.setWidth 8 else Memory.get mem b.toNat := by
    rw [storeValue, storeValue, Memory.get_set hm]
    by_cases hb : b = a
    · simp [hb]
    · have hne : b.toNat ≠ a.toNat := fun e => hb (BitVec.eq_of_toNat_eq e)
      simp [hb, hne]
  unfold writeContained isStorage
  cases route pf a <;> simp [Width.bytes, hset]

theorem get_writeBytes {pf : Platform} {mem : List Host.Cell} (hm : Memory.wf mem = true) (log : List PeripheralAccess) {n : Nat}
    (hn : n ≤ 2 ^ 32) (a v b : Word) :
    Memory.get (writeBytes pf n mem log a v).1 b.toNat =
      if (b - a).toNat < n ∧ isStorage pf b = true then byteOf v (b - a).toNat else Memory.get mem b.toNat := by
  induction n generalizing mem log a v with
  | zero => simp [writeBytes]
  | succ n ih =>
    rw [writeBytes, ih (wf_writeContained hm _ _ _ _) _ (by omega), get_writeByte hm, byteOf_shift]
    have key := inBytes_succ (a := a) (b := b) hn
    unfold InBytes at key
    by_cases hb : b = a
    · subst hb
      have h1 : ¬ (b - (b + 1)).toNat < n := by bv_omega
      have h0 : (b - b).toNat = 0 := by simp
      rw [if_neg (fun h => h1 h.1), h0, byteOf_zero]
      simp
    · by_cases hin : (b - (a + 1)).toNat < n
      · have hoff := (inBytes_succ_offset (a := a) (b := b) hn hin).2
        have hin' : (b - a).toNat < n + 1 := key.2 (.inr hin)
        rw [hoff] at hin' ⊢
        simp only [hin, hin', hb, true_and, false_and, if_false]
      · have hnot : ¬ (b - a).toNat < n + 1 := fun h => by
          rcases key.1 h with h | h
          · exact hb h
          · exact hin h
        simp only [hin, hnot, hb, false_and, if_false]

/-- What `MemWrite(a, n, v)` does to any byte: the access's bytes that lie in an array take their byte of the value, every other byte is
unchanged (R63, R64, R66, R67). -/
theorem get_busWrite {pf : Platform} {mem : List Host.Cell} (hm : Memory.wf mem = true) (log : List PeripheralAccess) (a : Word)
    (w : Width) (v b : Word) :
    Memory.get (busWrite pf mem log a w v).1 b.toNat =
      if (b - a).toNat < w.bytes ∧ isStorage pf b = true then byteOf v (b - a).toNat else Memory.get mem b.toNat := by
  unfold busWrite
  split
  · next hc =>
    by_cases hin : (b - a).toNat < w.bytes
    · have hr := contained_route hc (b := b) hin
      unfold writeContained isStorage
      rw [hr]
      cases route pf a <;> simp only [get_storeValue hm (width_bytes_le w), hin, true_and, if_true, Bool.false_eq_true, if_false]
    · unfold writeContained
      cases route pf a <;> simp only [get_storeValue hm (width_bytes_le w), hin, false_and, if_false]
  · exact get_writeBytes hm log (width_bytes_le w) a v b

/-! ## Only the arrays hold bytes -/

theorem memBacked_iff {pf : Platform} {mem : List Host.Cell} :
    memBacked pf mem = true ↔ ∀ c ∈ mem, c.1 < 2 ^ 32 ∧ isStorage pf (BitVec.ofNat 32 c.1) = true := by
  simp [memBacked, List.all_eq_true]

theorem memBacked_set {pf : Platform} {mem : List Host.Cell} (h : memBacked pf mem = true) {a : Word} (ha : isStorage pf a = true)
    (x : Byte) : memBacked pf (Memory.set mem a.toNat x) = true := by
  rw [memBacked_iff] at *
  intro c hc
  rcases Memory.of_mem_set hc with hc | hc
  · rw [hc]; exact ⟨a.isLt, by simpa using ha⟩
  · exact h c hc

theorem memBacked_storeValue {pf : Platform} {mem : List Host.Cell} (h : memBacked pf mem = true) {n : Nat} (hn : n ≤ 2 ^ 32) {a : Word}
    (ha : ∀ b, InBytes a n b → isStorage pf b = true) (v : Word) : memBacked pf (storeValue mem n a v) = true := by
  induction n generalizing mem a v with
  | zero => exact h
  | succ n ih =>
    refine ih (memBacked_set h (ha a ?_) _) (by omega) (fun b hb => ha b ((inBytes_succ hn).2 (.inr hb))) _
    exact (inBytes_succ hn).2 (.inl rfl)

theorem memBacked_writeContained {pf : Platform} {mem : List Host.Cell} (h : memBacked pf mem = true) (log : List PeripheralAccess)
    {a : Word} {w : Width} (hc : contained pf a w = true) (v : Word) : memBacked pf (writeContained pf mem log a w v).1 = true := by
  unfold writeContained
  have hs : ∀ t, route pf a = t → (t = .code ∨ t = .sram) → ∀ b, InBytes a w.bytes b → isStorage pf b = true := by
    intro t ht hor b hb
    rw [isStorage_iff, contained_route hc hb, ht]
    exact hor
  split
  · next hr => exact memBacked_storeValue h (width_bytes_le w) (hs _ hr (.inl rfl)) v
  · next hr => exact memBacked_storeValue h (width_bytes_le w) (hs _ hr (.inr rfl)) v
  · exact h
  · exact h

theorem memBacked_writeBytes {pf : Platform} {mem : List Host.Cell} (h : memBacked pf mem = true) (log : List PeripheralAccess) (n : Nat)
    (a v : Word) : memBacked pf (writeBytes pf n mem log a v).1 = true := by
  induction n generalizing mem log a v with
  | zero => exact h
  | succ n ih => exact ih (memBacked_writeContained h _ (contained_byte pf a) _) _ _ _

/-- No bus write puts a byte outside the arrays. -/
theorem memBacked_busWrite {pf : Platform} {mem : List Host.Cell} (h : memBacked pf mem = true) (log : List PeripheralAccess) (a : Word)
    (w : Width) (v : Word) : memBacked pf (busWrite pf mem log a w v).1 = true := by
  unfold busWrite
  split
  · next hc => exact memBacked_writeContained h _ hc _
  · exact memBacked_writeBytes h _ _ _ _

/-! ## The state's operations -/

theorem State.byteAt_write {s : State} (hm : Memory.wf s.mem = true) (a : Word) (w : Width) (v b : Word) :
    (s.write a w v).byteAt b =
      if (b - a).toNat < w.bytes ∧ isStorage s.platform b = true then byteOf v (b - a).toNat else s.byteAt b :=
  get_busWrite hm s.peripheralLog a w v b

/-- A write changes no byte outside its access. -/
theorem State.byteAt_write_of_outside {s : State} (hm : Memory.wf s.mem = true) {a : Word} {w : Width} (v : Word) {b : Word}
    (hb : ¬ InBytes a w.bytes b) : (s.write a w v).byteAt b = s.byteAt b := by
  rw [State.byteAt_write hm]
  exact if_neg (fun h => hb h.1)

theorem State.wf_write {s : State} (hm : Memory.wf s.mem = true) (a : Word) (w : Width) (v : Word) :
    Memory.wf (s.write a w v).mem = true := wf_busWrite hm s.peripheralLog a w v

theorem State.memBacked_write {s : State} (h : memBacked s.platform s.mem = true) (a : Word) (w : Width) (v : Word) :
    memBacked (s.write a w v).platform (s.write a w v).mem = true := memBacked_busWrite h s.peripheralLog a w v

/-- A read from the arrays gives the bytes stored there and leaves no trace (R63). -/
theorem State.read_storage {s : State} {a : Word} {w : Width} (hc : contained s.platform a w = true)
    (ha : isStorage s.platform a = true) : s.read a w = (storedValue s.mem w.bytes a, s) := by
  unfold State.read busRead readContained
  rw [if_pos hc]
  rcases (isStorage_iff _ _).1 ha with h | h <;> simp [h]

/-- An Unmapped read gives 0 and leaves no trace (R64). -/
theorem State.read_unmapped {s : State} {a : Word} {w : Width} (hc : contained s.platform a w = true)
    (ha : route s.platform a = .unmapped) : s.read a w = (0, s) := by
  unfold State.read busRead readContained
  rw [if_pos hc]
  simp [ha]

end Sys2Proof.Machine
end

