-- ==== Sys2Proof/Laws/Ops.lean ====
section
/-! SUPPORT. One lemma per shared operation that says once everything it can do; later proofs cite these instead of unfolding. -/

namespace Sys2Proof.Machine

/-! ## Raising -/

/-- A fatal error is the next state in which only `run` has changed (60_exceptions.md R275). -/
theorem raise_eq (cause : FatalCause) (s : State) : raise cause s = .next (haltedAt cause s) := rfl

theorem raiseNotImplemented_eq (name : Feature) (hw1 : Half) (hw2 : Option Half) (s : State) :
    raiseNotImplemented name hw1 hw2 s = .next (haltedAt (.notImplementedFeature name hw1 hw2) s) := rfl

section halted
variable (cause : FatalCause) (s : State)
@[simp] theorem haltedAt_regs : (haltedAt cause s).regs = s.regs := rfl
@[simp] theorem haltedAt_reg (r : Reg) : (haltedAt cause s).reg r = s.reg r := rfl
@[simp] theorem haltedAt_flags : (haltedAt cause s).flags = s.flags := rfl
@[simp] theorem haltedAt_t : (haltedAt cause s).t = s.t := rfl
@[simp] theorem haltedAt_fetchPtr : (haltedAt cause s).fetchPtr = s.fetchPtr := rfl
@[simp] theorem haltedAt_slot0 : (haltedAt cause s).slot0 = s.slot0 := rfl
@[simp] theorem haltedAt_slot1 : (haltedAt cause s).slot1 = s.slot1 := rfl
@[simp] theorem haltedAt_run : (haltedAt cause s).run = .halted (some ⟨cause, s.fetchPtr - 2⟩) := rfl
@[simp] theorem haltedAt_mem : (haltedAt cause s).mem = s.mem := rfl
@[simp] theorem haltedAt_peripheralLog : (haltedAt cause s).peripheralLog = s.peripheralLog := rfl
@[simp] theorem haltedAt_platform : (haltedAt cause s).platform = s.platform := rfl
@[simp] theorem haltedAt_byteAt (a : Word) : (haltedAt cause s).byteAt a = s.byteAt a := rfl
end halted

/-! ## Results of data processing -/

/-- Writing a register other than R15 and the flags changes nothing else. -/
theorem wrote_setReg_setFlags {r : Reg} (hr : r ≠ PC) (v : Word) (f : Flags) (s : State) :
    Wrote r v f s ((s.setReg r v).setFlags f) where
  result := by rw [State.setFlags_reg, State.reg_setReg_self]
  flags := rfl
  rest :=
    { regs := fun _ _ hq => by
        rw [State.setFlags_reg, State.reg_setReg_of_ne _ _ (fun h => hq (List.mem_singleton.2 h))]
      memory := ⟨fun _ => rfl, rfl⟩
      continues := ⟨by rw [State.setFlags_reg, State.reg_setReg_of_ne _ _ (Ne.symm hr)], rfl, rfl, rfl, rfl⟩
      machine := ⟨rfl, rfl⟩ }

/-- Writing a register other than R15 changes nothing else. -/
theorem onlyRegs_setReg {r : Reg} (hr : r ≠ PC) (v : Word) (s : State) : OnlyRegs [r] s (s.setReg r v) where
  others :=
    { regs := fun _ _ hq => State.reg_setReg_of_ne _ _ (fun h => hq (List.mem_singleton.2 h))
      memory := ⟨fun _ => rfl, rfl⟩
      continues := ⟨State.reg_setReg_of_ne _ _ (Ne.symm hr), rfl, rfl, rfl, rfl⟩
      machine := ⟨rfl, rfl⟩ }
  flags := rfl

theorem compared_setFlags (f : Flags) (s : State) : Compared f s (s.setFlags f) where
  flags := rfl
  rest := ⟨fun _ _ _ => rfl, ⟨fun _ => rfl, rfl⟩, ⟨rfl, rfl, rfl, rfl, rfl⟩, ⟨rfl, rfl⟩⟩

/-- N of a result is its sign (R137). -/
theorem getLsbD_31_eq_neg (r : Word) : r.getLsbD 31 = decide (r.toInt < 0) := by
  rw [← BitVec.msb_eq_toInt]
  rfl

theorem resultFlags_eq (r : Word) (c v : Bool) : resultFlags r c v = ⟨r.getLsbD 31, r == 0, c, v⟩ := by
  have h : (r == 0) = decide (r.toNat = 0) := by
    rw [Bool.eq_iff_iff]
    simp [BitVec.toNat_eq]
  rw [resultFlags, getLsbD_31_eq_neg, h]

theorem writeArith_next (rd : LowReg) (r : Word × Flags) (s : State) :
    ∃ t, writeArith rd r s = .next t ∧ Wrote (low rd) r.1 r.2 s t :=
  ⟨_, rfl, wrote_setReg_setFlags (low_ne_pc rd) _ _ s⟩

theorem writeCompare_next (r : Word × Flags) (s : State) : ∃ t, writeCompare r s = .next t ∧ Compared r.2 s t :=
  ⟨_, rfl, compared_setFlags _ s⟩

theorem writeLogical_next (rd : LowReg) (r : Word) (s : State) :
    ∃ t, writeLogical rd r s = .next t ∧ Wrote (low rd) r (resultFlags r s.flags.c s.flags.v) s t := by
  rw [resultFlags_eq]
  exact ⟨_, rfl, wrote_setReg_setFlags (low_ne_pc rd) _ _ s⟩

theorem writeShift_next (rd : LowReg) (r : Word × Bool) (s : State) :
    ∃ t, writeShift rd r s = .next t ∧ Wrote (low rd) r.1 (resultFlags r.1 r.2 s.flags.v) s t := by
  rw [resultFlags_eq]
  exact ⟨_, rfl, wrote_setReg_setFlags (low_ne_pc rd) _ _ s⟩

/-- A conditional branch is a re-seed or nothing at all (R237). -/
theorem branchIf_eq (c : Cond) (imm8 : BitVec 8) (s : State) :
    branchIf c imm8 s = .next (if condHolds c s.flags then branchTo (s.reg PC + branchOffset imm8) s else s) := rfl

/-- A hi-register form branches for R15 and writes any other register (R167, R169). -/
theorem writeHi_pc (v : Word) (s : State) : s.writeHi PC v = branchTo v s := if_pos rfl

theorem writeHi_of_ne {d : Reg} (h : d ≠ PC) (v : Word) (s : State) : s.writeHi d v = s.setReg d v := if_neg h

/-! ## Loads and stores -/

/-- What a load can do: the misalignment error, or the extended value in Rd (R180). -/
theorem loadReg_cases {rd : LowReg} {ea : Word} {w : Width} {e : Extension} {s t : State} (h : loadReg rd ea w e s = .next t) :
    (s.misaligned ea w = true ∧ t = haltedAt (.unsupportedSubOperation .misaligned) s) ∨
    (s.misaligned ea w = false ∧ t = (s.read ea w).2.setReg (low rd) (e.apply (s.read ea w).1)) := by
  unfold loadReg at h
  split at h
  · next hm => rw [raise_eq] at h; cases h; exact .inl ⟨hm, rfl⟩
  · next hm => cases h; exact .inr ⟨by simpa using hm, rfl⟩

theorem loadReg_aligned {rd : LowReg} {ea : Word} {w : Width} {e : Extension} {s : State} (h : s.misaligned ea w = false) :
    loadReg rd ea w e s = .next ((s.read ea w).2.setReg (low rd) (e.apply (s.read ea w).1)) := by
  simp [loadReg, h]

theorem loadReg_misaligned {rd : LowReg} {ea : Word} {w : Width} {e : Extension} {s : State} (h : s.misaligned ea w = true) :
    loadReg rd ea w e s = .next (haltedAt (.unsupportedSubOperation .misaligned) s) := by
  simp [loadReg, h, raise_eq]

/-- What a store can do: the misalignment error, or the write (R180). -/
theorem storeReg_cases {rd : LowReg} {ea : Word} {w : Width} {s t : State} (h : storeReg rd ea w s = .next t) :
    (s.misaligned ea w = true ∧ t = haltedAt (.unsupportedSubOperation .misaligned) s) ∨
    (s.misaligned ea w = false ∧ t = s.write ea w (s.reg (low rd))) := by
  unfold storeReg at h
  split at h
  · next hm => rw [raise_eq] at h; cases h; exact .inl ⟨hm, rfl⟩
  · next hm => cases h; exact .inr ⟨by simpa using hm, rfl⟩

theorem storeReg_aligned {rd : LowReg} {ea : Word} {w : Width} {s : State} (h : s.misaligned ea w = false) :
    storeReg rd ea w s = .next (s.write ea w (s.reg (low rd))) := by
  simp [storeReg, h]

theorem storeReg_misaligned {rd : LowReg} {ea : Word} {w : Width} {s : State} (h : s.misaligned ea w = true) :
    storeReg rd ea w s = .next (haltedAt (.unsupportedSubOperation .misaligned) s) := by
  simp [storeReg, h, raise_eq]

/-- Only the policy fault makes a misaligned access (R69). -/
theorem misaligned_bytewise {s : State} (h : s.platform.misaligned = .bytewise) (a : Word) (w : Width) : s.misaligned a w = false := by
  simp [State.misaligned, h]

/-- A byte access is never misaligned (R69, R183). -/
@[simp] theorem misaligned_byte (s : State) (a : Word) : s.misaligned a .byte = false := by
  simp [State.misaligned, Width.bytes, Nat.mod_one]

theorem misalignedList_bytewise {s : State} (h : s.platform.misaligned = .bytewise) (n : Nat) (a : Word) :
    s.misalignedList n a = false := by
  simp [State.misalignedList, misaligned_bytewise h]

/-- A transfer of no word is never misaligned (log entry 13). -/
@[simp] theorem misalignedList_zero (s : State) (a : Word) : s.misalignedList 0 a = false := by
  simp [State.misalignedList]

/-- A load from an address the policy allows (R180). -/
theorem misaligned_eq_false_iff {s : State} {a : Word} {w : Width} : s.misaligned a w = false ↔ AccessAllowed s a w.bytes := by
  unfold State.misaligned AccessAllowed
  cases s.platform.misaligned <;> simp

theorem loadReg_next {rd : LowReg} {ea : Word} {w : Width} {e : Extension} {s : State} (h : AccessAllowed s ea w.bytes) :
    ∃ t, loadReg rd ea w e s = .next t ∧ Loaded (low rd) ea w e.apply s t := by
  refine ⟨_, loadReg_aligned (misaligned_eq_false_iff.2 h), State.reg_setReg_self _ _ _, rfl, ?_, rfl, fun _ => rfl, ?_, ⟨rfl, rfl⟩⟩
  · intro _ _ hq
    rw [State.reg_setReg_of_ne _ _ (fun h => hq (List.mem_singleton.2 h)), State.read_reg]
  · exact ⟨by rw [State.reg_setReg_of_ne _ _ (Ne.symm (low_ne_pc rd)), State.read_reg], rfl, rfl, rfl, rfl⟩

theorem storeReg_next {rd : LowReg} {ea : Word} {w : Width} {s : State} (h : AccessAllowed s ea w.bytes) :
    ∃ t, storeReg rd ea w s = .next t ∧ Stored ea w (s.reg (low rd)) s t := by
  refine ⟨_, storeReg_aligned (misaligned_eq_false_iff.2 h), rfl, fun hm => ?_⟩
  exact ⟨fun _ _ _ => rfl, rfl, fun a ha => State.byteAt_write_of_outside hm _ ha, ⟨rfl, rfl, rfl, rfl, rfl⟩, ⟨rfl, rfl⟩⟩

/-! ## Register lists -/

/-- The listed registers are R0 to R7. -/
theorem listedRegs_lt {rlist : BitVec 8} {r : Reg} (h : r ∈ listedRegs rlist) : r.toNat < 8 := by
  have h' := List.mem_of_mem_filter h
  simp only [List.mem_cons, List.not_mem_nil, or_false] at h'
  rcases h' with h | h | h | h | h | h | h | h <;> subst h <;> decide

/-- A register is listed exactly when its bit is set (R113, R214). -/
theorem mem_listedRegs {rlist : BitVec 8} {r : LowReg} : low r ∈ listedRegs rlist ↔ rlist.getLsbD r.toNat = true := by
  unfold listedRegs
  rw [List.mem_filter, low_toNat]
  constructor
  · exact fun h => h.2
  · intro h
    have key : ∀ q : LowReg, low q ∈ ([0, 1, 2, 3, 4, 5, 6, 7] : List Reg) := by decide
    exact ⟨key r, h⟩

theorem listedRegs_ne_pc {rlist : BitVec 8} {r : Reg} (h : r ∈ listedRegs rlist) : r ≠ PC := by
  rintro rfl
  exact absurd (listedRegs_lt h) (by decide)

theorem listedRegs_ne_sp {rlist : BitVec 8} {r : Reg} (h : r ∈ listedRegs rlist) : r ≠ SP := by
  rintro rfl
  exact absurd (listedRegs_lt h) (by decide)

theorem listedRegs_ne_lr {rlist : BitVec 8} {r : Reg} (h : r ∈ listedRegs rlist) : r ≠ LR := by
  rintro rfl
  exact absurd (listedRegs_lt h) (by decide)

/-- No register is transferred twice. -/
theorem listedRegs_nodup (rlist : BitVec 8) : (listedRegs rlist).Nodup := List.Nodup.filter _ (by decide)

theorem listedRegs_length_le (rlist : BitVec 8) : (listedRegs rlist).length ≤ 8 := List.length_filter_le _ _

theorem pushList_length_le (lr : Bool) (rlist : BitVec 8) : (pushList lr rlist).length ≤ 9 := by
  have h := listedRegs_length_le rlist
  unfold pushList
  rw [List.length_append]
  cases lr <;> simp <;> omega

/-! ## Multiple transfers -/

section lists
variable (list : List Reg) (addr : Word) (s : State)

@[simp] theorem storeList_regs : (storeList list addr s).regs = s.regs := by
  induction list generalizing addr s with
  | nil => rfl
  | cons r rest ih => rw [storeList, ih]; rfl

@[simp] theorem storeList_reg (r : Reg) : (storeList list addr s).reg r = s.reg r := by
  simp only [State.reg, storeList_regs]

@[simp] theorem storeList_flags : (storeList list addr s).flags = s.flags := by
  induction list generalizing addr s with
  | nil => rfl
  | cons r rest ih => rw [storeList, ih]; rfl

@[simp] theorem storeList_t : (storeList list addr s).t = s.t := by
  induction list generalizing addr s with
  | nil => rfl
  | cons r rest ih => rw [storeList, ih]; rfl

@[simp] theorem storeList_fetchPtr : (storeList list addr s).fetchPtr = s.fetchPtr := by
  induction list generalizing addr s with
  | nil => rfl
  | cons r rest ih => rw [storeList, ih]; rfl

@[simp] theorem storeList_slot0 : (storeList list addr s).slot0 = s.slot0 := by
  induction list generalizing addr s with
  | nil => rfl
  | cons r rest ih => rw [storeList, ih]; rfl

@[simp] theorem storeList_slot1 : (storeList list addr s).slot1 = s.slot1 := by
  induction list generalizing addr s with
  | nil => rfl
  | cons r rest ih => rw [storeList, ih]; rfl

@[simp] theorem storeList_run : (storeList list addr s).run = s.run := by
  induction list generalizing addr s with
  | nil => rfl
  | cons r rest ih => rw [storeList, ih]; rfl

@[simp] theorem storeList_platform : (storeList list addr s).platform = s.platform := by
  induction list generalizing addr s with
  | nil => rfl
  | cons r rest ih => rw [storeList, ih]; rfl

@[simp] theorem loadList_flags : (loadList list addr s).flags = s.flags := by
  induction list generalizing addr s with
  | nil => rfl
  | cons r rest ih => rw [loadList, ih]; rfl

@[simp] theorem loadList_t : (loadList list addr s).t = s.t := by
  induction list generalizing addr s with
  | nil => rfl
  | cons r rest ih => rw [loadList, ih]; rfl

@[simp] theorem loadList_fetchPtr : (loadList list addr s).fetchPtr = s.fetchPtr := by
  induction list generalizing addr s with
  | nil => rfl
  | cons r rest ih => rw [loadList, ih]; rfl

@[simp] theorem loadList_slot0 : (loadList list addr s).slot0 = s.slot0 := by
  induction list generalizing addr s with
  | nil => rfl
  | cons r rest ih => rw [loadList, ih]; rfl

@[simp] theorem loadList_slot1 : (loadList list addr s).slot1 = s.slot1 := by
  induction list generalizing addr s with
  | nil => rfl
  | cons r rest ih => rw [loadList, ih]; rfl

@[simp] theorem loadList_run : (loadList list addr s).run = s.run := by
  induction list generalizing addr s with
  | nil => rfl
  | cons r rest ih => rw [loadList, ih]; rfl

@[simp] theorem loadList_mem : (loadList list addr s).mem = s.mem := by
  induction list generalizing addr s with
  | nil => rfl
  | cons r rest ih => rw [loadList, ih]; rfl

@[simp] theorem loadList_byteAt (a : Word) : (loadList list addr s).byteAt a = s.byteAt a := by
  simp only [State.byteAt, loadList_mem]

@[simp] theorem loadList_platform : (loadList list addr s).platform = s.platform := by
  induction list generalizing addr s with
  | nil => rfl
  | cons r rest ih => rw [loadList, ih]; rfl

variable {list addr s}

/-- A load list writes no register outside it. -/
theorem loadList_reg_of_not_mem {r : Reg} (h : r ∉ list) : (loadList list addr s).reg r = s.reg r := by
  induction list generalizing addr s with
  | nil => rfl
  | cons q rest ih =>
    rw [List.mem_cons, not_or] at h
    rw [loadList, ih h.2, State.reg_setReg_of_ne _ _ h.1, State.read_reg]

theorem storeList_wf (h : Memory.wf s.mem = true) : Memory.wf (storeList list addr s).mem = true := by
  induction list generalizing addr s with
  | nil => exact h
  | cons r rest ih => exact ih (State.wf_write h _ _ _)

theorem storeList_backed (h : memBacked s.platform s.mem = true) :
    memBacked (storeList list addr s).platform (storeList list addr s).mem = true := by
  induction list generalizing addr s with
  | nil => exact h
  | cons r rest ih => exact ih (State.memBacked_write h _ _ _)

/-- A store list changes no byte outside its words. -/
theorem storeList_byteAt_of_outside (hw : Memory.wf s.mem = true) (hl : 4 * list.length ≤ 2 ^ 32) {b : Word}
    (hb : ¬ InBytes addr (4 * list.length) b) : (storeList list addr s).byteAt b = s.byteAt b := by
  induction list generalizing addr s with
  | nil => rfl
  | cons r rest ih =>
    rw [List.length_cons] at hl hb
    unfold InBytes at hb ih
    rw [storeList, ih (State.wf_write hw _ _ _) (by omega) (by bv_omega)]
    refine State.byteAt_write_of_outside hw _ ?_
    unfold InBytes
    simp only [Width.bytes]
    omega

end lists

/-! ## Transfer lists as 43_address_stack_multiple.md writes them -/

/-- The list of R215 is the model's. -/
theorem ascending_eq (rlist : BitVec 8) : ascending rlist = listedRegs rlist := by
  have h : ∀ r : BitVec 8, ascending r = listedRegs r := by decide +kernel
  exact h rlist

theorem wordsSize_succ (n : Nat) (a : Word) : a + wordsSize (n + 1) = a + 4 + wordsSize n := by
  have h : wordsSize (n + 1) = 4 + wordsSize n := by
    apply BitVec.eq_of_toNat_eq
    have h4 : BitVec.toNat (4 : Word) = 4 := rfl
    simp only [wordsSize, BitVec.toNat_ofNat, BitVec.toNat_add]
    omega
  rw [h, BitVec.add_assoc]

/-- The stores of a list write each register's value before the instruction (R214). -/
theorem storesInOrder_eq (list : List Reg) (addr : Word) (s : State) :
    storesInOrder list addr s = (storeList list addr s, addr + wordsSize list.length) := by
  have key : ∀ (l : List Reg) (a : Word) (u : State), u.regs = s.regs →
      l.foldl (fun (v : State × Word) r => (v.1.write v.2 .word (s.reg r), v.2 + 4)) (u, a) =
        (storeList l a u, a + wordsSize l.length) := by
    intro l
    induction l with
    | nil => intro a u _; simp [storeList, wordsSize]
    | cons r rest ih =>
      intro a u hu
      have hr : s.reg r = u.reg r := by simp only [State.reg, hu]
      rw [List.foldl_cons, hr, ih (a + 4) (u.write a .word (u.reg r)) (by rw [State.write_regs, hu]), List.length_cons, wordsSize_succ]
      rfl
  exact key list addr s rfl

theorem loadsInOrder_eq (list : List Reg) (addr : Word) (s : State) :
    loadsInOrder list addr s = (loadList list addr s, addr + wordsSize list.length) := by
  unfold loadsInOrder
  induction list generalizing addr s with
  | nil => simp [loadList, wordsSize]
  | cons r rest ih =>
    rw [List.foldl_cons]
    refine (ih (addr + 4) ((s.read addr .word).2.setReg r (s.read addr .word).1)).trans ?_
    rw [List.length_cons, wordsSize_succ]
    rfl

/-! ## The invariant -/

section inv
variable {s : State}

/-- Writing a register other than R15. -/
theorem State.Inv.setReg (h : s.Inv) {r : Reg} (hr : r ≠ PC) (x : Word) : (s.setReg r x).Inv where
  memCanonical := h.memCanonical
  memInArrays := h.memInArrays
  pcPair := by rw [State.reg_setReg_of_ne _ _ (Ne.symm hr)]; exact h.pcPair
  fetchEven := h.fetchEven
  thumb := h.thumb
  platformAdmitted := h.platformAdmitted

theorem State.Inv.setFlags (h : s.Inv) (f : Flags) : (s.setFlags f).Inv :=
  ⟨h.memCanonical, h.memInArrays, h.pcPair, h.fetchEven, h.thumb, h.platformAdmitted⟩

theorem State.Inv.read (h : s.Inv) (a : Word) (w : Width) : (s.read a w).2.Inv :=
  ⟨h.memCanonical, h.memInArrays, h.pcPair, h.fetchEven, h.thumb, h.platformAdmitted⟩

theorem State.Inv.write (h : s.Inv) (a : Word) (w : Width) (v : Word) : (s.write a w v).Inv where
  memCanonical := State.wf_write h.memCanonical a w v
  memInArrays := State.memBacked_write h.memInArrays a w v
  pcPair := h.pcPair
  fetchEven := h.fetchEven
  thumb := h.thumb
  platformAdmitted := h.platformAdmitted

theorem State.Inv.haltedAt (h : s.Inv) (cause : FatalCause) : (haltedAt cause s).Inv :=
  ⟨h.memCanonical, h.memInArrays, h.pcPair, h.fetchEven, h.thumb, h.platformAdmitted⟩

/-- Clearing bit 0 gives an even address (R42, R44). -/
theorem even_of_mask (t : Word) : (t &&& 0xFFFFFFFE).getLsbD 0 = false := by simp

/-- BranchTo establishes the fetch unit's part of the invariant from any target (R42, R44). -/
theorem State.Inv.branchTo (h : s.Inv) (t : Word) : (branchTo t s).Inv where
  memCanonical := h.memCanonical
  memInArrays := h.memInArrays
  pcPair := branchTo_reg_pc s t
  fetchEven := even_of_mask t
  thumb := h.thumb
  platformAdmitted := h.platformAdmitted

/-- Adding 2 keeps an address even (R44). -/
theorem even_add_two {a : Word} (h : a.getLsbD 0 = false) : (a + 2).getLsbD 0 = false := by
  have h2 : ∀ x : Word, x.getLsbD 0 = decide (x.toNat % 2 = 1) := fun x => by
    simp [BitVec.getLsbD, Nat.testBit_zero]
  rw [h2, decide_eq_false_iff_not] at *
  bv_omega

theorem State.Inv.advance (h : s.Inv) : (advance s).Inv where
  memCanonical := h.memCanonical
  memInArrays := h.memInArrays
  pcPair := by rw [advance_reg_pc, advance_fetchPtr, BitVec.add_assoc]; rfl
  fetchEven := even_add_two h.fetchEven
  thumb := h.thumb
  platformAdmitted := h.platformAdmitted

theorem State.Inv.storeList (h : s.Inv) (list : List Reg) (addr : Word) : (storeList list addr s).Inv where
  memCanonical := storeList_wf h.memCanonical
  memInArrays := storeList_backed h.memInArrays
  pcPair := by rw [storeList_reg, storeList_fetchPtr]; exact h.pcPair
  fetchEven := by rw [storeList_fetchPtr]; exact h.fetchEven
  thumb := by rw [storeList_t]; exact h.thumb
  platformAdmitted := by rw [storeList_platform]; exact h.platformAdmitted

theorem State.Inv.loadList (h : s.Inv) {list : List Reg} (hl : PC ∉ list) (addr : Word) : (loadList list addr s).Inv where
  memCanonical := by rw [loadList_mem]; exact h.memCanonical
  memInArrays := by rw [loadList_mem, loadList_platform]; exact h.memInArrays
  pcPair := by rw [loadList_reg_of_not_mem hl, loadList_fetchPtr]; exact h.pcPair
  fetchEven := by rw [loadList_fetchPtr]; exact h.fetchEven
  thumb := by rw [loadList_t]; exact h.thumb
  platformAdmitted := by rw [loadList_platform]; exact h.platformAdmitted

end inv

end Sys2Proof.Machine
end

