-- ==== Sys2Proof/Laws/Exec.lean ====
section
/-! SUPPORT. What an instruction can do, said once for all 87: every claim about all instructions follows from these few cases. -/

namespace Sys2Proof.Machine

/-- The flags an instruction left are within its row of the table of 41_data_processing.md R171. -/
def FlagsWithin (i : Instr) (old new : Flags) : Prop :=
  match i.flagEffect with
  | .none => new = old
  | .nz => new.c = old.c ∧ new.v = old.v
  | .nzc => new.v = old.v
  | .nzcv => True

/-- The states an instruction that starts in `s` (after its Advance) can leave. -/
inductive Effect (i : Instr) (s : State) : State → Prop where
  /-- a branch that is not taken -/
  | same : Effect i s s
  /-- a fatal error -/
  | halted (cause : FatalCause) : Effect i s (haltedAt cause s)
  /-- a comparison -/
  | flags (f : Flags) (hf : FlagsWithin i s.flags f) : Effect i s (s.setFlags f)
  /-- a data-processing result -/
  | result (r : Reg) (v : Word) (f : Flags) (hr : r ∈ i.writesRegs) (hpc : r ≠ PC) (hf : FlagsWithin i s.flags f) :
      Effect i s ((s.setReg r v).setFlags f)
  /-- a result that leaves the flags alone -/
  | reg (r : Reg) (v : Word) (hr : r ∈ i.writesRegs) (hpc : r ≠ PC) : Effect i s (s.setReg r v)
  /-- a single load -/
  | load (a : Word) (w : Width) (r : Reg) (v : Word) (hr : r ∈ i.writesRegs) (hpc : r ≠ PC) : Effect i s ((s.read a w).2.setReg r v)
  /-- a single store -/
  | store (a : Word) (w : Width) (v : Word) (hs : i.stores = true) (ha : i.singleAccess s = some (a, w)) (hm : i.multipleAccess s = none) :
      Effect i s (s.write a w v)
  /-- PUSH and STMIA -/
  | storeList (list : List Reg) (base : Word) (r : Reg) (v : Word) (hs : i.stores = true) (hl : list.length ≤ 9)
      (ha : i.singleAccess s = none) (hm : i.multipleAccess s = some (base, list.length)) (hr : r ∈ i.writesRegs) (hpc : r ≠ PC) :
      Effect i s ((storeList list base s).setReg r v)
  /-- LDMIA with its base in the list -/
  | loadList (list : List Reg) (base : Word) (hl : ∀ r ∈ list, r ∈ i.writesRegs ∧ r ≠ PC) : Effect i s (loadList list base s)
  /-- POP without PC, LDMIA with writeback -/
  | loadListBase (list : List Reg) (base : Word) (r : Reg) (v : Word) (hl : ∀ q ∈ list, q ∈ i.writesRegs ∧ q ≠ PC)
      (hr : r ∈ i.writesRegs) (hpc : r ≠ PC) : Effect i s ((loadList list base s).setReg r v)
  /-- a branch without link -/
  | branch (target : Word) (ht : i.mayTransfer s.flags = true) : Effect i s (branchTo target s)
  /-- a branch with link -/
  | link (target : Word) (v : Word) (ht : i.mayTransfer s.flags = true) (hr : LR ∈ i.writesRegs) :
      Effect i s (branchTo target (s.setReg LR v))
  /-- POP with PC -/
  | popPc (list : List Reg) (base top v target : Word) (ht : i.mayTransfer s.flags = true) (hl : ∀ q ∈ list, q ∈ i.writesRegs ∧ q ≠ PC)
      (hr : SP ∈ i.writesRegs) : Effect i s (branchTo target (((Machine.loadList list base s).read top .word).2.setReg SP v))

section arms
variable {i : Instr} {s t : State}

theorem effect_arith {rd : LowReg} {r : Word × Flags} (h : writeArith rd r s = .next t) (hr : low rd ∈ i.writesRegs)
    (hf : i.flagEffect = .nzcv) : Effect i s t := by
  cases h
  exact .result _ _ _ hr (low_ne_pc rd) (by simp [FlagsWithin, hf])

theorem effect_compare {r : Word × Flags} (h : writeCompare r s = .next t) (hf : i.flagEffect = .nzcv) : Effect i s t := by
  cases h
  exact .flags _ (by simp [FlagsWithin, hf])

theorem effect_logical {rd : LowReg} {r : Word} (h : writeLogical rd r s = .next t) (hr : low rd ∈ i.writesRegs)
    (hf : i.flagEffect = .nz) : Effect i s t := by
  cases h
  exact .result _ _ _ hr (low_ne_pc rd) (by simp [FlagsWithin, hf, Machine.setNZ])

theorem effect_shift {rd : LowReg} {r : Word × Bool} (h : writeShift rd r s = .next t) (hr : low rd ∈ i.writesRegs)
    (hf : i.flagEffect = .nzc) : Effect i s t := by
  cases h
  exact .result _ _ _ hr (low_ne_pc rd) (by simp [FlagsWithin, hf, Machine.setNZ])

theorem effect_load {rd : LowReg} {a : Word} {w : Width} {e : Extension} (h : loadReg rd a w e s = .next t)
    (hr : low rd ∈ i.writesRegs) : Effect i s t := by
  rcases loadReg_cases h with ⟨_, rfl⟩ | ⟨_, rfl⟩
  · exact .halted _
  · exact .load _ _ _ _ hr (low_ne_pc rd)

theorem effect_store {rd : LowReg} {a : Word} {w : Width} (h : storeReg rd a w s = .next t) (hs : i.stores = true)
    (ha : i.singleAccess s = some (a, w)) (hm : i.multipleAccess s = none) : Effect i s t := by
  rcases storeReg_cases h with ⟨_, rfl⟩ | ⟨_, rfl⟩
  · exact .halted _
  · exact .store _ _ _ hs ha hm

theorem effect_branchIf {c : Cond} {imm8 : BitVec 8} (h : branchIf c imm8 s = .next t)
    (ht : condHolds c s.flags = true → i.mayTransfer s.flags = true) : Effect i s t := by
  rw [branchIf_eq] at h
  cases h
  split
  · next hc => exact .branch _ (ht hc)
  · exact .same

theorem effect_raise {cause : FatalCause} (h : raise cause s = .next t) : Effect i s t := by
  rw [raise_eq] at h
  cases h
  exact .halted _

theorem effect_writeHi {d : Reg} {v : Word} (h : (Host.Outcome.next (s.writeHi d v) : Outcome) = .next t) (hr : d ≠ PC → d ∈ i.writesRegs)
    (ht : d = PC → i.mayTransfer s.flags = true) : Effect i s t := by
  cases h
  by_cases hd : d = PC
  · subst hd; rw [writeHi_pc]; exact .branch _ (ht rfl)
  · rw [writeHi_of_ne hd]; exact .reg _ _ (hr hd) hd

end arms

/-- Everything an instruction can do. -/
theorem exec_effect {i : Instr} {s t : State} (h : exec i s = .next t) : Effect i s t := by
  cases i with
  | lslImm _ _ _ => exact effect_shift h (List.mem_singleton.2 rfl) rfl
  | lsrImm _ _ _ => exact effect_shift h (List.mem_singleton.2 rfl) rfl
  | asrImm _ _ _ => exact effect_shift h (List.mem_singleton.2 rfl) rfl
  | addReg _ _ _ => exact effect_arith h (List.mem_singleton.2 rfl) rfl
  | subReg _ _ _ => exact effect_arith h (List.mem_singleton.2 rfl) rfl
  | addImm3 _ _ _ => exact effect_arith h (List.mem_singleton.2 rfl) rfl
  | subImm3 _ _ _ => exact effect_arith h (List.mem_singleton.2 rfl) rfl
  | movImm8 _ _ => exact effect_logical h (List.mem_singleton.2 rfl) rfl
  | cmpImm8 _ _ => exact effect_compare h rfl
  | addImm8 _ _ => exact effect_arith h (List.mem_singleton.2 rfl) rfl
  | subImm8 _ _ => exact effect_arith h (List.mem_singleton.2 rfl) rfl
  | and _ _ => exact effect_logical h (List.mem_singleton.2 rfl) rfl
  | eor _ _ => exact effect_logical h (List.mem_singleton.2 rfl) rfl
  | lslReg _ _ => exact effect_shift h (List.mem_singleton.2 rfl) rfl
  | lsrReg _ _ => exact effect_shift h (List.mem_singleton.2 rfl) rfl
  | asrReg _ _ => exact effect_shift h (List.mem_singleton.2 rfl) rfl
  | adc _ _ => exact effect_arith h (List.mem_singleton.2 rfl) rfl
  | sbc _ _ => exact effect_arith h (List.mem_singleton.2 rfl) rfl
  | ror _ _ => exact effect_shift h (List.mem_singleton.2 rfl) rfl
  | tst _ _ => cases h; exact .flags _ ⟨rfl, rfl⟩
  | neg _ _ => exact effect_arith h (List.mem_singleton.2 rfl) rfl
  | cmpReg _ _ => exact effect_compare h rfl
  | cmn _ _ => exact effect_compare h rfl
  | orr _ _ => exact effect_logical h (List.mem_singleton.2 rfl) rfl
  | mul _ _ => exact effect_logical h (List.mem_singleton.2 rfl) rfl
  | bic _ _ => exact effect_logical h (List.mem_singleton.2 rfl) rfl
  | mvn _ _ => exact effect_logical h (List.mem_singleton.2 rfl) rfl
  | addHi _ _ => exact effect_writeHi h (fun _ => List.mem_singleton.2 rfl) (fun hd => by subst hd; rfl)
  | cmpHi _ _ => exact effect_compare h rfl
  | movHi _ _ => exact effect_writeHi h (fun _ => List.mem_singleton.2 rfl) (fun hd => by subst hd; rfl)
  | bx m _ =>
    simp only [exec, execBx] at h
    split at h
    · cases h; exact .branch _ rfl
    · exact effect_raise h
  | blx m _ =>
    simp only [exec, execBlx] at h
    split at h
    · cases h; exact .link _ _ rfl (List.mem_singleton.2 rfl)
    · exact effect_raise h
  | ldrPc _ _ => exact effect_load h (List.mem_singleton.2 rfl)
  | strReg _ _ _ => exact effect_store h rfl rfl rfl
  | strbReg _ _ _ => exact effect_store h rfl rfl rfl
  | ldrReg _ _ _ => exact effect_load h (List.mem_singleton.2 rfl)
  | ldrbReg _ _ _ => exact effect_load h (List.mem_singleton.2 rfl)
  | strhReg _ _ _ => exact effect_store h rfl rfl rfl
  | ldrhReg _ _ _ => exact effect_load h (List.mem_singleton.2 rfl)
  | ldsb _ _ _ => exact effect_load h (List.mem_singleton.2 rfl)
  | ldsh _ _ _ => exact effect_load h (List.mem_singleton.2 rfl)
  | strImm _ _ _ => exact effect_store h rfl rfl rfl
  | ldrImm _ _ _ => exact effect_load h (List.mem_singleton.2 rfl)
  | strbImm _ _ _ => exact effect_store h rfl rfl rfl
  | ldrbImm _ _ _ => exact effect_load h (List.mem_singleton.2 rfl)
  | strhImm _ _ _ => exact effect_store h rfl rfl rfl
  | ldrhImm _ _ _ => exact effect_load h (List.mem_singleton.2 rfl)
  | strSp _ _ => exact effect_store h rfl rfl rfl
  | ldrSp _ _ => exact effect_load h (List.mem_singleton.2 rfl)
  | addPc _ _ => cases h; exact .reg _ _ (List.mem_singleton.2 rfl) (low_ne_pc _)
  | addRdSp _ _ => cases h; exact .reg _ _ (List.mem_singleton.2 rfl) (low_ne_pc _)
  | addSp _ => cases h; exact .reg _ _ (List.mem_singleton.2 rfl) (by decide)
  | subSp _ => cases h; exact .reg _ _ (List.mem_singleton.2 rfl) (by decide)
  | push lr rlist =>
    simp only [exec, execPush] at h
    split at h
    · exact effect_raise h
    · cases h
      exact .storeList _ _ _ _ rfl (pushList_length_le lr rlist) rfl rfl (List.mem_singleton.2 rfl) (by decide)
  | pop pc rlist =>
    simp only [exec, execPop] at h
    have hl : ∀ q ∈ listedRegs rlist, q ∈ (Instr.pop pc rlist).writesRegs ∧ q ≠ PC :=
      fun q hq => ⟨List.mem_cons_of_mem _ hq, listedRegs_ne_pc hq⟩
    split at h
    · exact effect_raise h
    · cases h
      cases pc
      · exact .loadListBase _ _ _ _ hl List.mem_cons_self (by decide)
      · exact .popPc _ _ _ _ _ rfl hl List.mem_cons_self
  | stmia rb rlist =>
    simp only [exec, execStmia] at h
    split at h
    · exact effect_raise h
    · cases h
      exact .storeList _ _ _ _ rfl (Nat.le_succ_of_le (listedRegs_length_le rlist)) rfl rfl (List.mem_singleton.2 rfl) (low_ne_pc _)
  | ldmia rb rlist =>
    simp only [exec, execLdmia] at h
    have hl : ∀ q ∈ listedRegs rlist, q ∈ (Instr.ldmia rb rlist).writesRegs ∧ q ≠ PC :=
      fun q hq => ⟨List.mem_cons_of_mem _ hq, listedRegs_ne_pc hq⟩
    split at h
    · exact effect_raise h
    · cases h
      split
      · exact .loadList _ _ hl
      · exact .loadListBase _ _ _ _ hl List.mem_cons_self (low_ne_pc _)
  | beq _ => exact effect_branchIf h (fun hc => by simpa [Instr.mayTransfer, Instr.condition, condHolds] using hc)
  | bne _ => exact effect_branchIf h (fun hc => by simpa [Instr.mayTransfer, Instr.condition, condHolds] using hc)
  | bcs _ => exact effect_branchIf h (fun hc => by simpa [Instr.mayTransfer, Instr.condition, condHolds] using hc)
  | bcc _ => exact effect_branchIf h (fun hc => by simpa [Instr.mayTransfer, Instr.condition, condHolds] using hc)
  | bmi _ => exact effect_branchIf h (fun hc => by simpa [Instr.mayTransfer, Instr.condition, condHolds] using hc)
  | bpl _ => exact effect_branchIf h (fun hc => by simpa [Instr.mayTransfer, Instr.condition, condHolds] using hc)
  | bvs _ => exact effect_branchIf h (fun hc => by simpa [Instr.mayTransfer, Instr.condition, condHolds] using hc)
  | bvc _ => exact effect_branchIf h (fun hc => by simpa [Instr.mayTransfer, Instr.condition, condHolds] using hc)
  | bhi _ => exact effect_branchIf h (fun hc => by simpa [Instr.mayTransfer, Instr.condition, condHolds] using hc)
  | bls _ => exact effect_branchIf h (fun hc => by simpa [Instr.mayTransfer, Instr.condition, condHolds] using hc)
  | bge _ => exact effect_branchIf h (fun hc => by simpa [Instr.mayTransfer, Instr.condition, condHolds] using hc)
  | blt _ => exact effect_branchIf h (fun hc => by simpa [Instr.mayTransfer, Instr.condition, condHolds] using hc)
  | bgt _ => exact effect_branchIf h (fun hc => by simpa [Instr.mayTransfer, Instr.condition, condHolds] using hc)
  | ble _ => exact effect_branchIf h (fun hc => by simpa [Instr.mayTransfer, Instr.condition, condHolds] using hc)
  | bUndefined _ => exact effect_raise h
  | svc _ => exact effect_raise h
  | b _ => cases h; exact .branch _ rfl
  | bl _ _ _ _ _ => cases h; exact .link _ _ rfl (List.mem_singleton.2 rfl)
  | nop => exact effect_raise h
  | yield => exact effect_raise h
  | wfe => exact effect_raise h
  | wfi => exact effect_raise h
  | sev => exact effect_raise h
  | hint _ => exact effect_raise h
  | cpsie _ => exact effect_raise h
  | cpsid _ => exact effect_raise h
  | bkpt _ => exact effect_raise h
  | dsb _ => exact effect_raise h
  | dmb _ => exact effect_raise h
  | isb _ => exact effect_raise h

end Sys2Proof.Machine
end

