-- ==== Sys2Proof/Laws/PerInstr.lean ====
section
/-! SUPPORT. The per-instruction family Length (30_encoding.md R90, R91): one lemma per constructor of Instr. -/

namespace Sys2Proof.Laws.Length

/-- The encoder gives two halfwords to BL and the barriers and one to every other instruction. -/
def Statement (i : Instr) : Prop := (encode i).length = if i.isLong then 2 else 1

theorem lslImm (imm5 : BitVec 5) (rs rd : LowReg) : Statement (.lslImm imm5 rs rd) := rfl
theorem lsrImm (imm5 : BitVec 5) (rs rd : LowReg) : Statement (.lsrImm imm5 rs rd) := rfl
theorem asrImm (imm5 : BitVec 5) (rs rd : LowReg) : Statement (.asrImm imm5 rs rd) := rfl
theorem addReg (rn rs rd : LowReg) : Statement (.addReg rn rs rd) := rfl
theorem subReg (rn rs rd : LowReg) : Statement (.subReg rn rs rd) := rfl
theorem addImm3 (imm3 : BitVec 3) (rs rd : LowReg) : Statement (.addImm3 imm3 rs rd) := rfl
theorem subImm3 (imm3 : BitVec 3) (rs rd : LowReg) : Statement (.subImm3 imm3 rs rd) := rfl
theorem movImm8 (rd : LowReg) (imm8 : BitVec 8) : Statement (.movImm8 rd imm8) := rfl
theorem cmpImm8 (rd : LowReg) (imm8 : BitVec 8) : Statement (.cmpImm8 rd imm8) := rfl
theorem addImm8 (rd : LowReg) (imm8 : BitVec 8) : Statement (.addImm8 rd imm8) := rfl
theorem subImm8 (rd : LowReg) (imm8 : BitVec 8) : Statement (.subImm8 rd imm8) := rfl
theorem and (rs rd : LowReg) : Statement (.and rs rd) := rfl
theorem eor (rs rd : LowReg) : Statement (.eor rs rd) := rfl
theorem lslReg (rs rd : LowReg) : Statement (.lslReg rs rd) := rfl
theorem lsrReg (rs rd : LowReg) : Statement (.lsrReg rs rd) := rfl
theorem asrReg (rs rd : LowReg) : Statement (.asrReg rs rd) := rfl
theorem adc (rs rd : LowReg) : Statement (.adc rs rd) := rfl
theorem sbc (rs rd : LowReg) : Statement (.sbc rs rd) := rfl
theorem ror (rs rd : LowReg) : Statement (.ror rs rd) := rfl
theorem tst (rs rd : LowReg) : Statement (.tst rs rd) := rfl
theorem neg (rs rd : LowReg) : Statement (.neg rs rd) := rfl
theorem cmpReg (rs rd : LowReg) : Statement (.cmpReg rs rd) := rfl
theorem cmn (rs rd : LowReg) : Statement (.cmn rs rd) := rfl
theorem orr (rs rd : LowReg) : Statement (.orr rs rd) := rfl
theorem mul (rs rd : LowReg) : Statement (.mul rs rd) := rfl
theorem bic (rs rd : LowReg) : Statement (.bic rs rd) := rfl
theorem mvn (rs rd : LowReg) : Statement (.mvn rs rd) := rfl
theorem addHi (m d : Reg) : Statement (.addHi m d) := rfl
theorem cmpHi (m d : Reg) : Statement (.cmpHi m d) := rfl
theorem movHi (m d : Reg) : Statement (.movHi m d) := rfl
theorem bx (m : Reg) (sbz : BitVec 3) : Statement (.bx m sbz) := rfl
theorem blx (m : Reg) (sbz : BitVec 3) : Statement (.blx m sbz) := rfl
theorem ldrPc (rd : LowReg) (imm8 : BitVec 8) : Statement (.ldrPc rd imm8) := rfl
theorem strReg (ro rb rd : LowReg) : Statement (.strReg ro rb rd) := rfl
theorem strbReg (ro rb rd : LowReg) : Statement (.strbReg ro rb rd) := rfl
theorem ldrReg (ro rb rd : LowReg) : Statement (.ldrReg ro rb rd) := rfl
theorem ldrbReg (ro rb rd : LowReg) : Statement (.ldrbReg ro rb rd) := rfl
theorem strhReg (ro rb rd : LowReg) : Statement (.strhReg ro rb rd) := rfl
theorem ldrhReg (ro rb rd : LowReg) : Statement (.ldrhReg ro rb rd) := rfl
theorem ldsb (ro rb rd : LowReg) : Statement (.ldsb ro rb rd) := rfl
theorem ldsh (ro rb rd : LowReg) : Statement (.ldsh ro rb rd) := rfl
theorem strImm (imm5 : BitVec 5) (rb rd : LowReg) : Statement (.strImm imm5 rb rd) := rfl
theorem ldrImm (imm5 : BitVec 5) (rb rd : LowReg) : Statement (.ldrImm imm5 rb rd) := rfl
theorem strbImm (imm5 : BitVec 5) (rb rd : LowReg) : Statement (.strbImm imm5 rb rd) := rfl
theorem ldrbImm (imm5 : BitVec 5) (rb rd : LowReg) : Statement (.ldrbImm imm5 rb rd) := rfl
theorem strhImm (imm5 : BitVec 5) (rb rd : LowReg) : Statement (.strhImm imm5 rb rd) := rfl
theorem ldrhImm (imm5 : BitVec 5) (rb rd : LowReg) : Statement (.ldrhImm imm5 rb rd) := rfl
theorem strSp (rd : LowReg) (imm8 : BitVec 8) : Statement (.strSp rd imm8) := rfl
theorem ldrSp (rd : LowReg) (imm8 : BitVec 8) : Statement (.ldrSp rd imm8) := rfl
theorem addPc (rd : LowReg) (imm8 : BitVec 8) : Statement (.addPc rd imm8) := rfl
theorem addRdSp (rd : LowReg) (imm8 : BitVec 8) : Statement (.addRdSp rd imm8) := rfl
theorem addSp (imm7 : BitVec 7) : Statement (.addSp imm7) := rfl
theorem subSp (imm7 : BitVec 7) : Statement (.subSp imm7) := rfl
theorem push (lr : Bool) (rlist : BitVec 8) : Statement (.push lr rlist) := rfl
theorem pop (pc : Bool) (rlist : BitVec 8) : Statement (.pop pc rlist) := rfl
theorem stmia (rb : LowReg) (rlist : BitVec 8) : Statement (.stmia rb rlist) := rfl
theorem ldmia (rb : LowReg) (rlist : BitVec 8) : Statement (.ldmia rb rlist) := rfl
theorem beq (imm8 : BitVec 8) : Statement (.beq imm8) := rfl
theorem bne (imm8 : BitVec 8) : Statement (.bne imm8) := rfl
theorem bcs (imm8 : BitVec 8) : Statement (.bcs imm8) := rfl
theorem bcc (imm8 : BitVec 8) : Statement (.bcc imm8) := rfl
theorem bmi (imm8 : BitVec 8) : Statement (.bmi imm8) := rfl
theorem bpl (imm8 : BitVec 8) : Statement (.bpl imm8) := rfl
theorem bvs (imm8 : BitVec 8) : Statement (.bvs imm8) := rfl
theorem bvc (imm8 : BitVec 8) : Statement (.bvc imm8) := rfl
theorem bhi (imm8 : BitVec 8) : Statement (.bhi imm8) := rfl
theorem bls (imm8 : BitVec 8) : Statement (.bls imm8) := rfl
theorem bge (imm8 : BitVec 8) : Statement (.bge imm8) := rfl
theorem blt (imm8 : BitVec 8) : Statement (.blt imm8) := rfl
theorem bgt (imm8 : BitVec 8) : Statement (.bgt imm8) := rfl
theorem ble (imm8 : BitVec 8) : Statement (.ble imm8) := rfl
theorem bUndefined (imm8 : BitVec 8) : Statement (.bUndefined imm8) := rfl
theorem svc (imm8 : BitVec 8) : Statement (.svc imm8) := rfl
theorem b (imm11 : BitVec 11) : Statement (.b imm11) := rfl
theorem bl (s : BitVec 1) (imm10 : BitVec 10) (j1 j2 : BitVec 1) (imm11 : BitVec 11) : Statement (.bl s imm10 j1 j2 imm11) := rfl
theorem nop : Statement (.nop) := rfl
theorem yield : Statement (.yield) := rfl
theorem wfe : Statement (.wfe) := rfl
theorem wfi : Statement (.wfi) := rfl
theorem sev : Statement (.sev) := rfl
theorem hint (op : BitVec 4) : Statement (.hint op) := rfl
theorem cpsie (low : BitVec 4) : Statement (.cpsie low) := rfl
theorem cpsid (low : BitVec 4) : Statement (.cpsid low) := rfl
theorem bkpt (imm8 : BitVec 8) : Statement (.bkpt imm8) := rfl
theorem dsb (option : BitVec 4) : Statement (.dsb option) := rfl
theorem dmb (option : BitVec 4) : Statement (.dmb option) := rfl
theorem isb (option : BitVec 4) : Statement (.isb option) := rfl

end Sys2Proof.Laws.Length
end

