-- ==== Sys2Proof/Laws/Storage.lean ====
section
/-! SUPPORT. Accesses that stay inside the arrays: what a read gives in terms of the bytes, and that loads read back what stores wrote
(20_memory.md R63, R67, R72). -/

namespace Sys2Proof.Machine

/-! ## Reads of the arrays -/

theorem readContained_byte_storage {pf : Platform} {a : Word} (h : isStorage pf a = true) (mem : List Host.Cell)
    (log : List PeripheralAccess) : readContained pf mem log a .byte = ((Memory.get mem a.toNat).setWidth 32, log) := by
  unfold readContained
  rcases (isStorage_iff _ _).1 h with h | h <;> simp [h, storedValue, Width.bytes]

/-- Single-byte reads of array bytes assemble the stored value. -/
theorem readBytes_storage {pf : Platform} {n : Nat} (hn : n ≤ 2 ^ 32) {a : Word} (h : InStorage pf a n) (mem : List Host.Cell)
    (log : List PeripheralAccess) : readBytes pf mem n log a = (storedValue mem n a, log) := by
  induction n generalizing a with
  | zero => rfl
  | succ n ih =>
    have h0 := readContained_byte_storage (h a ((inBytes_succ hn).2 (.inl rfl))) mem log
    have hr := ih (a := a + 1) (by omega) (fun b hb => h b ((inBytes_succ hn).2 (.inr hb)))
    simp only [readBytes, h0, hr]
    rfl

/-- A read whose bytes all lie in the arrays gives the value stored there and leaves no trace, contained or not. -/
theorem State.read_inStorage {s : State} {a : Word} {w : Width} (h : InStorage s.platform a w.bytes) :
    s.read a w = (storedValue s.mem w.bytes a, s) := by
  by_cases hc : contained s.platform a w = true
  · refine State.read_storage hc (h a ?_)
    unfold InBytes
    cases w <;> simp [Width.bytes]
  · unfold State.read busRead
    rw [if_neg hc, readBytes_storage (width_bytes_le w) h]

/-! ## Values and bytes -/

theorem add_ofNat_zero (a : Word) : a + BitVec.ofNat 32 0 = a := by simp

theorem State.littleEndian_lt (s : State) (n : Nat) (a : Word) : s.littleEndian n a < 256 ^ n := by
  induction n generalizing a with
  | zero => simp [State.littleEndian]
  | succ n ih =>
    have h1 := ih (a + 1)
    have h2 := (s.byteAt a).isLt
    rw [State.littleEndian, Nat.pow_succ]
    omega

/-- The stored value is the little-endian number of its bytes (R63). -/
theorem State.storedValue_eq (s : State) {n : Nat} (hn : n ≤ 4) (a : Word) :
    storedValue s.mem n a = BitVec.ofNat 32 (s.littleEndian n a) := by
  induction n generalizing a with
  | zero => rfl
  | succ n ih =>
    have hb := (Memory.get s.mem a.toNat).isLt
    have hl := s.littleEndian_lt n (a + 1)
    have hp : 256 ^ n ≤ 256 ^ 3 := Nat.pow_le_pow_right (by decide) (by omega)
    rw [storedValue, ih (by omega), State.littleEndian, State.byteAt]
    apply BitVec.eq_of_toNat_eq
    rw [BitVec.toNat_or, BitVec.toNat_shiftLeft, BitVec.toNat_setWidth, BitVec.toNat_ofNat, BitVec.toNat_ofNat, Nat.shiftLeft_eq,
      Nat.mod_eq_of_lt (by omega), Nat.mod_eq_of_lt (by omega), Nat.mod_eq_of_lt (by omega), Nat.mod_eq_of_lt (by omega), Nat.or_comm,
      Nat.mul_comm, ← Nat.two_pow_add_eq_or_of_lt hb]
    omega

/-- If the bytes from `a` on are the bytes of a value from its byte `j` on, they spell that part of it. -/
theorem State.littleEndian_of_bytes {s : State} {n : Nat} {a v : Word} {j : Nat}
    (h : ∀ k < n, s.byteAt (a + BitVec.ofNat 32 k) = byteOf v (j + k)) :
    s.littleEndian n a = v.toNat / 256 ^ j % 256 ^ n := by
  induction n generalizing a j with
  | zero => simp [State.littleEndian, Nat.mod_one]
  | succ n ih =>
    have h0 := h 0 (by omega)
    have hr := ih (a := a + 1) (j := j + 1) (fun k hk => by
      have h' := h (k + 1) (by omega)
      have e : a + BitVec.ofNat 32 (k + 1) = a + 1 + BitVec.ofNat 32 k := by
        rw [BitVec.add_assoc, Nat.add_comm, BitVec.ofNat_add]
        rfl
      rw [e] at h'
      rw [h', Nat.add_assoc, Nat.add_comm 1 k])
    have hb : (s.byteAt a).toNat = v.toNat / 256 ^ j % 256 := by
      rw [add_ofNat_zero] at h0
      rw [h0, byteOf, BitVec.toNat_setWidth, BitVec.toNat_ushiftRight, Nat.shiftRight_eq_div_pow, Nat.pow_mul]
      rfl
    rw [State.littleEndian, hr, hb, Nat.pow_succ, Nat.pow_succ, ← Nat.div_div_eq_div_mul, Nat.mul_comm (256 ^ n) 256, Nat.mod_mul]

/-- After a write to array bytes, the bytes of any part of it spell that part of the value (R72). -/
theorem State.littleEndian_write {s : State} (hm : Memory.wf s.mem = true) {a : Word} {w : Width}
    (h : InStorage s.platform a w.bytes) (v : Word) {j n : Nat} (hj : j + n ≤ w.bytes) :
    (s.write a w v).littleEndian n (a + BitVec.ofNat 32 j) = v.toNat / 256 ^ j % 256 ^ n := by
  refine State.littleEndian_of_bytes (fun k hk => ?_)
  have hw : w.bytes ≤ 4 := by cases w <;> decide
  have hlt : j + k < w.bytes := by omega
  have e : a + BitVec.ofNat 32 j + BitVec.ofNat 32 k - a = BitVec.ofNat 32 (j + k) := by
    rw [BitVec.ofNat_add]
    bv_omega
  have en : (a + BitVec.ofNat 32 j + BitVec.ofNat 32 k - a).toNat = j + k := by
    rw [e, BitVec.toNat_ofNat]
    omega
  rw [State.byteAt_write hm, en, if_pos ⟨hlt, h _ (by unfold InBytes; omega)⟩]

/-! ## Lists of words -/

/-- The n words stored from `a` on. -/
def storedWords (mem : List Host.Cell) : Nat → Word → List Word
  | 0, _ => []
  | n + 1, a => storedValue mem 4 a :: storedWords mem n (a + 4)

theorem inStorage_mono {pf : Platform} {a : Word} {m n : Nat} (h : InStorage pf a n) (hm : m ≤ n) : InStorage pf a m :=
  fun b hb => h b (Nat.lt_of_lt_of_le hb hm)

theorem inStorage_tail {pf : Platform} {a : Word} {n : Nat} (_hn : 4 * (n + 1) ≤ 2 ^ 32) (h : InStorage pf a (4 * (n + 1))) :
    InStorage pf (a + 4) (4 * n) := by
  intro b hb
  refine h b ?_
  unfold InBytes at *
  bv_omega

/-- Loading a list of different registers from array bytes gives them the stored words in order, and leaves no trace. -/
theorem loadList_words {list : List Reg} (hd : list.Nodup) {a : Word} {s : State} (hn : 4 * list.length ≤ 2 ^ 32)
    (h : InStorage s.platform a (4 * list.length)) :
    list.map (loadList list a s).reg = storedWords s.mem list.length a ∧ (loadList list a s).peripheralLog = s.peripheralLog := by
  induction list generalizing a s with
  | nil => exact ⟨rfl, rfl⟩
  | cons r rest ih =>
    rw [List.length_cons] at hn h
    have hr : s.read a .word = (storedValue s.mem 4 a, s) :=
      State.read_inStorage (w := .word) (inStorage_mono h (by simp only [Width.bytes]; omega))
    have hd' := List.nodup_cons.1 hd
    have ih' := ih hd'.2 (a := a + 4) (s := s.setReg r (storedValue s.mem 4 a)) (by omega) (inStorage_tail hn h)
    simp only [loadList, hr, List.map_cons, List.length_cons, storedWords]
    refine ⟨?_, ih'.2⟩
    rw [ih'.1, loadList_reg_of_not_mem hd'.1, State.reg_setReg_self]
    rfl

/-- The words a list of registers was stored to read back as those registers. -/
theorem storeList_words {list : List Reg} {a : Word} {s : State} (hm : Memory.wf s.mem = true) (hn : 4 * list.length ≤ 2 ^ 32)
    (h : InStorage s.platform a (4 * list.length)) : storedWords (storeList list a s).mem list.length a = list.map s.reg := by
  induction list generalizing a s with
  | nil => rfl
  | cons r rest ih =>
    rw [List.length_cons] at hn h
    have hmw := State.wf_write hm a .word (s.reg r)
    have ih' := ih (a := a + 4) (s := s.write a .word (s.reg r)) hmw (by omega) (inStorage_tail hn h)
    simp only [storeList, List.length_cons, storedWords, List.map_cons]
    rw [ih', State.storedValue_eq _ (Nat.le_refl 4)]
    have hbytes : (storeList rest (a + 4) (s.write a .word (s.reg r))).littleEndian 4 a =
        (s.write a .word (s.reg r)).littleEndian 4 a := by
      have key : ∀ n k, k + n = 4 → (storeList rest (a + 4) (s.write a .word (s.reg r))).littleEndian n (a + BitVec.ofNat 32 k) =
          (s.write a .word (s.reg r)).littleEndian n (a + BitVec.ofNat 32 k) := by
        intro n
        induction n with
        | zero => intro _ _; rfl
        | succ n ihn =>
          intro k hk
          have e : a + BitVec.ofNat 32 k + 1 = a + BitVec.ofNat 32 (k + 1) := by
            rw [BitVec.add_assoc, BitVec.ofNat_add]
            rfl
          rw [State.littleEndian, State.littleEndian, e, ihn (k + 1) (by omega),
            storeList_byteAt_of_outside hmw (by omega) (by unfold InBytes; bv_omega)]
      have h0 := key 4 0 rfl
      rwa [add_ofNat_zero] at h0
    have hst : InStorage s.platform a (Width.word).bytes := inStorage_mono h (by simp only [Width.bytes]; omega)
    have hv := State.littleEndian_write hm hst (s.reg r) (j := 0) (n := 4) (by decide)
    rw [add_ofNat_zero, Nat.pow_zero, Nat.div_one] at hv
    rw [hbytes, hv]
    have hlt := (s.reg r).isLt
    rw [Nat.mod_eq_of_lt (by omega), BitVec.ofNat_toNat]
    simp only [BitVec.setWidth_eq]
    rfl

/-- The stored words depend on their bytes alone. -/
theorem storedWords_congr {s u : State} {n : Nat} {a : Word} (hn : 4 * n ≤ 2 ^ 32)
    (h : ∀ b, InBytes a (4 * n) b → u.byteAt b = s.byteAt b) : storedWords u.mem n a = storedWords s.mem n a := by
  induction n generalizing a with
  | zero => rfl
  | succ n ih =>
    have hw : storedValue u.mem 4 a = storedValue s.mem 4 a := by
      rw [State.storedValue_eq u (Nat.le_refl 4), State.storedValue_eq s (Nat.le_refl 4)]
      have h0 := h a (by unfold InBytes; simp)
      have h1 := h (a + 1) (by unfold InBytes; bv_omega)
      have h2 := h (a + 1 + 1) (by unfold InBytes; bv_omega)
      have h3 := h (a + 1 + 1 + 1) (by unfold InBytes; bv_omega)
      simp only [State.littleEndian, h0, h1, h2, h3]
    rw [storedWords, storedWords, hw, ih (a := a + 4) (by omega) (fun b hb => h b (by unfold InBytes at *; bv_omega))]

end Sys2Proof.Machine
end

