-- ==== Sys2Proof/Tests/Slice0.lean ====
section
/-! SUPPORT. The model's own tests: the well-formedness smoke test, decoding of words written out from the spec's encodings, one-step tests whose
expected values are the vectors of 95_test_vectors.md and the examples of the rules, and a witness for the hypotheses of every statement. -/

namespace Sys2Proof.Tests

open Sys2Proof Sys2Proof.Machine

/-! ## Well-formedness smoke test: the one check, with a term it refuses -/

theorem test_wf_refuses_named_hints : [0, 1, 2, 3, 4].all (fun op => !(Instr.hint op).wf) = true := by decide

theorem test_wf_admits_other_hints : (Instr.hint 5).wf = true ∧ (Instr.hint 15).wf = true ∧ (Instr.nop).wf = true := by decide

/-! ## Decoding, every constructor: words from 30_encoding.md R92 to R112 -/

/-- Format 1 (R92): `000 op imm5 Rs Rd`. -/
theorem test_decode_format1 :
    decodeTableWord 16 0b0000000001001000 = some (.lslImm 1 1 0) ∧
    decodeTableWord 16 0b0000100001001000 = some (.lsrImm 1 1 0) ∧
    decodeTableWord 16 0b0001000010001000 = some (.asrImm 2 1 0) := by decide

/-- Format 2 (R93): `00011 I op Rn_or_imm3 Rs Rd`. -/
theorem test_decode_format2 :
    decodeTableWord 16 0b0001100001000000 = some (.addReg 1 0 0) ∧
    decodeTableWord 16 0b0001101010001000 = some (.subReg 2 1 0) ∧
    decodeTableWord 16 0b0001110111001000 = some (.addImm3 7 1 0) ∧
    decodeTableWord 16 0b0001111001001000 = some (.subImm3 1 1 0) := by decide

/-- Format 3 (R94): `001 op Rd imm8`. -/
theorem test_decode_format3 :
    decodeTableWord 16 0b0010000000001100 = some (.movImm8 0 12) ∧
    decodeTableWord 16 0b0010100000000101 = some (.cmpImm8 0 5) ∧
    decodeTableWord 16 0b0011000011111111 = some (.addImm8 0 255) ∧
    decodeTableWord 16 0b0011111100000001 = some (.subImm8 7 1) := by decide

/-- Format 4 (R95): `010000 op Rs Rd`. -/
theorem test_decode_format4 :
    decodeTableWord 16 0b0100000000001000 = some (.and 1 0) ∧
    decodeTableWord 16 0b0100000001001000 = some (.eor 1 0) ∧
    decodeTableWord 16 0b0100000010001000 = some (.lslReg 1 0) ∧
    decodeTableWord 16 0b0100000011001000 = some (.lsrReg 1 0) ∧
    decodeTableWord 16 0b0100000100001000 = some (.asrReg 1 0) ∧
    decodeTableWord 16 0b0100000101001000 = some (.adc 1 0) ∧
    decodeTableWord 16 0b0100000110001000 = some (.sbc 1 0) ∧
    decodeTableWord 16 0b0100000111001000 = some (.ror 1 0) ∧
    decodeTableWord 16 0b0100001000001000 = some (.tst 1 0) ∧
    decodeTableWord 16 0b0100001001001000 = some (.neg 1 0) ∧
    decodeTableWord 16 0b0100001010001000 = some (.cmpReg 1 0) ∧
    decodeTableWord 16 0b0100001011001000 = some (.cmn 1 0) ∧
    decodeTableWord 16 0b0100001100001000 = some (.orr 1 0) ∧
    decodeTableWord 16 0b0100001101001000 = some (.mul 1 0) ∧
    decodeTableWord 16 0b0100001110001000 = some (.bic 1 0) ∧
    decodeTableWord 16 0b0100001111001000 = some (.mvn 1 0) := by decide

/-- Format 5 (R96): `010001 op H1 H2 Rs Rd`, with R118's ignored bits. -/
theorem test_decode_format5 :
    decodeTableWord 16 0b0100010010001000 = some (.addHi 1 8) ∧
    decodeTableWord 16 0b0100010111001000 = some (.cmpHi 9 8) ∧
    decodeTableWord 16 0b0100011011110111 = some (.movHi 14 15) ∧
    decodeTableWord 16 0b0100011100001000 = some (.bx 1 0) ∧
    decodeTableWord 16 0b0100011110010101 = some (.blx 2 5) := by decide

/-- Formats 6, 7 and 8 (R97 to R99). -/
theorem test_decode_formats6to8 :
    decodeTableWord 16 0b0100100000000010 = some (.ldrPc 0 2) ∧
    decodeTableWord 16 0b0101000010001000 = some (.strReg 2 1 0) ∧
    decodeTableWord 16 0b0101010010001000 = some (.strbReg 2 1 0) ∧
    decodeTableWord 16 0b0101100010001000 = some (.ldrReg 2 1 0) ∧
    decodeTableWord 16 0b0101110010001000 = some (.ldrbReg 2 1 0) ∧
    decodeTableWord 16 0b0101001010001000 = some (.strhReg 2 1 0) ∧
    decodeTableWord 16 0b0101101010001000 = some (.ldrhReg 2 1 0) ∧
    decodeTableWord 16 0b0101011010001000 = some (.ldsb 2 1 0) ∧
    decodeTableWord 16 0b0101111010001000 = some (.ldsh 2 1 0) := by decide

/-- Formats 9, 10 and 11 (R100 to R102). -/
theorem test_decode_formats9to11 :
    decodeTableWord 16 0b0110000001001000 = some (.strImm 1 1 0) ∧
    decodeTableWord 16 0b0110100001001000 = some (.ldrImm 1 1 0) ∧
    decodeTableWord 16 0b0111000101001000 = some (.strbImm 5 1 0) ∧
    decodeTableWord 16 0b0111100101001000 = some (.ldrbImm 5 1 0) ∧
    decodeTableWord 16 0b1000000001001000 = some (.strhImm 1 1 0) ∧
    decodeTableWord 16 0b1000100001001000 = some (.ldrhImm 1 1 0) ∧
    decodeTableWord 16 0b1001000000000010 = some (.strSp 0 2) ∧
    decodeTableWord 16 0b1001100000000010 = some (.ldrSp 0 2) := by decide

/-- Formats 12 to 15 (R103 to R106). -/
theorem test_decode_formats12to15 :
    decodeTableWord 16 0b1010000000000010 = some (.addPc 0 2) ∧
    decodeTableWord 16 0b1010100011111111 = some (.addRdSp 0 255) ∧
    decodeTableWord 16 0b1011000001111111 = some (.addSp 127) ∧
    decodeTableWord 16 0b1011000010000010 = some (.subSp 2) ∧
    decodeTableWord 16 0b1011010000000111 = some (.push false 7) ∧
    decodeTableWord 16 0b1011010100000010 = some (.push true 2) ∧
    decodeTableWord 16 0b1011110000000111 = some (.pop false 7) ∧
    decodeTableWord 16 0b1011110100000010 = some (.pop true 2) ∧
    decodeTableWord 16 0b1100000000000110 = some (.stmia 0 6) ∧
    decodeTableWord 16 0b1100100000000110 = some (.ldmia 0 6) := by decide

/-- Formats 16 and 17 (R107, R108, R119). -/
theorem test_decode_formats16and17 :
    decodeTableWord 16 0b1101000000000010 = some (.beq 2) ∧
    decodeTableWord 16 0b1101000110000000 = some (.bne 0x80) ∧
    decodeTableWord 16 0b1101001000000010 = some (.bcs 2) ∧
    decodeTableWord 16 0b1101001100000010 = some (.bcc 2) ∧
    decodeTableWord 16 0b1101010000000010 = some (.bmi 2) ∧
    decodeTableWord 16 0b1101010100000010 = some (.bpl 2) ∧
    decodeTableWord 16 0b1101011000000010 = some (.bvs 2) ∧
    decodeTableWord 16 0b1101011100000010 = some (.bvc 2) ∧
    decodeTableWord 16 0b1101100000000010 = some (.bhi 2) ∧
    decodeTableWord 16 0b1101100100000010 = some (.bls 2) ∧
    decodeTableWord 16 0b1101101000000010 = some (.bge 2) ∧
    decodeTableWord 16 0b1101101100000010 = some (.blt 2) ∧
    decodeTableWord 16 0b1101110000000010 = some (.bgt 2) ∧
    decodeTableWord 16 0b1101110100000010 = some (.ble 2) ∧
    decodeTableWord 16 0b1101111000000010 = some (.bUndefined 2) ∧
    decodeTableWord 16 0b1101111100000101 = some (.svc 5) := by decide

/-- Formats 18 and 19 (R109, R110), the 32-bit word hw1:hw2 (R91). -/
theorem test_decode_formats18and19 :
    decodeTableWord 16 0b1110001111111111 = some (.b 0x3FF) ∧
    decodeTableWord 32 0b11110000000000001111100010000000 = some (.bl 0 0 1 1 0x080) ∧
    decodeTableWord 32 0b11110111111111111111111111111110 = some (.bl 1 0x3FF 1 1 0x7FE) ∧
    decodeTableWord 32 0b11110000000000001111000000000000 = some (.bl 0 0 1 0 0) := by decide

/-- R111, R112: hints, CPS, BKPT, barriers. -/
theorem test_decode_unimplemented :
    decodeTableWord 16 0b1011111100000000 = some .nop ∧
    decodeTableWord 16 0b1011111100010000 = some .yield ∧
    decodeTableWord 16 0b1011111100100000 = some .wfe ∧
    decodeTableWord 16 0b1011111100110000 = some .wfi ∧
    decodeTableWord 16 0b1011111101000000 = some .sev ∧
    decodeTableWord 16 0b1011111111110000 = some (.hint 15) ∧
    decodeTableWord 16 0b1011011001100010 = some (.cpsie 2) ∧
    decodeTableWord 16 0b1011011001110010 = some (.cpsid 2) ∧
    decodeTableWord 16 0b1011111000000000 = some (.bkpt 0) ∧
    decodeTableWord 32 0b11110011101111111000111101001111 = some (.dsb 15) ∧
    decodeTableWord 32 0b11110011101111111000111101011111 = some (.dmb 15) ∧
    decodeTableWord 32 0b11110011101111111000111101101111 = some (.isb 15) := by decide

/-- R117: CBZ, IT, a lone second half of BL, a first half with a wrong second one, another barrier. -/
theorem test_decode_unallocated :
    decodeTableWord 16 0xB100 = none ∧ decodeTableWord 16 0xBF08 = none ∧ decodeTableWord 16 0xF800 = none ∧
    decodeTableWord 32 0xF000E800 = none ∧ decodeTableWord 32 0xF3BF8F70 = none ∧ decodeTableWord 32 0xE8000000 = none := by decide

/-! ## One step: helpers -/

/-- N, Z, C, V as four bits, as 95_test_vectors.md writes them. -/
def nzcv (x : BitVec 4) : Flags := ⟨x.getLsbD 3, x.getLsbD 2, x.getLsbD 1, x.getLsbD 0⟩

/-- A platform, two halfwords at `x`, the vector word, more data, Reset, then registers and flags (95_test_vectors.md section 0). -/
def startOn (pf : Platform) (x : Word) (hw1 hw2 : Half) (regs : List (Reg × Word)) (f : Flags) (data : List LoadWrite) : State :=
  let s := boot pf (⟨4, .word, x ||| 1⟩ :: ⟨x, .half, hw1.setWidth 32⟩ :: ⟨x + 2, .half, hw2.setWidth 32⟩ :: data)
  (regs.foldl (fun s r => s.setReg r.1 r.2) s).setFlags f

def start (x : Word) (hw1 hw2 : Half) (regs : List (Reg × Word)) (f : Flags) (data : List LoadWrite) : State :=
  startOn Config.examplePlatform x hw1 hw2 regs f data

/-- The example platform with both policies fault. -/
def strict : Platform := { Config.examplePlatform with misaligned := .fault, unpred := .fault }

/-- The example platform with a peripheral of sixteen bytes. -/
def uart : Peripheral := ⟨0x40000000, 0x40000010, "uart"⟩

def withUart : Platform := { Config.examplePlatform with peripherals := [uart] }

/-- The state after one step. -/
def after (s : State) : State :=
  match step s with
  | .next t => t
  | .fault r => nomatch r
  | .refused _ => s

/-- After one step the registers named hold these values, the flags are these, and the machine goes on at `next`. -/
def ends (s : State) (regs : List (Reg × Word)) (f : Flags) (next : Word) : Bool :=
  let t := after s
  regs.all (fun r => t.reg r.1 == r.2) && t.flags == f && t.fetchPtr == next && t.reg PC == next + 2

/-- What memory holds after one step. -/
def memory (s : State) (a : Word) (w : Width) : Word := ((after s).read a w).1

/-- The error record after one step. -/
def error (s : State) : Option FatalError := (finalReport (after s)).error

/-! ## One step: the vectors of 95_test_vectors.md sections 3 and 5 -/

/-- R140: LSL R0,R1,#1; LSL R0,R1,#0 (C kept). -/
theorem test_lslImm :
    ends (start 0x100 0x48 0x0 [(1, 0x80000001)] (nzcv 0b0000) []) [(0, 0x2), (1, 0x80000001)] (nzcv 0b0010) 0x102 ∧
    ends (start 0x100 0x8 0x0 [(1, 0x80000000)] (nzcv 0b0011) []) [(0, 0x80000000), (1, 0x80000000)] (nzcv 0b1011) 0x102 := by decide

/-- R141: LSR R0,R1,#1; LSR R0,R1,#32 (imm5=0). -/
theorem test_lsrImm :
    ends (start 0x100 0x848 0x0 [(1, 0x80000003)] (nzcv 0b0000) []) [(0, 0x40000001), (1, 0x80000003)] (nzcv 0b0010) 0x102 ∧
    ends (start 0x100 0x808 0x0 [(1, 0x80000000)] (nzcv 0b0000) []) [(1, 0x80000000)] (nzcv 0b0110) 0x102 := by decide

/-- R142: ASR R0,R1,#2; ASR R0,R1,#32 (imm5=0). -/
theorem test_asrImm :
    ends (start 0x100 0x1088 0x0 [(1, 0x80000000)] (nzcv 0b0000) []) [(0, 0xE0000000), (1, 0x80000000)] (nzcv 0b1000) 0x102 ∧
    ends (start 0x100 0x1008 0x0 [(1, 0x80000000)] (nzcv 0b0000) []) [(0, 0xFFFFFFFF), (1, 0x80000000)] (nzcv 0b1010) 0x102 := by decide

/-- R143: ADD R0,R1,R2 (carry out); ADD R0,R1,R2 (overflow). -/
theorem test_addReg :
    ends (start 0x100 0x1888 0x0 [(1, 0xFFFFFFFF), (2, 0x1)] (nzcv 0b0000) []) [(1, 0xFFFFFFFF), (2, 0x1)] (nzcv 0b0110) 0x102 ∧
    ends (start 0x100 0x1888 0x0 [(1, 0x7FFFFFFF), (2, 0x1)] (nzcv 0b0000) []) [(0, 0x80000000), (1, 0x7FFFFFFF), (2, 0x1)] (nzcv 0b1001) 0x102 := by decide

/-- R144: SUB R0,R1,R2 (borrow); SUB R0,R1,R2 (overflow). -/
theorem test_subReg :
    ends (start 0x100 0x1A88 0x0 [(1, 0x1), (2, 0x2)] (nzcv 0b0000) []) [(0, 0xFFFFFFFF), (1, 0x1), (2, 0x2)] (nzcv 0b1000) 0x102 ∧
    ends (start 0x100 0x1A88 0x0 [(1, 0x80000000), (2, 0x1)] (nzcv 0b0000) []) [(0, 0x7FFFFFFF), (1, 0x80000000), (2, 0x1)] (nzcv 0b0011) 0x102 := by decide

/-- R145: ADD R0,R1,#7; ADD R0,R1,#0. -/
theorem test_addImm3 :
    ends (start 0x100 0x1DC8 0x0 [(1, 0x7FFFFFFF)] (nzcv 0b0000) []) [(0, 0x80000006), (1, 0x7FFFFFFF)] (nzcv 0b1001) 0x102 ∧
    ends (start 0x100 0x1C08 0x0 [(1, 0x80000000)] (nzcv 0b0011) []) [(0, 0x80000000), (1, 0x80000000)] (nzcv 0b1000) 0x102 := by decide

/-- R146: SUB R0,R1,#1; SUB R0,R1,#1 (borrow). -/
theorem test_subImm3 :
    ends (start 0x100 0x1E48 0x0 [(1, 0x1)] (nzcv 0b0000) []) [(1, 0x1)] (nzcv 0b0110) 0x102 ∧
    ends (start 0x100 0x1E48 0x0 [(1, 0x0)] (nzcv 0b0000) []) [(0, 0xFFFFFFFF), (1, 0x0)] (nzcv 0b1000) 0x102 := by decide

/-- R147: MOV R0,#0 (C, V kept); MOV R0,#12. -/
theorem test_movImm8 :
    ends (start 0x100 0x2000 0x0 [(0, 0x5)] (nzcv 0b1011) []) [(0, 0x0)] (nzcv 0b0111) 0x102 ∧
    ends (start 0x100 0x200C 0x0 [] (nzcv 0b0000) []) [(0, 0xC)] (nzcv 0b0000) 0x102 := by decide

/-- R148: CMP R0,#5 equal; CMP R0,#5 less. -/
theorem test_cmpImm8 :
    ends (start 0x100 0x2805 0x0 [(0, 0x5)] (nzcv 0b0000) []) [(0, 0x5)] (nzcv 0b0110) 0x102 ∧
    ends (start 0x100 0x2805 0x0 [(0, 0x4)] (nzcv 0b0000) []) [(0, 0x4)] (nzcv 0b1000) 0x102 := by decide

/-- R149: ADD R0,#255. -/
theorem test_addImm8 :
    ends (start 0x100 0x30FF 0x0 [(0, 0xFFFFFF01)] (nzcv 0b0000) []) [(0, 0x0)] (nzcv 0b0110) 0x102 := by decide

/-- R150: SUB R0,#1. -/
theorem test_subImm8 :
    ends (start 0x100 0x3801 0x0 [(0, 0x80000000)] (nzcv 0b0000) []) [(0, 0x7FFFFFFF)] (nzcv 0b0011) 0x102 := by decide

/-- R151: AND R0,R1. -/
theorem test_and :
    ends (start 0x100 0x4008 0x0 [(0, 0xF0F0), (1, 0xFF00)] (nzcv 0b0011) []) [(0, 0xF000), (1, 0xFF00)] (nzcv 0b0011) 0x102 := by decide

/-- R152: EOR R0,R1. -/
theorem test_eor :
    ends (start 0x100 0x4048 0x0 [(0, 0xFFFFFFFF), (1, 0xFFFFFFFF)] (nzcv 0b0000) []) [(0, 0x0), (1, 0xFFFFFFFF)] (nzcv 0b0100) 0x102 := by decide

/-- R153: LSL R0,R1 by 32; LSL R0,R1 by 0x100 (low byte 0). -/
theorem test_lslReg :
    ends (start 0x100 0x4088 0x0 [(0, 0x1), (1, 0x20)] (nzcv 0b0000) []) [(0, 0x0), (1, 0x20)] (nzcv 0b0110) 0x102 ∧
    ends (start 0x100 0x4088 0x0 [(0, 0x1), (1, 0x100)] (nzcv 0b0010) []) [(0, 0x1), (1, 0x100)] (nzcv 0b0010) 0x102 := by decide

/-- R154: LSR R0,R1 by 32; LSR R0,R1 by 1. -/
theorem test_lsrReg :
    ends (start 0x100 0x40C8 0x0 [(0, 0x80000000), (1, 0x20)] (nzcv 0b0000) []) [(0, 0x0), (1, 0x20)] (nzcv 0b0110) 0x102 ∧
    ends (start 0x100 0x40C8 0x0 [(0, 0x3), (1, 0x1)] (nzcv 0b0000) []) [(0, 0x1), (1, 0x1)] (nzcv 0b0010) 0x102 := by decide

/-- R155: ASR R0,R1 by 40; ASR R0,R1 by 4. -/
theorem test_asrReg :
    ends (start 0x100 0x4108 0x0 [(0, 0x80000000), (1, 0x28)] (nzcv 0b0000) []) [(0, 0xFFFFFFFF), (1, 0x28)] (nzcv 0b1010) 0x102 ∧
    ends (start 0x100 0x4108 0x0 [(0, 0x80000010), (1, 0x4)] (nzcv 0b0000) []) [(0, 0xF8000001), (1, 0x4)] (nzcv 0b1000) 0x102 := by decide

/-- R156: ADC R0,R1; ADC R0,R1 (overflow). -/
theorem test_adc :
    ends (start 0x100 0x4148 0x0 [(0, 0xFFFFFFFF), (1, 0x0)] (nzcv 0b0010) []) [(0, 0x0), (1, 0x0)] (nzcv 0b0110) 0x102 ∧
    ends (start 0x100 0x4148 0x0 [(0, 0x7FFFFFFF), (1, 0x0)] (nzcv 0b0010) []) [(0, 0x80000000), (1, 0x0)] (nzcv 0b1001) 0x102 := by decide

/-- R157: SBC R0,R1 (C=0); SBC R0,R1 (C=1). -/
theorem test_sbc :
    ends (start 0x100 0x4188 0x0 [(0, 0x5), (1, 0x5)] (nzcv 0b0000) []) [(0, 0xFFFFFFFF), (1, 0x5)] (nzcv 0b1000) 0x102 ∧
    ends (start 0x100 0x4188 0x0 [(0, 0x5), (1, 0x5)] (nzcv 0b0010) []) [(0, 0x0), (1, 0x5)] (nzcv 0b0110) 0x102 := by decide

/-- R158: ROR R0,R1 by 32; ROR R0,R1 by 36. -/
theorem test_ror :
    ends (start 0x100 0x41C8 0x0 [(0, 0x80000000), (1, 0x20)] (nzcv 0b0000) []) [(0, 0x80000000), (1, 0x20)] (nzcv 0b1010) 0x102 ∧
    ends (start 0x100 0x41C8 0x0 [(0, 0x12345678), (1, 0x24)] (nzcv 0b0000) []) [(0, 0x81234567), (1, 0x24)] (nzcv 0b1010) 0x102 := by decide

/-- R159: TST R0,R1. -/
theorem test_tst :
    ends (start 0x100 0x4208 0x0 [(0, 0xF), (1, 0xF0)] (nzcv 0b0000) []) [(0, 0xF), (1, 0xF0)] (nzcv 0b0100) 0x102 := by decide

/-- R160: NEG R0,R1 of 0; NEG R0,R1 of 0x80000000. -/
theorem test_neg :
    ends (start 0x100 0x4248 0x0 [(0, 0x9), (1, 0x0)] (nzcv 0b0000) []) [(0, 0x0), (1, 0x0)] (nzcv 0b0110) 0x102 ∧
    ends (start 0x100 0x4248 0x0 [(1, 0x80000000)] (nzcv 0b0000) []) [(0, 0x80000000), (1, 0x80000000)] (nzcv 0b1001) 0x102 := by decide

/-- R161: CMP R0,R1; CMP R0,R1 signed overflow. -/
theorem test_cmpReg :
    ends (start 0x100 0x4288 0x0 [(0, 0x1), (1, 0x2)] (nzcv 0b0000) []) [(0, 0x1), (1, 0x2)] (nzcv 0b1000) 0x102 ∧
    ends (start 0x100 0x4288 0x0 [(0, 0x7FFFFFFF), (1, 0xFFFFFFFF)] (nzcv 0b0000) []) [(0, 0x7FFFFFFF), (1, 0xFFFFFFFF)] (nzcv 0b1001) 0x102 := by decide

/-- R162: CMN R0,R1. -/
theorem test_cmn :
    ends (start 0x100 0x42C8 0x0 [(0, 0xFFFFFFFF), (1, 0x1)] (nzcv 0b0000) []) [(0, 0xFFFFFFFF), (1, 0x1)] (nzcv 0b0110) 0x102 := by decide

/-- R163: ORR R0,R1. -/
theorem test_orr :
    ends (start 0x100 0x4308 0x0 [(0, 0xF0), (1, 0xF)] (nzcv 0b0000) []) [(0, 0xFF), (1, 0xF)] (nzcv 0b0000) 0x102 := by decide

/-- R164: MUL R0,R1; MUL R0,R1 negative. -/
theorem test_mul :
    ends (start 0x100 0x4348 0x0 [(0, 0x10000), (1, 0x10000)] (nzcv 0b0011) []) [(0, 0x0), (1, 0x10000)] (nzcv 0b0111) 0x102 ∧
    ends (start 0x100 0x4348 0x0 [(0, 0xFFFFFFFF), (1, 0x3)] (nzcv 0b0000) []) [(0, 0xFFFFFFFD), (1, 0x3)] (nzcv 0b1000) 0x102 := by decide

/-- R165: BIC R0,R1. -/
theorem test_bic :
    ends (start 0x100 0x4388 0x0 [(0, 0xFF), (1, 0xF)] (nzcv 0b0000) []) [(0, 0xF0), (1, 0xF)] (nzcv 0b0000) 0x102 := by decide

/-- R166: MVN R0,R1. -/
theorem test_mvn :
    ends (start 0x100 0x43C8 0x0 [(1, 0x0)] (nzcv 0b0000) []) [(0, 0xFFFFFFFF), (1, 0x0)] (nzcv 0b1000) 0x102 := by decide

/-- R167: ADD R8,R1; ADD PC,R0. -/
theorem test_addHi :
    ends (start 0x100 0x4488 0x0 [(8, 0x10), (1, 0x20)] (nzcv 0b1111) []) [(1, 0x20), (8, 0x30)] (nzcv 0b1111) 0x102 ∧
    ends (start 0x100 0x4487 0x0 [(0, 0x11)] (nzcv 0b0000) []) [(0, 0x11)] (nzcv 0b0000) 0x114 := by decide

/-- R168: CMP R8,R9. -/
theorem test_cmpHi :
    ends (start 0x100 0x45C8 0x0 [(8, 0x1), (9, 0x1)] (nzcv 0b0000) []) [(8, 0x1), (9, 0x1)] (nzcv 0b0110) 0x102 := by decide

/-- R169: MOV PC,LR; MOV SP,R0. -/
theorem test_movHi :
    ends (start 0x100 0x46F7 0x0 [(14, 0x201)] (nzcv 0b0000) []) [(14, 0x201)] (nzcv 0b0000) 0x200 ∧
    ends (start 0x100 0x4685 0x0 [(0, 0x20000100)] (nzcv 0b0000) []) [(0, 0x20000100), (13, 0x20000100)] (nzcv 0b0000) 0x102 := by decide

/-- R181: LDR R0,[PC,#8] at 0x100; LDR R0,[PC,#8] at 0x102. -/
theorem test_ldrPc :
    ends (start 0x100 0x4802 0x0 [] (nzcv 0b0000) [⟨0x10C, .word, 0xCAFEBABE⟩]) [(0, 0xCAFEBABE)] (nzcv 0b0000) 0x102 ∧
    ends (start 0x102 0x4802 0x0 [] (nzcv 0b0000) [⟨0x10C, .word, 0xCAFEBABE⟩]) [(0, 0xCAFEBABE)] (nzcv 0b0000) 0x104 := by decide

/-- R182: STR R0,[R1,R2]; STR R0,[R1,R2] unmapped (dropped). -/
theorem test_strReg :
    ends (start 0x100 0x5088 0x0 [(0, 0x11223344), (1, 0x20000000), (2, 0x4)] (nzcv 0b0000) []) [(0, 0x11223344), (1, 0x20000000), (2, 0x4)] (nzcv 0b0000) 0x102 ∧
    memory (start 0x100 0x5088 0x0 [(0, 0x11223344), (1, 0x20000000), (2, 0x4)] (nzcv 0b0000) []) 0x20000004 .word = 0x11223344 ∧
    ends (start 0x100 0x5088 0x0 [(0, 0x1), (1, 0x40000000), (2, 0x0)] (nzcv 0b0000) []) [(0, 0x1), (1, 0x40000000), (2, 0x0)] (nzcv 0b0000) 0x102 := by decide

/-- R183: STRB R0,[R1,R2]. -/
theorem test_strbReg :
    ends (start 0x100 0x5488 0x0 [(0, 0x11223344), (1, 0x20000000), (2, 0x5)] (nzcv 0b0000) []) [(0, 0x11223344), (1, 0x20000000), (2, 0x5)] (nzcv 0b0000) 0x102 ∧
    memory (start 0x100 0x5488 0x0 [(0, 0x11223344), (1, 0x20000000), (2, 0x5)] (nzcv 0b0000) []) 0x20000005 .byte = 0x44 := by decide

/-- R184: LDR R0,[R1,R2] misaligned; LDR R0,[R1,R2]. -/
theorem test_ldrReg :
    ends (start 0x100 0x5888 0x0 [(1, 0x20000000), (2, 0x1)] (nzcv 0b0000) [⟨0x20000000, .byte, 0x11⟩, ⟨0x20000001, .byte, 0x22⟩, ⟨0x20000002, .byte, 0x33⟩, ⟨0x20000003, .byte, 0x44⟩, ⟨0x20000004, .byte, 0x55⟩, ⟨0x20000005, .byte, 0x66⟩, ⟨0x20000006, .byte, 0x77⟩, ⟨0x20000007, .byte, 0x88⟩]) [(0, 0x55443322), (1, 0x20000000), (2, 0x1)] (nzcv 0b0000) 0x102 ∧
    ends (start 0x100 0x5888 0x0 [(1, 0x20000000), (2, 0x4)] (nzcv 0b0000) [⟨0x20000004, .word, 0xDEADBEEF⟩]) [(0, 0xDEADBEEF), (1, 0x20000000), (2, 0x4)] (nzcv 0b0000) 0x102 := by decide

/-- R185: LDRB R0,[R1,R2]. -/
theorem test_ldrbReg :
    ends (start 0x100 0x5C88 0x0 [(1, 0x20000000), (2, 0x7)] (nzcv 0b0000) [⟨0x20000004, .word, 0xDEADBEEF⟩]) [(0, 0xDE), (1, 0x20000000), (2, 0x7)] (nzcv 0b0000) 0x102 := by decide

/-- R186: STRH R0,[R1,R2]. -/
theorem test_strhReg :
    ends (start 0x100 0x5288 0x0 [(0, 0x11223344), (1, 0x20000000), (2, 0x6)] (nzcv 0b0000) []) [(0, 0x11223344), (1, 0x20000000), (2, 0x6)] (nzcv 0b0000) 0x102 ∧
    memory (start 0x100 0x5288 0x0 [(0, 0x11223344), (1, 0x20000000), (2, 0x6)] (nzcv 0b0000) []) 0x20000006 .half = 0x3344 := by decide

/-- R187: LDRH R0,[R1,R2]. -/
theorem test_ldrhReg :
    ends (start 0x100 0x5A88 0x0 [(1, 0x20000000), (2, 0x6)] (nzcv 0b0000) [⟨0x20000004, .word, 0x8001BEEF⟩]) [(0, 0x8001), (1, 0x20000000), (2, 0x6)] (nzcv 0b0000) 0x102 := by decide

/-- R188: LDSB R0,[R1,R2]; LDSB R0,[R1,R2] positive. -/
theorem test_ldsb :
    ends (start 0x100 0x5688 0x0 [(1, 0x20000000), (2, 0x4)] (nzcv 0b0000) [⟨0x20000004, .byte, 0x80⟩]) [(0, 0xFFFFFF80), (1, 0x20000000), (2, 0x4)] (nzcv 0b0000) 0x102 ∧
    ends (start 0x100 0x5688 0x0 [(1, 0x20000000), (2, 0x4)] (nzcv 0b0000) [⟨0x20000004, .byte, 0x7F⟩]) [(0, 0x7F), (1, 0x20000000), (2, 0x4)] (nzcv 0b0000) 0x102 := by decide

/-- R189: LDSH R0,[R1,R2]; LDSH R0,[R1,R2] positive. -/
theorem test_ldsh :
    ends (start 0x100 0x5E88 0x0 [(1, 0x20000000), (2, 0x6)] (nzcv 0b0000) [⟨0x20000004, .word, 0x8001BEEF⟩]) [(0, 0xFFFF8001), (1, 0x20000000), (2, 0x6)] (nzcv 0b0000) 0x102 ∧
    ends (start 0x100 0x5E88 0x0 [(1, 0x20000000), (2, 0x4)] (nzcv 0b0000) [⟨0x20000004, .word, 0x8001BEEF⟩]) [(0, 0xFFFFBEEF), (1, 0x20000000), (2, 0x4)] (nzcv 0b0000) 0x102 := by decide

/-- R190: STR R0,[R1,#4]. -/
theorem test_strImm :
    ends (start 0x100 0x6048 0x0 [(0, 0xA5A5A5A5), (1, 0x20000000)] (nzcv 0b0000) []) [(0, 0xA5A5A5A5), (1, 0x20000000)] (nzcv 0b0000) 0x102 ∧
    memory (start 0x100 0x6048 0x0 [(0, 0xA5A5A5A5), (1, 0x20000000)] (nzcv 0b0000) []) 0x20000004 .word = 0xA5A5A5A5 := by decide

/-- R191: LDR R1,[R1] (Rd = Rb); LDR R0,[R1] straddling SRAM end. -/
theorem test_ldrImm :
    ends (start 0x100 0x6809 0x0 [(1, 0x20000000)] (nzcv 0b0000) [⟨0x20000000, .word, 0x77⟩]) [(1, 0x77)] (nzcv 0b0000) 0x102 ∧
    ends (start 0x100 0x6808 0x0 [(1, 0x2000FFFE)] (nzcv 0b0000) [⟨0x2000FFFE, .byte, 0xAA⟩, ⟨0x2000FFFF, .byte, 0xBB⟩]) [(0, 0xBBAA), (1, 0x2000FFFE)] (nzcv 0b0000) 0x102 := by decide

/-- R192: STRB R0,[R1,#5]. -/
theorem test_strbImm :
    ends (start 0x100 0x7148 0x0 [(0, 0x1FF), (1, 0x20000000)] (nzcv 0b0000) []) [(0, 0x1FF), (1, 0x20000000)] (nzcv 0b0000) 0x102 ∧
    memory (start 0x100 0x7148 0x0 [(0, 0x1FF), (1, 0x20000000)] (nzcv 0b0000) []) 0x20000005 .byte = 0xFF := by decide

/-- R193: LDRB R0,[R1,#5]. -/
theorem test_ldrbImm :
    ends (start 0x100 0x7948 0x0 [(1, 0x20000000)] (nzcv 0b0000) [⟨0x20000004, .word, 0x1020304⟩]) [(0, 0x3), (1, 0x20000000)] (nzcv 0b0000) 0x102 := by decide

/-- R194: STRH R0,[R1,#2]. -/
theorem test_strhImm :
    ends (start 0x100 0x8048 0x0 [(0, 0xABCD1234), (1, 0x20000000)] (nzcv 0b0000) []) [(0, 0xABCD1234), (1, 0x20000000)] (nzcv 0b0000) 0x102 ∧
    memory (start 0x100 0x8048 0x0 [(0, 0xABCD1234), (1, 0x20000000)] (nzcv 0b0000) []) 0x20000002 .half = 0x1234 := by decide

/-- R195: LDRH R0,[R1,#2]. -/
theorem test_ldrhImm :
    ends (start 0x100 0x8848 0x0 [(1, 0x20000000)] (nzcv 0b0000) [⟨0x20000000, .word, 0xFFFE0001⟩]) [(0, 0xFFFE), (1, 0x20000000)] (nzcv 0b0000) 0x102 := by decide

/-- R196: STR R0,[SP,#8]. -/
theorem test_strSp :
    ends (start 0x100 0x9002 0x0 [(0, 0x12345678), (13, 0x20000100)] (nzcv 0b0000) []) [(0, 0x12345678), (13, 0x20000100)] (nzcv 0b0000) 0x102 ∧
    memory (start 0x100 0x9002 0x0 [(0, 0x12345678), (13, 0x20000100)] (nzcv 0b0000) []) 0x20000108 .word = 0x12345678 := by decide

/-- R197: LDR R0,[SP,#8]. -/
theorem test_ldrSp :
    ends (start 0x100 0x9802 0x0 [(13, 0x20000100)] (nzcv 0b0000) [⟨0x20000108, .word, 0x87654321⟩]) [(0, 0x87654321), (13, 0x20000100)] (nzcv 0b0000) 0x102 := by decide

/-- R210: ADD R0,PC,#8 at 0x100; ADD R0,PC,#8 at 0x102. -/
theorem test_addPc :
    ends (start 0x100 0xA002 0x0 [] (nzcv 0b0000) []) [(0, 0x10C)] (nzcv 0b0000) 0x102 ∧
    ends (start 0x102 0xA002 0x0 [] (nzcv 0b0000) []) [(0, 0x10C)] (nzcv 0b0000) 0x104 := by decide

/-- R211: ADD R0,SP,#1020; ADD R0,SP,#4, SP misaligned. -/
theorem test_addRdSp :
    ends (start 0x100 0xA8FF 0x0 [(13, 0x20000100)] (nzcv 0b0000) []) [(0, 0x200004FC), (13, 0x20000100)] (nzcv 0b0000) 0x102 ∧
    ends (start 0x100 0xA801 0x0 [(13, 0x20000101)] (nzcv 0b0000) []) [(0, 0x20000105), (13, 0x20000101)] (nzcv 0b0000) 0x102 := by decide

/-- R212: ADD SP,#508; ADD SP,#0. -/
theorem test_addSp :
    ends (start 0x100 0xB07F 0x0 [(13, 0x20000000)] (nzcv 0b0000) []) [(13, 0x200001FC)] (nzcv 0b0000) 0x102 ∧
    ends (start 0x100 0xB000 0x0 [(13, 0x20000000)] (nzcv 0b0000) []) [(13, 0x20000000)] (nzcv 0b0000) 0x102 := by decide

/-- R213: SUB SP,#8; SUB SP,#4 from 0. -/
theorem test_subSp :
    ends (start 0x100 0xB082 0x0 [(13, 0x20000100)] (nzcv 0b0000) []) [(13, 0x200000F8)] (nzcv 0b0000) 0x102 ∧
    ends (start 0x100 0xB081 0x0 [(13, 0x0)] (nzcv 0b0000) []) [(13, 0xFFFFFFFC)] (nzcv 0b0000) 0x102 := by decide

/-- R215: PUSH {R0-R2}; PUSH {R1,LR}. -/
theorem test_push :
    ends (start 0x100 0xB407 0x0 [(0, 0x1), (1, 0x2), (2, 0x3), (13, 0x20000100)] (nzcv 0b0000) []) [(0, 0x1), (1, 0x2), (2, 0x3), (13, 0x200000F4)] (nzcv 0b0000) 0x102 ∧
    memory (start 0x100 0xB407 0x0 [(0, 0x1), (1, 0x2), (2, 0x3), (13, 0x20000100)] (nzcv 0b0000) []) 0x200000F4 .word = 0x1 ∧
    memory (start 0x100 0xB407 0x0 [(0, 0x1), (1, 0x2), (2, 0x3), (13, 0x20000100)] (nzcv 0b0000) []) 0x200000F8 .word = 0x2 ∧
    memory (start 0x100 0xB407 0x0 [(0, 0x1), (1, 0x2), (2, 0x3), (13, 0x20000100)] (nzcv 0b0000) []) 0x200000FC .word = 0x3 ∧
    ends (start 0x100 0xB502 0x0 [(1, 0x11), (14, 0x203), (13, 0x20000100)] (nzcv 0b0000) []) [(1, 0x11), (13, 0x200000F8), (14, 0x203)] (nzcv 0b0000) 0x102 ∧
    memory (start 0x100 0xB502 0x0 [(1, 0x11), (14, 0x203), (13, 0x20000100)] (nzcv 0b0000) []) 0x200000F8 .word = 0x11 ∧
    memory (start 0x100 0xB502 0x0 [(1, 0x11), (14, 0x203), (13, 0x20000100)] (nzcv 0b0000) []) 0x200000FC .word = 0x203 := by decide

/-- R216: POP {R1,PC}; POP {R0-R2}. -/
theorem test_pop :
    ends (start 0x100 0xBD02 0x0 [(13, 0x200000F8)] (nzcv 0b0000) [⟨0x200000F8, .word, 0x11⟩, ⟨0x200000FC, .word, 0x203⟩]) [(1, 0x11), (13, 0x20000100)] (nzcv 0b0000) 0x202 ∧
    ends (start 0x100 0xBC07 0x0 [(13, 0x200000F4)] (nzcv 0b0000) [⟨0x200000F4, .word, 0x1⟩, ⟨0x200000F8, .word, 0x2⟩, ⟨0x200000FC, .word, 0x3⟩]) [(0, 0x1), (1, 0x2), (2, 0x3), (13, 0x20000100)] (nzcv 0b0000) 0x102 := by decide

/-- R217: STMIA R1!,{R0,R1}; STMIA R0!,{R1,R2}. -/
theorem test_stmia :
    ends (start 0x100 0xC103 0x0 [(0, 0x5), (1, 0x20000000)] (nzcv 0b0000) []) [(0, 0x5), (1, 0x20000008)] (nzcv 0b0000) 0x102 ∧
    memory (start 0x100 0xC103 0x0 [(0, 0x5), (1, 0x20000000)] (nzcv 0b0000) []) 0x20000000 .word = 0x5 ∧
    memory (start 0x100 0xC103 0x0 [(0, 0x5), (1, 0x20000000)] (nzcv 0b0000) []) 0x20000004 .word = 0x20000000 ∧
    ends (start 0x100 0xC006 0x0 [(0, 0x20000000), (1, 0xA), (2, 0xB)] (nzcv 0b0000) []) [(0, 0x20000008), (1, 0xA), (2, 0xB)] (nzcv 0b0000) 0x102 ∧
    memory (start 0x100 0xC006 0x0 [(0, 0x20000000), (1, 0xA), (2, 0xB)] (nzcv 0b0000) []) 0x20000000 .word = 0xA ∧
    memory (start 0x100 0xC006 0x0 [(0, 0x20000000), (1, 0xA), (2, 0xB)] (nzcv 0b0000) []) 0x20000004 .word = 0xB := by decide

/-- R218: LDMIA R0!,{R0,R1}; LDMIA R0!,{R1,R2}. -/
theorem test_ldmia :
    ends (start 0x100 0xC803 0x0 [(0, 0x20000000)] (nzcv 0b0000) [⟨0x20000000, .word, 0xA⟩, ⟨0x20000004, .word, 0xB⟩]) [(0, 0xA), (1, 0xB)] (nzcv 0b0000) 0x102 ∧
    ends (start 0x100 0xC806 0x0 [(0, 0x20000000)] (nzcv 0b0000) [⟨0x20000000, .word, 0xA⟩, ⟨0x20000004, .word, 0xB⟩]) [(0, 0x20000008), (1, 0xA), (2, 0xB)] (nzcv 0b0000) 0x102 := by decide

/-- R231: BX R1, odd; BX PC. -/
theorem test_bx :
    ends (start 0x100 0x4708 0x0 [(1, 0x201)] (nzcv 0b0000) []) [(1, 0x201)] (nzcv 0b0000) 0x200 ∧
    ends (start 0x100 0x4778 0x0 [] (nzcv 0b0000) []) [] (nzcv 0b0000) 0x102 ∧
    error (start 0x100 0x4778 0x0 [] (nzcv 0b0000) []) = some ⟨.illegalStateTransition 0x104, 0x100⟩ := by decide

/-- R232: BLX R2, even (LR kept); BLX LR. -/
theorem test_blx :
    ends (start 0x100 0x4790 0x0 [(2, 0x300), (14, 0x55)] (nzcv 0b0000) []) [(2, 0x300), (14, 0x55)] (nzcv 0b0000) 0x102 ∧
    error (start 0x100 0x4790 0x0 [(2, 0x300), (14, 0x55)] (nzcv 0b0000) []) = some ⟨.illegalStateTransition 0x300, 0x100⟩ ∧
    ends (start 0x100 0x47F0 0x0 [(14, 0x401)] (nzcv 0b0000) []) [(14, 0x103)] (nzcv 0b0000) 0x400 := by decide

/-- R240: B +2046 at 0x1000; B -2048 at 0x1000. -/
theorem test_b :
    ends (start 0x1000 0xE3FF 0x0 [] (nzcv 0b0000) []) [] (nzcv 0b0000) 0x1802 ∧
    ends (start 0x1000 0xE400 0x0 [] (nzcv 0b0000) []) [] (nzcv 0b0000) 0x804 := by decide

/-- R241: BL +0x100; BL -4. -/
theorem test_bl :
    ends (start 0x100 0xF000 0xF880 [] (nzcv 0b0000) []) [(14, 0x105)] (nzcv 0b0000) 0x204 ∧
    ends (start 0x1000 0xF7FF 0xFFFE [] (nzcv 0b0000) []) [(14, 0x1005)] (nzcv 0b0000) 0x1000 := by decide

/-- R251: NOP. -/
theorem test_nop :
    ends (start 0x100 0xBF00 0x0 [] (nzcv 0b0000) []) [] (nzcv 0b0000) 0x102 ∧
    error (start 0x100 0xBF00 0x0 [] (nzcv 0b0000) []) = some ⟨.notImplementedFeature .nop 0xBF00 none, 0x100⟩ := by decide

/-- R252: YIELD. -/
theorem test_yield :
    ends (start 0x100 0xBF10 0x0 [] (nzcv 0b0000) []) [] (nzcv 0b0000) 0x102 ∧
    error (start 0x100 0xBF10 0x0 [] (nzcv 0b0000) []) = some ⟨.notImplementedFeature .yield 0xBF10 none, 0x100⟩ := by decide

/-- R253: WFE. -/
theorem test_wfe :
    ends (start 0x100 0xBF20 0x0 [] (nzcv 0b0000) []) [] (nzcv 0b0000) 0x102 ∧
    error (start 0x100 0xBF20 0x0 [] (nzcv 0b0000) []) = some ⟨.notImplementedFeature .wfe 0xBF20 none, 0x100⟩ := by decide

/-- R254: WFI. -/
theorem test_wfi :
    ends (start 0x100 0xBF30 0x0 [] (nzcv 0b0000) []) [] (nzcv 0b0000) 0x102 ∧
    error (start 0x100 0xBF30 0x0 [] (nzcv 0b0000) []) = some ⟨.notImplementedFeature .wfi 0xBF30 none, 0x100⟩ := by decide

/-- R255: SEV. -/
theorem test_sev :
    ends (start 0x100 0xBF40 0x0 [] (nzcv 0b0000) []) [] (nzcv 0b0000) 0x102 ∧
    error (start 0x100 0xBF40 0x0 [] (nzcv 0b0000) []) = some ⟨.notImplementedFeature .sev 0xBF40 none, 0x100⟩ := by decide

/-- R256: hint 5; hint 15. -/
theorem test_hint :
    ends (start 0x100 0xBF50 0x0 [] (nzcv 0b0000) []) [] (nzcv 0b0000) 0x102 ∧
    error (start 0x100 0xBF50 0x0 [] (nzcv 0b0000) []) = some ⟨.notImplementedFeature .hint 0xBF50 none, 0x100⟩ ∧
    ends (start 0x100 0xBFF0 0x0 [] (nzcv 0b0000) []) [] (nzcv 0b0000) 0x102 ∧
    error (start 0x100 0xBFF0 0x0 [] (nzcv 0b0000) []) = some ⟨.notImplementedFeature .hint 0xBFF0 none, 0x100⟩ := by decide

/-- R257: CPSIE i. -/
theorem test_cpsie :
    ends (start 0x100 0xB662 0x0 [] (nzcv 0b0000) []) [] (nzcv 0b0000) 0x102 ∧
    error (start 0x100 0xB662 0x0 [] (nzcv 0b0000) []) = some ⟨.notImplementedFeature .cpsie 0xB662 none, 0x100⟩ := by decide

/-- R258: CPSID i. -/
theorem test_cpsid :
    ends (start 0x100 0xB672 0x0 [] (nzcv 0b0000) []) [] (nzcv 0b0000) 0x102 ∧
    error (start 0x100 0xB672 0x0 [] (nzcv 0b0000) []) = some ⟨.notImplementedFeature .cpsid 0xB672 none, 0x100⟩ := by decide

/-- R259: SVC #5. -/
theorem test_svc :
    ends (start 0x100 0xDF05 0x0 [] (nzcv 0b0000) []) [] (nzcv 0b0000) 0x102 ∧
    error (start 0x100 0xDF05 0x0 [] (nzcv 0b0000) []) = some ⟨.notImplementedFeature .svc 0xDF05 none, 0x100⟩ := by decide

/-- R260: BKPT #0. -/
theorem test_bkpt :
    ends (start 0x100 0xBE00 0x0 [] (nzcv 0b0000) []) [] (nzcv 0b0000) 0x102 ∧
    error (start 0x100 0xBE00 0x0 [] (nzcv 0b0000) []) = some ⟨.notImplementedFeature .bkpt 0xBE00 none, 0x100⟩ := by decide

/-- R261: DSB SY. -/
theorem test_dsb :
    ends (start 0x100 0xF3BF 0x8F4F [] (nzcv 0b0000) []) [] (nzcv 0b0000) 0x102 ∧
    error (start 0x100 0xF3BF 0x8F4F [] (nzcv 0b0000) []) = some ⟨.notImplementedFeature .dsb 0xF3BF (some 0x8F4F), 0x100⟩ := by decide

/-- R262: DMB SY. -/
theorem test_dmb :
    ends (start 0x100 0xF3BF 0x8F5F [] (nzcv 0b0000) []) [] (nzcv 0b0000) 0x102 ∧
    error (start 0x100 0xF3BF 0x8F5F [] (nzcv 0b0000) []) = some ⟨.notImplementedFeature .dmb 0xF3BF (some 0x8F5F), 0x100⟩ := by decide

/-- R263: ISB SY. -/
theorem test_isb :
    ends (start 0x100 0xF3BF 0x8F6F [] (nzcv 0b0000) []) [] (nzcv 0b0000) 0x102 ∧
    error (start 0x100 0xF3BF 0x8F6F [] (nzcv 0b0000) []) = some ⟨.notImplementedFeature .isb 0xF3BF (some 0x8F6F), 0x100⟩ := by decide

/-- R264: B<cond> with cond 1110. -/
theorem test_bUndefined :
    ends (start 0x100 0xDE02 0x0 [] (nzcv 0b0000) []) [] (nzcv 0b0000) 0x102 ∧
    error (start 0x100 0xDE02 0x0 [] (nzcv 0b0000) []) = some ⟨.unsupportedSubOperation (.encoding 0xDE02), 0x100⟩ := by decide

/-- R236, R237: BEQ taken and not taken. -/
theorem test_beq :
    ends (start 0x100 0xD002 0 [] (nzcv 0b0100) []) [] (nzcv 0b0100) 0x108 ∧
    ends (start 0x100 0xD002 0 [] (nzcv 0b0000) []) [] (nzcv 0b0000) 0x102 := by decide

/-- R236, R237: BNE taken and not taken. -/
theorem test_bne :
    ends (start 0x100 0xD102 0 [] (nzcv 0b0000) []) [] (nzcv 0b0000) 0x108 ∧
    ends (start 0x100 0xD102 0 [] (nzcv 0b0100) []) [] (nzcv 0b0100) 0x102 := by decide

/-- R236, R237: BCS taken and not taken. -/
theorem test_bcs :
    ends (start 0x100 0xD202 0 [] (nzcv 0b0010) []) [] (nzcv 0b0010) 0x108 ∧
    ends (start 0x100 0xD202 0 [] (nzcv 0b0000) []) [] (nzcv 0b0000) 0x102 := by decide

/-- R236, R237: BCC taken and not taken. -/
theorem test_bcc :
    ends (start 0x100 0xD302 0 [] (nzcv 0b0000) []) [] (nzcv 0b0000) 0x108 ∧
    ends (start 0x100 0xD302 0 [] (nzcv 0b0010) []) [] (nzcv 0b0010) 0x102 := by decide

/-- R236, R237: BMI taken and not taken. -/
theorem test_bmi :
    ends (start 0x100 0xD402 0 [] (nzcv 0b1000) []) [] (nzcv 0b1000) 0x108 ∧
    ends (start 0x100 0xD402 0 [] (nzcv 0b0000) []) [] (nzcv 0b0000) 0x102 := by decide

/-- R236, R237: BPL taken and not taken. -/
theorem test_bpl :
    ends (start 0x100 0xD502 0 [] (nzcv 0b0000) []) [] (nzcv 0b0000) 0x108 ∧
    ends (start 0x100 0xD502 0 [] (nzcv 0b1000) []) [] (nzcv 0b1000) 0x102 := by decide

/-- R236, R237: BVS taken and not taken. -/
theorem test_bvs :
    ends (start 0x100 0xD602 0 [] (nzcv 0b0001) []) [] (nzcv 0b0001) 0x108 ∧
    ends (start 0x100 0xD602 0 [] (nzcv 0b0000) []) [] (nzcv 0b0000) 0x102 := by decide

/-- R236, R237: BVC taken and not taken. -/
theorem test_bvc :
    ends (start 0x100 0xD702 0 [] (nzcv 0b0000) []) [] (nzcv 0b0000) 0x108 ∧
    ends (start 0x100 0xD702 0 [] (nzcv 0b0001) []) [] (nzcv 0b0001) 0x102 := by decide

/-- R236, R237: BHI taken and not taken. -/
theorem test_bhi :
    ends (start 0x100 0xD802 0 [] (nzcv 0b0010) []) [] (nzcv 0b0010) 0x108 ∧
    ends (start 0x100 0xD802 0 [] (nzcv 0b0110) []) [] (nzcv 0b0110) 0x102 := by decide

/-- R236, R237: BLS taken and not taken. -/
theorem test_bls :
    ends (start 0x100 0xD902 0 [] (nzcv 0b0000) []) [] (nzcv 0b0000) 0x108 ∧
    ends (start 0x100 0xD902 0 [] (nzcv 0b0010) []) [] (nzcv 0b0010) 0x102 := by decide

/-- R236, R237: BGE taken and not taken. -/
theorem test_bge :
    ends (start 0x100 0xDA02 0 [] (nzcv 0b0000) []) [] (nzcv 0b0000) 0x108 ∧
    ends (start 0x100 0xDA02 0 [] (nzcv 0b1000) []) [] (nzcv 0b1000) 0x102 := by decide

/-- R236, R237: BLT taken and not taken. -/
theorem test_blt :
    ends (start 0x100 0xDB02 0 [] (nzcv 0b1000) []) [] (nzcv 0b1000) 0x108 ∧
    ends (start 0x100 0xDB02 0 [] (nzcv 0b0000) []) [] (nzcv 0b0000) 0x102 := by decide

/-- R236, R237: BGT taken and not taken. -/
theorem test_bgt :
    ends (start 0x100 0xDC02 0 [] (nzcv 0b0000) []) [] (nzcv 0b0000) 0x108 ∧
    ends (start 0x100 0xDC02 0 [] (nzcv 0b0100) []) [] (nzcv 0b0100) 0x102 := by decide

/-- R236, R237: BLE taken and not taken. -/
theorem test_ble :
    ends (start 0x100 0xDD02 0 [] (nzcv 0b0100) []) [] (nzcv 0b0100) 0x108 ∧
    ends (start 0x100 0xDD02 0 [] (nzcv 0b0000) []) [] (nzcv 0b0000) 0x102 := by decide

/-- R242, R265: encodings no entry of the decode table matches. -/
theorem test_unknownInstruction :
    error (start 0x100 0xF000 0xE800 [] (nzcv 0b0000) []) = some ⟨.unknownInstruction 0xF000, 0x100⟩ ∧
    error (start 0x100 0xF800 0x0 [] (nzcv 0b0000) []) = some ⟨.unknownInstruction 0xF800, 0x100⟩ ∧
    error (start 0x100 0xF3BF 0x8F70 [] (nzcv 0b0000) []) = some ⟨.unknownInstruction 0xF3BF, 0x100⟩ ∧
    error (start 0x100 0xB100 0x0 [] (nzcv 0b0000) []) = some ⟨.unknownInstruction 0xB100, 0x100⟩ ∧
    error (start 0x100 0xB200 0x0 [] (nzcv 0b0000) []) = some ⟨.unknownInstruction 0xB200, 0x100⟩ ∧
    error (start 0x100 0xBA00 0x0 [] (nzcv 0b0000) []) = some ⟨.unknownInstruction 0xBA00, 0x100⟩ := by decide

/-! ## Reset, policies, fetch -/

/-- R300, R301 on the example platform with nothing loaded: `State.reset` is what `Reset()` makes of the power-on state. -/
theorem test_reset : resetCore (State.powerOn Config.examplePlatform) = State.reset := by decide

/-- R300: bit 0 of the vector is cleared and not checked, the slots are seeded. -/
theorem test_reset_vector :
    (let s := start 0x100 0x1840 0x2001 [] (nzcv 0) []
     s.fetchPtr = 0x100 ∧ s.reg PC = 0x102 ∧ s.slot0 = 0x1840 ∧ s.slot1 = 0x2001 ∧ s.t = true ∧ s.run = .running) := by decide

/-- R69, R180: a misaligned LDR is the error "misaligned" under the fault policy and nothing is written. -/
theorem test_misaligned_policy :
    error (startOn strict 0x100 0x5888 0 [(1, 0x20000000), (2, 1)] (nzcv 0) []) = some ⟨.unsupportedSubOperation .misaligned, 0x100⟩ ∧
    ends (startOn strict 0x100 0x5888 0 [(1, 0x20000000), (2, 1)] (nzcv 0) []) [(0, 0), (1, 0x20000000), (2, 1)] (nzcv 0) 0x102 := by decide

/-- R272, UP5: PUSH of an empty list is "unpredictable" under the fault policy. -/
theorem test_unpredictable_policy :
    error (startOn strict 0x100 0xB400 0 [(13, 0x20000100)] (nzcv 0) []) = some ⟨.unsupportedSubOperation .unpredictable, 0x100⟩ := by decide

/-- R45, section 4: Advance at the top of memory wraps. -/
theorem test_advance_wraps :
    (let t := advance { State.reset with fetchPtr := 0xFFFFFFFC }
     t.fetchPtr = 0xFFFFFFFE ∧ t.reg PC = 0) := by decide

/-- R304, variant D1: after STRH R1, [R0, #2] at 0x100 the FIFO still holds the old halfword of 0x102, memory the new one. -/
theorem test_stale_prefetch :
    (let s := start 0x100 0x8041 0x2001 [(0, 0x100), (1, 0x2005)] (nzcv 0) []
     (after s).slot0 = 0x2001 ∧ memory s 0x102 .half = 0x2005) := by decide

/-- R62, R66: a load from a peripheral is recorded with its absolute address; a store only recorded. -/
theorem test_peripheral_store :
    (after (startOn withUart 0x100 0x5088 0 [(0, 0x12345678), (1, 0x40000000), (2, 4)] (nzcv 0) [])).peripheralLog =
      [⟨uart, .word, 0x40000004, .write 0x12345678⟩] := by decide

/-- `withFetchWord` makes the next step run exactly that instruction. -/
theorem test_withFetchWord :
    (after (State.reset.withFetchWord 16 0x200C)).reg 0 = 12 ∧
    (after (State.reset.withFetchWord 32 0xF000F880)).reg LR = 5 := by decide

/-! ## Witnesses: states and operands that meet the hypotheses of the statements -/

theorem inStorage_of_all {pf : Platform} {a : Word} {n : Nat} (hn : n ≤ 2 ^ 32) (h : (accessAddrs n a).all (isStorage pf) = true) :
    InStorage pf a n := by
  intro b hb
  rw [List.all_eq_true] at h
  exact h b ((mem_accessAddrs hn a b).2 hb)

/-- A started machine has the invariant. -/
def inv (s : State) : Bool :=
  Memory.wf s.mem && memBacked s.platform s.mem && s.reg PC == s.fetchPtr + 2 && !s.fetchPtr.getLsbD 0 && s.t && platformOk s.platform

theorem inv_sound {s : State} (h : inv s = true) : s.Inv := by
  simp only [inv, Bool.and_eq_true, beq_iff_eq, Bool.not_eq_true'] at h
  exact ⟨h.1.1.1.1.1, h.1.1.1.1.2, h.1.1.1.2, h.1.1.2, h.1.2, h.2⟩

theorem accessAllowed_of {s : State} {a : Word} {n : Nat} (h : a.toNat % n = 0) : AccessAllowed s a n := fun _ => h

def isRunning (s : State) : Bool := s.run == .running && platformOk s.platform

/-- DecodeReadsBackEveryEncoding, HintsAndCpsHaltAsUnimplemented: the ends of the range of the other hints, a 16- and a 32-bit term. -/
theorem witness_wellFormed :
    (Instr.hint 5).wf = true ∧ (Instr.hint 15).wf = true ∧ (Instr.addReg 1 0 0).wf = true ∧ (Instr.bl 0 0 1 1 0).wf = true := by decide

/-- EveryDecodedPairIsTheEncoding, LengthIsToldByTheFirstHalfword: a short and a long pair; 0xE7FF is the last halfword without a prefix. -/
theorem witness_decoded :
    decode 0x1840 0 = .ok (.addReg 1 0 0) ∧ decode 0xF000 0xF880 = .ok (.bl 0 0 1 1 0x80) ∧
    ¬((0xE7FF#16).extractLsb' 11 5 = 0b11101#5 ∨ (0xE7FF#16).extractLsb' 11 5 = 0b11110#5 ∨ (0xE7FF#16).extractLsb' 11 5 = 0b11111#5) :=
  ⟨rfl, rfl, by decide⟩

/-- DecodeEntriesOverlapInThreePairs: 0xDF00 matches two different entries, and the table itself and one with P30 and P31 exchanged keep the
pairs in order. -/
theorem witness_overlap :
    (⟨0xFF00, 0xDF00, none, .svc⟩ : DecodeRow) ∈ decodeTable ∧ (⟨0xF000, 0xD000, none, .condBranch⟩ : DecodeRow) ∈ decodeTable ∧
    (⟨0xFF00, 0xDF00, none, .svc⟩ : DecodeRow).matches 0xDF00 0 = true ∧
    (⟨0xF000, 0xD000, none, .condBranch⟩ : DecodeRow).matches 0xDF00 0 = true ∧
    decodeTable.Pairwise (fun x y => (y.cls, x.cls) ∉ shadowPairs) := by decide

/-- P1 to P29, then P31 before P30. -/
def otherOrder : List DecodeRow :=
  decodeTable.take 29 ++ [⟨0xF800, 0xE000, none, .branch⟩, ⟨0xF000, 0xD000, none, .condBranch⟩]

theorem witness_otherOrder :
    otherOrder.Perm decodeTable ∧ otherOrder.Pairwise (fun x y => (y.cls, x.cls) ∉ shadowPairs) := by
  refine ⟨?_, by decide⟩
  have h : decodeTable = decodeTable.take 29 ++ [⟨0xF000, 0xD000, none, .condBranch⟩, ⟨0xF800, 0xE000, none, .branch⟩] := rfl
  rw [h]
  exact (List.Perm.swap _ _ []).append_left _

/-- FlagPrimitivesAreExact: the values its equations name. -/
theorem witness_primitives : (0 : Word) = 0xFFFFFFFF + 1 + BitVec.ofNat 32 false.toNat ∧ (2 : Word) = 1 - 0xFFFFFFFF - BitVec.ofNat 32 (!true).toNat := by
  decide

/-- HiRegisterAddAndMove: both sides of d = 15 and the ends of the other range. -/
theorem witness_hiDestination : (0 : Reg) ≠ 15 ∧ (14 : Reg) ≠ 15 ∧ (15 : Reg) = 15 := by decide

/-- BranchAndExchange, LinkValuesAndTheirWriters: an odd and an even target, and a state with the invariant. -/
theorem witness_exchange :
    ((start 0x100 0x4708 0 [(1, 0x201)] (nzcv 0) []).reg 1).toNat % 2 = 1 ∧
    ((start 0x100 0x4708 0 [(1, 0x200)] (nzcv 0) []).reg 1).toNat % 2 = 0 ∧
    (advance (start 0x100 0x4778 0 [] (nzcv 0) [])).Inv :=
  ⟨by decide, by decide, (inv_sound (by decide)).advance⟩

/-- LinkValuesAndTheirWriters: a BL that changes LR. -/
theorem witness_linkWritten :
    ∃ t, exec (.bl 0 0 1 1 0) State.reset = .next t ∧ t.reg LR ≠ State.reset.reg LR := ⟨_, rfl, by decide⟩

/-- ConditionalBranches: one flag state for which each condition holds and one for which it does not (95_test_vectors.md section 5). -/
theorem witness_conditions :
    (nzcv 0b0100).z = true ∧ (nzcv 0b0000).z = false ∧ (nzcv 0b0010).c = true ∧ (nzcv 0b0000).c = false ∧
    (nzcv 0b1000).n = true ∧ (nzcv 0b0000).n = false ∧ (nzcv 0b0001).v = true ∧ (nzcv 0b0000).v = false ∧
    ((nzcv 0b0010).c = true ∧ (nzcv 0b0010).z = false) ∧ ¬((nzcv 0b0110).c = true ∧ (nzcv 0b0110).z = false) ∧
    ((nzcv 0b0000).c = false ∨ (nzcv 0b0000).z = true) ∧ ¬((nzcv 0b0010).c = false ∨ (nzcv 0b0010).z = true) ∧
    (nzcv 0b1001).n = (nzcv 0b1001).v ∧ (nzcv 0b1000).n ≠ (nzcv 0b1000).v ∧
    ((nzcv 0b0000).z = false ∧ (nzcv 0b0000).n = (nzcv 0b0000).v) ∧ ¬((nzcv 0b0100).z = false ∧ (nzcv 0b0100).n = (nzcv 0b0100).v) ∧
    ((nzcv 0b0100).z = true ∨ (nzcv 0b0100).n ≠ (nzcv 0b0100).v) ∧ ¬((nzcv 0b0000).z = true ∨ (nzcv 0b0000).n ≠ (nzcv 0b0000).v) := by
  decide

/-- RegisterOffsetLoads, PcSpAndImmediateOffsetLoads, StoresWriteOnlyTheirBytes: any address under bytewise, an aligned one under fault, at both
ends of the address space. -/
theorem witness_access :
    AccessAllowed State.reset 0xFFFFFFFD 4 ∧
    AccessAllowed (startOn strict 0x100 0x5888 0 [] (nzcv 0) []) 0x20000004 4 ∧
    AccessAllowed (startOn strict 0x100 0x5888 0 [] (nzcv 0) []) 0 4 ∧
    AccessAllowed (startOn strict 0x100 0x5A88 0 [] (nzcv 0) []) 0xFFFFFFFE 2 ∧ Memory.wf State.reset.mem = true :=
  ⟨fun h => absurd h (by decide), accessAllowed_of (by decide), accessAllowed_of (by decide), accessAllowed_of (by decide), rfl⟩

/-- MisalignedAccessesHaltUnderTheFaultPolicy: a word and a halfword access and a PUSH that are misaligned under fault; a running bytewise
state. -/
theorem witness_misaligned :
    (Instr.ldrReg 2 1 0).accessMisaligned (startOn strict 0x100 0x5888 0 [(1, 0x20000000), (2, 2)] (nzcv 0) []) ∧
    (Instr.strhReg 2 1 0).accessMisaligned (startOn strict 0x100 0x5288 0 [(1, 0x20000000), (2, 1)] (nzcv 0) []) ∧
    (Instr.push false 1).accessMisaligned (startOn strict 0x100 0xB401 0 [(13, 0x20000102)] (nzcv 0) []) ∧
    State.reset.platform.misaligned = .bytewise ∧ State.reset.run = .running ∧ ∃ t, exec (.ldrReg 2 1 0) State.reset = .next t :=
  ⟨⟨by decide, .inl ⟨0x20000002, .word, by decide, by decide⟩⟩, ⟨by decide, .inl ⟨0x20000001, .half, by decide, by decide⟩⟩,
    ⟨by decide, .inr ⟨0x200000FE, 1, by decide, by decide, by decide⟩⟩, rfl, rfl, ⟨_, rfl⟩⟩

/-- PushStoresBelowTheStackPointer, PopLoadsFromTheStackPointer, StoreMultipleWritesBackTheBase, LoadMultipleWritesBackUnlessLoaded,
EmptyListsChangeNothing: an aligned base under fault; a base in its own list and one outside. -/
theorem witness_multiple :
    AccessAllowed (startOn strict 0x100 0xB407 0 [(13, 0x20000100)] (nzcv 0) []) 0x200000F4 4 ∧
    AccessAllowed (startOn strict 0x100 0xB407 0 [(13, 0x20000100)] (nzcv 0) []) 0x20000100 4 ∧
    low 0 ∈ ascending 0b00000001 ∧ low 7 ∈ ascending 0b10000000 ∧ low 0 ∉ ascending 0b11111110 :=
  ⟨accessAllowed_of (by decide), accessAllowed_of (by decide), by decide, by decide, by decide⟩

/-- A state that pushes R0 and R1, and with LR. -/
def pushing : State := start 0x100 0xB403 0 [(0, 1), (1, 2), (13, 0x20000100), (14, 0x201)] (nzcv 0) []

/-- TransfersReadBackWhatWasStored, first clause: the second instruction runs in the state the first left. -/
theorem witness_pushPop :
    Memory.wf pushing.mem = true ∧ InStorage pushing.platform (pushing.reg SP - BitVec.ofNat 32 (4 * (ascending 3).length)) (4 * (ascending 3).length) ∧
    AccessAllowed pushing (pushing.reg SP - BitVec.ofNat 32 (4 * (ascending 3).length)) 4 ∧
    ∃ t u : State, exec (.push false 3) pushing = .next t ∧ u.platform = t.platform ∧ u.reg SP = t.reg SP ∧ ∀ a, u.byteAt a = t.byteAt a :=
  ⟨by decide, inStorage_of_all (by decide) (by decide), accessAllowed_of (by decide), _, _, rfl, rfl, rfl, fun _ => rfl⟩

/-- Second clause. -/
theorem witness_pushLrPopPc :
    InStorage pushing.platform (pushing.reg SP - BitVec.ofNat 32 (4 * ((ascending 3).length + 1))) (4 * ((ascending 3).length + 1)) ∧
    AccessAllowed pushing (pushing.reg SP - BitVec.ofNat 32 (4 * ((ascending 3).length + 1))) 4 ∧
    ∃ t u : State, exec (.push true 3) pushing = .next t ∧ u.platform = t.platform ∧ u.reg SP = t.reg SP ∧ ∀ a, u.byteAt a = t.byteAt a :=
  ⟨inStorage_of_all (by decide) (by decide), accessAllowed_of (by decide), _, _, rfl, rfl, rfl, fun _ => rfl⟩

/-- A state that stores R1 and R2 at R0. -/
def storing : State := start 0x100 0xC006 0 [(0, 0x20000000), (1, 0xA), (2, 0xB)] (nzcv 0) []

/-- Third clause: the base register is set again, the second list is disjoint and as long. -/
theorem witness_storeLoadMultiple :
    (ascending 0b00011000).length = (ascending 0b00000110).length ∧ Memory.wf storing.mem = true ∧
    InStorage storing.platform (storing.reg (low 0)) (4 * (ascending 0b00000110).length) ∧
    AccessAllowed storing (storing.reg (low 0)) 4 ∧
    ∃ t, exec (.stmia 0 0b00000110) storing = .next t ∧
      (t.setReg (low 0) (storing.reg (low 0))).platform = t.platform ∧
      (t.setReg (low 0) (storing.reg (low 0))).reg (low 0) = storing.reg (low 0) ∧
      ∀ a, (t.setReg (low 0) (storing.reg (low 0))).byteAt a = t.byteAt a :=
  ⟨by decide, by decide, inStorage_of_all (by decide) (by decide), accessAllowed_of (by decide), _, rfl, rfl, State.reg_setReg_self _ _ _,
    fun _ => rfl⟩

/-- StepRunsTheDecodedInstruction: a running state with an instruction, under the default and under the fault policy. -/
theorem witness_stepRuns :
    isRunning (start 0x100 0x1840 0 [] (nzcv 0) []) = true ∧
    isRunning (startOn strict 0x100 0x1840 0 [] (nzcv 0) []) = true ∧ (Instr.addReg 1 0 0).unpredictable = false ∧
    decode (start 0x100 0x1840 0 [] (nzcv 0) []).slot0 (start 0x100 0x1840 0 [] (nzcv 0) []).slot1 = .ok (.addReg 1 0 0) :=
  ⟨by decide, by decide, by decide, rfl⟩

/-- UnknownInstructionHaltsAtDecode: CBZ in slot0. -/
theorem witness_unknown :
    isRunning (start 0x100 0xB100 0 [] (nzcv 0) []) = true ∧
    ∀ i, decode (start 0x100 0xB100 0 [] (nzcv 0) []).slot0 (start 0x100 0xB100 0 [] (nzcv 0) []).slot1 ≠ .ok i := by
  refine ⟨by decide, fun i => ?_⟩
  have h : decode (start 0x100 0xB100 0 [] (nzcv 0) []).slot0 (start 0x100 0xB100 0 [] (nzcv 0) []).slot1 = .error (.unknownInstruction 0xB100) := rfl
  rw [h]
  exact fun h => nomatch h

/-- UnpredictableEncodingsHaltUnderTheFaultPolicy: CMP of two low registers in format 5 under the fault policy. -/
theorem witness_unpredictable :
    isRunning (startOn strict 0x100 0x4508 0 [] (nzcv 0) []) = true ∧
    decode (startOn strict 0x100 0x4508 0 [] (nzcv 0) []).slot0 0 = .ok (.cmpHi 1 0) ∧
    (startOn strict 0x100 0x4508 0 [] (nzcv 0) []).platform.unpred = .fault ∧ (Instr.cmpHi 1 0).unpredictable = true :=
  ⟨by decide, rfl, rfl, by decide⟩

/-- EveryStepKeepsTheInvariant, NoStepChangesThumbOrPlatform: a state with the invariant that steps. -/
theorem witness_invariantStep :
    (start 0x100 0xB403 0 [(13, 0x20000100)] (nzcv 0) []).Inv ∧ ∃ t, step (start 0x100 0xB403 0 [(13, 0x20000100)] (nzcv 0) []) = .next t :=
  ⟨inv_sound (by decide), _, rfl⟩

/-- BootedMachineHasTheInvariant, EveryAdmittedMachineSteps, RunLoopChecksThenCycles: admitted platforms, one of them with a region of one byte
and a peripheral. -/
theorem witness_platforms :
    platformOk Config.examplePlatform = true ∧ platformOk strict = true ∧
    platformOk { withUart with codeBegin := 8, codeEnd := 8 } = true := by decide

/-- EveryAdmittedMachineSteps: a halted state; a running state on a platform with BEGIN > END. -/
theorem witness_haltedAndRejected :
    ({ State.reset with run := .halted none } : State).run = .halted none ∧
    ({ State.reset with platform := { Config.examplePlatform with codeBegin := 9, codeEnd := 8 } } : State).run = .running ∧
    platformOk { Config.examplePlatform with codeBegin := 9, codeEnd := 8 } = false := by decide

/-- FatalErrorsArePrecise, FatalErrorsHaveTheseCausesOnly: a step that halts, and one that does not. -/
theorem witness_fatal :
    (start 0x100 0xBF00 0 [] (nzcv 0) []).run = .running ∧
    (∃ t err, step (start 0x100 0xBF00 0 [] (nzcv 0) []) = .next t ∧ t.run = .halted (some err)) ∧
    ∃ t, step (start 0x100 0x1840 0 [] (nzcv 0) []) = .next t ∧ t.run = .running :=
  ⟨rfl, ⟨_, _, rfl, rfl⟩, ⟨_, rfl, rfl⟩⟩

/-- OnlyListedInstructionsTransferControl: MOV does not transfer, B does and goes on. -/
theorem witness_transfer :
    (∃ t, exec (.movImm8 0 1) State.reset = .next t) ∧ (Instr.movImm8 0 1).mayTransfer State.reset.flags = false ∧
    (∃ t, exec (.b 0) State.reset = .next t ∧ ∀ err, t.run ≠ .halted err) ∧ (Instr.b 0).mayTransfer State.reset.flags = true :=
  ⟨⟨_, rfl⟩, rfl, ⟨_, rfl, fun _ h => nomatch h⟩, rfl⟩

/-- FlagsChangeOnlyAsTabled: one instruction of each row that keeps a flag. -/
theorem witness_flagRows :
    (Instr.ldrReg 2 1 0).flagEffect = .none ∧ (Instr.and 1 0).flagEffect = .nz ∧ (Instr.lslImm 1 1 0).flagEffect = .nzc ∧
    (∃ t, exec (.ldrReg 2 1 0) State.reset = .next t) ∧ (∃ t, exec (.and 1 0) State.reset = .next t) ∧
    ∃ t, exec (.lslImm 1 1 0) State.reset = .next t :=
  ⟨rfl, rfl, rfl, ⟨_, rfl⟩, ⟨_, rfl⟩, ⟨_, rfl⟩⟩

/-- RegistersChangeOnlyAsListed: a PUSH that changes SP. -/
theorem witness_spWritten : ∃ t, exec (.push false 1) State.reset = .next t ∧ t.reg SP ≠ State.reset.reg SP := ⟨_, rfl, by decide⟩

/-- MemoryChangesOnlyInStoredBytes: a load; a single store; a PUSH. -/
theorem witness_stores :
    (Instr.ldrReg 2 1 0).stores = false ∧ (Instr.strReg 2 1 0).stores = true ∧ Memory.wf State.reset.mem = true ∧
    (Instr.strReg 2 1 0).singleAccess State.reset = some (0, .word) ∧ (Instr.push true 1).multipleAccess State.reset = some (0xFFFFFFF8, 2) ∧
    (∃ t, exec (.strReg 2 1 0) State.reset = .next t) ∧ ∃ t, exec (.push true 1) State.reset = .next t :=
  ⟨rfl, rfl, rfl, by decide, by decide, ⟨_, rfl⟩, ⟨_, rfl⟩⟩

/-- ArrayAccessesAreLittleEndian: the first word of the code array and the last of the SRAM array. -/
theorem witness_arrays :
    contained Config.examplePlatform 0 .word = true ∧ route Config.examplePlatform 0 = .code ∧
    contained Config.examplePlatform 0x2000FFFC .word = true ∧ route Config.examplePlatform 0x2000FFFC = .sram := by decide

/-- UnmappedAndStraddlingAccesses: the byte after SRAM; accesses across the end of each array and across the top of the address space. -/
theorem witness_unmappedAndStraddling :
    contained Config.examplePlatform 0x20010000 .word = true ∧ route Config.examplePlatform 0x20010000 = .unmapped ∧
    contained Config.examplePlatform 0xFFFF .half = false ∧ contained Config.examplePlatform 0x2000FFFE .word = false ∧
    contained Config.examplePlatform 0xFFFFFFFE .word = false := by decide

/-- PeripheralAccessesDrawAndRecord: the first and the last word of the peripheral. -/
theorem witness_peripheral :
    contained withUart 0x40000000 .word = true ∧ route withUart 0x40000000 = .peripheral uart ∧
    contained withUart 0x4000000C .word = true ∧ route withUart 0x4000000C = .peripheral uart ∧ route withUart 0x40000010 = .unmapped := by
  decide

/-- NarrowReadsSeeTheBytesOfAWideWrite: the last byte, the upper halfword, the word. -/
theorem witness_narrow :
    Memory.wf State.reset.mem = true ∧ InStorage State.reset.platform 0x20000000 4 ∧ 3 + Width.byte.bytes ≤ 4 ∧ 2 + Width.half.bytes ≤ 4 ∧
    0 + Width.word.bytes ≤ 4 :=
  ⟨rfl, inStorage_of_all (by decide) (by decide), by decide, by decide, by decide⟩

/-- RegistrationRefusesConflicts: a candidate that starts inside, one that reaches over the start, one that touches the end and does not
conflict. -/
theorem witness_registration :
    register ⟨0x4000000F, 0x40000020, "a"⟩ [uart] = .error ⟨⟨0x4000000F, 0x40000020, "a"⟩, uart⟩ ∧
    register ⟨0x3FFFFFF0, 0x40000001, "b"⟩ [uart] = .error ⟨⟨0x3FFFFFF0, 0x40000001, "b"⟩, uart⟩ ∧
    register ⟨0x40000010, 0x40000020, "c"⟩ [uart] = .ok [uart, ⟨0x40000010, 0x40000020, "c"⟩] ∧ registryOk [uart] = true :=
  ⟨rfl, rfl, rfl, rfl⟩

/-- StoresAreSeenByFetchAfterTwoHalfwords, first clause: a store and a move (R304, variant D2). -/
def hazard : State := start 0x100 0x8081 0x2202 [(0, 0x100), (1, 0x2005)] (nzcv 0) [⟨0x104, .half, 0x2001⟩]

theorem witness_hazard :
    hazard.run = .running ∧ decode hazard.slot0 hazard.slot1 = .ok (.strhImm 2 0 1) ∧ (Instr.strhImm 2 0 1).mayTransfer hazard.flags = false ∧
    step hazard = .next (after hazard) ∧ (after hazard).run = .running ∧
    decode (after hazard).slot0 (after hazard).slot1 = .ok (.movImm8 2 2) ∧ ∃ u, step (after hazard) = .next u :=
  ⟨rfl, rfl, rfl, rfl, rfl, rfl, _, rfl⟩

/-- Second clause: a branch to an array address (R304, variant D4). -/
theorem witness_refetch :
    (start 0x100 0xE7FF 0 [] (nzcv 0) []).run = .running ∧ (Instr.b 0x7FF).mayTransfer (nzcv 0) = true ∧
    (∃ t, step (start 0x100 0xE7FF 0 [] (nzcv 0) []) = .next t ∧ t.run = .running ∧ t.fetchPtr = 0x102) ∧
    InStorage Config.examplePlatform 0x102 4 :=
  ⟨rfl, rfl, ⟨_, rfl, rfl, by decide⟩, inStorage_of_all (by decide) (by decide)⟩

/-- RunLoopChecksThenCycles: a halted state, a running one, a spent and an unspent budget. -/
theorem witness_runLoop :
    ({ State.reset with run := .halted none } : State).run ≠ .running ∧ State.reset.run = .running ∧ (some 1 : Option Nat) ≠ some 0 ∧
    (none : Option Nat) ≠ some 0 := by decide

/-- R284: the verbose run of one fatal BKPT at 0x100 has a record, the silent one has none, and both leave the same state. -/
theorem test_verbose_trace :
    (runFor true 1 (start 0x100 0xBE07 0 [] (nzcv 0) [])).trace = [⟨0xBE07, none, 0x100⟩] ∧
    (runFor false 1 (start 0x100 0xBE07 0 [] (nzcv 0) [])).trace = [] ∧
    (runFor true 1 (start 0x100 0xBE07 0 [] (nzcv 0) [])).state = (runFor false 1 (start 0x100 0xBE07 0 [] (nzcv 0) [])).state := by decide

/-- CompareThenConditionDecidesTheOrder: a comparison of -1 with 1, which order differently as signed and as unsigned. -/
theorem witness_compare :
    ∃ t, exec (.cmpReg 1 0) (start 0x100 0x4288 0 [(0, 0xFFFFFFFF), (1, 1)] (nzcv 0) []) = .next t ∧ condHolds .hi t.flags = true ∧
      condHolds .lt t.flags = true := ⟨_, rfl, by decide, by decide⟩

end Sys2Proof.Tests
end

section
/-! SUPPORT. What one step can do, said once: its inversion, that an admitted platform always has a next state, and that the platform stays. -/

namespace Sys2Proof.Machine

variable {s t : State}

/-! ## Every meaning answers a next state -/

theorem exists_next_ite {c : Prop} {_ : Decidable c} {x y : Outcome} (hx : ∃ t, x = .next t) (hy : ∃ t, y = .next t) :
    ∃ t, (if c then x else y) = .next t := by
  split
  · exact hx
  · exact hy

theorem loadReg_total (rd : LowReg) (ea : Word) (w : Width) (e : Extension) (s : State) : ∃ t, loadReg rd ea w e s = .next t :=
  exists_next_ite ⟨_, raise_eq ..⟩ ⟨_, rfl⟩

theorem storeReg_total (rd : LowReg) (ea : Word) (w : Width) (s : State) : ∃ t, storeReg rd ea w s = .next t :=
  exists_next_ite ⟨_, raise_eq ..⟩ ⟨_, rfl⟩

/-- The loads, the stores, the checked branches and the transfers of a list choose between a result and a fatal error; the other meanings are
one next state as they stand. -/
theorem exec_total (i : Instr) (s : State) : ∃ t, exec i s = .next t := by
  cases i with
  | ldrPc | ldrReg | ldrbReg | ldrhReg | ldsb | ldsh | ldrImm | ldrbImm | ldrhImm | ldrSp => exact loadReg_total ..
  | strReg | strbReg | strhReg | strImm | strbImm | strhImm | strSp => exact storeReg_total ..
  | bx | blx => exact exists_next_ite ⟨_, rfl⟩ ⟨_, raise_eq ..⟩
  | push | pop | stmia | ldmia => exact exists_next_ite ⟨_, raise_eq ..⟩ ⟨_, rfl⟩
  | _ => exact ⟨_, rfl⟩

/-! ## The step -/

theorem step_of_not_running (h : s.run ≠ .running) : step s = .next s := by
  unfold step
  cases hr : s.run with
  | halted err => rfl
  | running => exact absurd hr h

theorem step_of_decode_error (hr : s.run = .running) (hp : platformOk s.platform = true) {cause : FatalCause}
    (hd : decodeFetched s.platform s.slot0 s.slot1 = .error cause) : step s = .next (haltedAt cause (advance s)) := by
  simp [step, hr, hp, hd, raise_eq]

theorem step_of_decode_ok (hr : s.run = .running) (hp : platformOk s.platform = true) {i : Instr}
    (hd : decodeFetched s.platform s.slot0 s.slot1 = .ok i) : step s = exec i (advance s) := by
  simp [step, hr, hp, hd]

theorem step_of_refused_platform (hr : s.run = .running) (hp : platformOk s.platform = false) : step s = .refused .platformRejected := by
  simp [step, hr, hp]

/-- R288: an admitted machine always steps. -/
theorem step_total (hp : platformOk s.platform = true) : ∃ t, step s = .next t := by
  by_cases hr : s.run = .running
  · cases hd : decodeFetched s.platform s.slot0 s.slot1 with
    | error cause => exact ⟨_, step_of_decode_error hr hp hd⟩
    | ok i => rw [step_of_decode_ok hr hp hd]; exact exec_total i _
  · exact ⟨s, step_of_not_running hr⟩

/-- Everything a step can do: a halted core stays, a running one halts at decode or executes the decoded instruction. -/
theorem step_cases (h : step s = .next t) :
    (s.run ≠ .running ∧ t = s) ∨
    (s.run = .running ∧ platformOk s.platform = true ∧
      ((∃ cause, decodeFetched s.platform s.slot0 s.slot1 = .error cause ∧ t = haltedAt cause (advance s)) ∨
       ∃ i, decodeFetched s.platform s.slot0 s.slot1 = .ok i ∧ exec i (advance s) = .next t)) := by
  by_cases hr : s.run = .running
  · cases hp : platformOk s.platform with
    | false => rw [step_of_refused_platform hr hp] at h; cases h
    | true =>
      refine .inr ⟨hr, rfl, ?_⟩
      cases hd : decodeFetched s.platform s.slot0 s.slot1 with
      | error cause => rw [step_of_decode_error hr hp hd] at h; cases h; exact .inl ⟨cause, rfl, rfl⟩
      | ok i => rw [step_of_decode_ok hr hp hd] at h; exact .inr ⟨i, rfl, h⟩
  · rw [step_of_not_running hr] at h; cases h; exact .inl ⟨hr, rfl⟩

theorem Effect.platform_eq {i : Instr} (h : Effect i s t) : t.platform = s.platform := by
  cases h <;> simp

theorem step_platform (h : step s = .next t) : t.platform = s.platform := by
  rcases step_cases h with ⟨_, rfl⟩ | ⟨_, _, ⟨_, _, rfl⟩ | ⟨_, _, hi⟩⟩
  · rfl
  · rfl
  · exact (exec_effect hi).platform_eq

end Sys2Proof.Machine
end

section
/-! SUPPORT. The run loop (10_state.md R50): one equation per outcome of an iteration's checks, and the obligation about it. -/

namespace Sys2Proof.Machine

variable {s t : State}

/-! ## One iteration of the run loop -/

section iteration
variable {verbose h : Bool} {hs : List Bool} {budget : Option Nat}

theorem runLoop_of_not_running (hr : s.run ≠ .running) : runLoop verbose (h :: hs) budget s = ⟨s, budget, .notRunning, []⟩ := by
  simp [runLoop, hr]

theorem runLoop_of_halt_requested (hr : s.run = .running) :
    runLoop verbose (true :: hs) budget s = ⟨{ s with run := .halted none }, budget, .haltRequested, []⟩ := by
  simp [runLoop, hr]

theorem runLoop_of_budget_spent (hr : s.run = .running) :
    runLoop verbose (false :: hs) (some 0) s = ⟨s, some 0, .budgetExhausted, []⟩ := by
  simp [runLoop, hr]

theorem runLoop_of_refused (hr : s.run = .running) (hb : budget ≠ some 0) {r : Refusal} (hstep : step s = .refused r) :
    runLoop verbose (false :: hs) budget s = ⟨s, budget, .stepRefused r, []⟩ := by
  simp [runLoop, hr, hb, hstep]

/-- A cycle: what the run leaves is what the later run leaves, with the cycle's record in front under VERBOSE. -/
theorem runLoop_of_cycle (hr : s.run = .running) (hb : budget ≠ some 0) (hstep : step s = .next t) :
    runLoop verbose (false :: hs) budget s =
      { runLoop verbose hs (budget.map (· - 1)) t with
        trace := if verbose = true then traceRecord s :: (runLoop verbose hs (budget.map (· - 1)) t).trace
          else (runLoop verbose hs (budget.map (· - 1)) t).trace } := by
  cases verbose <;> simp [runLoop, hr, hb, hstep]

end iteration

/-! ## VERBOSE and the trace -/

/-- VERBOSE selects the records and nothing else (R13, R284). -/
theorem runLoop_silent (hs : List Bool) (budget : Option Nat) (s : State) :
    runLoop false hs budget s = { runLoop true hs budget s with trace := [] } := by
  induction hs generalizing budget s with
  | nil => rfl
  | cons h hs ih =>
    by_cases hr : s.run = .running
    · cases h with
      | true => rw [runLoop_of_halt_requested hr, runLoop_of_halt_requested hr]
      | false =>
        by_cases hb : budget = some 0
        · subst hb
          rw [runLoop_of_budget_spent hr, runLoop_of_budget_spent hr]
        · cases hstep : step s with
          | next t => rw [runLoop_of_cycle hr hb hstep, runLoop_of_cycle hr hb hstep, ih]; rfl
          | fault r => cases r
          | refused r => rw [runLoop_of_refused hr hb hstep, runLoop_of_refused hr hb hstep]
    · rw [runLoop_of_not_running hr, runLoop_of_not_running hr]

/-- A record has the second halfword exactly for an instruction of two halfwords (R284). -/
theorem traceRecord_hw2 (s : State) :
    (traceRecord s).hw2 = some s.slot1 ↔ ∃ i, decode s.slot0 s.slot1 = .ok i ∧ i.isLong = true := by
  unfold traceRecord
  cases decode s.slot0 s.slot1 <;> simp

/-! ## A run for n instructions -/

theorem machine_run_succ {M : Host.Core} (n : Nat) {s t : M.State} (hstep : M.step s = .next t) : M.run (n + 1) s = M.run n t := by
  rw [Host.Core.run, hstep]

theorem core_run_succ (n : Nat) (hstep : step s = .next t) : Host.Core.run core (n + 1) s = Host.Core.run core n t :=
  machine_run_succ (M := core) n hstep

theorem core_run_of_not_running (n : Nat) (hr : s.run ≠ .running) : Host.Core.run core n s = .next s := by
  induction n with
  | zero => rfl
  | succ n ih => rw [core_run_succ n (step_of_not_running hr), ih]

theorem runFor_of_not_running (verbose : Bool) (n : Nat) (hr : s.run ≠ .running) : (runFor verbose n s).state = s := by
  rw [runFor, List.replicate_succ, runLoop_of_not_running hr]

theorem runFor_zero_state (verbose : Bool) (hr : s.run = .running) : (runFor verbose 0 s).state = s := by
  rw [runFor, List.replicate_succ, runLoop_of_budget_spent hr]

theorem runFor_succ_state (verbose : Bool) (n : Nat) (hr : s.run = .running) (hstep : step s = .next t) :
    (runFor verbose (n + 1) s).state = (runFor verbose n t).state := by
  rw [runFor, List.replicate_succ, runLoop_of_cycle hr (by simp) hstep]
  rfl

theorem core_run_eq_runFor (verbose : Bool) (n : Nat) (hp : platformOk s.platform = true) :
    Host.Core.run core n s = .next (runFor verbose n s).state := by
  induction n generalizing s with
  | zero =>
    by_cases hr : s.run = .running
    · rw [runFor_zero_state verbose hr]; rfl
    · rw [runFor_of_not_running verbose 0 hr]; rfl
  | succ n ih =>
    by_cases hr : s.run = .running
    · obtain ⟨t, hstep⟩ := step_total hp
      have ht : platformOk t.platform = true := by rw [step_platform hstep]; exact hp
      rw [core_run_succ n hstep, ih ht, runFor_succ_state verbose n hr hstep]
    · rw [core_run_of_not_running (n + 1) hr, runFor_of_not_running verbose (n + 1) hr]

/-- Settles O58: the four outcomes of an iteration's checks are the `runLoop_of_…` equations; the run for n instructions follows the steps by
induction on n, for which the platform has to stay admitted. -/
theorem runLoopChecksThenCycles : Obligations.RunLoopChecksThenCycles := by
  unfold Obligations.RunLoopChecksThenCycles
  refine ⟨fun verbose h hs budget s => ⟨runLoop_of_not_running, ?_, ?_, ?_⟩, fun s => ⟨rfl, rfl, traceRecord_hw2 s⟩, runLoop_silent,
    fun verbose n s => core_run_eq_runFor verbose n, fun _ _ _ => rfl⟩
  · rintro hr rfl
    exact runLoop_of_halt_requested hr
  · rintro hr rfl rfl
    exact runLoop_of_budget_spent hr
  · rintro hr rfl hb hp
    obtain ⟨t, hstep⟩ := step_total hp
    exact ⟨t, hstep, runLoop_of_cycle hr hb hstep⟩

end Sys2Proof.Machine
end

section
/-! SUPPORT. The state and its fetch unit over one step (10_state.md): what Advance and BranchTo leave, and what every effect of an instruction
keeps of the invariant, of the registers and of the fetch unit. -/

namespace Sys2Proof.Machine

variable {s t : State} {i : Instr}

/-! ## Advance and BranchTo leave all but the fetch unit -/

/-- Settles O37: the fields Advance writes are its equations of Laws/State; every register but R15 is untouched. -/
theorem advanceShiftsAndRefills : Obligations.AdvanceShiftsAndRefills := by
  unfold Obligations.AdvanceShiftsAndRefills
  intro s
  have hsum : s.fetchPtr + 2 + 2 = s.fetchPtr + 4 := BitVec.add_assoc ..
  have hpc : s.fetchPtr + 4 = (advance s).fetchPtr + 2 := by rw [advance_fetchPtr, hsum]
  refine ⟨advance_slot0 s, advance_fetchPtr s, ?slot1, (advance_reg_pc s).trans hpc, ?log, ?regs, rfl, fun _ => rfl, rfl, ⟨rfl, rfl⟩⟩
  case slot1 => rw [advance_slot1, hsum, BitVec.ofNat_toNat]
  case log => rw [advance_peripheralLog, hsum]
  case regs => exact fun r hr _ => by rw [advance_reg, if_neg hr]

/-- Settles O38: likewise for BranchTo, whose second read sees the peripherals' history of the first. -/
theorem branchToReseedsTheFetchUnit : Obligations.BranchToReseedsTheFetchUnit := by
  unfold Obligations.BranchToReseedsTheFetchUnit
  intro target s
  refine ⟨branchTo_fetchPtr s target, ?slot0, ?slot1, branchTo_reg_pc s target, rfl, ?regs, rfl, fun _ => rfl, rfl, ⟨rfl, rfl⟩⟩
  case slot0 => rw [branchTo_slot0, BitVec.ofNat_toNat]
  case slot1 => rw [branchTo_slot1, BitVec.ofNat_toNat]
  case regs => exact fun r hr _ => by rw [branchTo_reg, if_neg hr]

/-! ## The step executes the decoded instruction -/

theorem decodeFetched_of_decode {pf : Platform} {hw1 hw2 : Half} (hd : decode hw1 hw2 = .ok i)
    (hu : pf.unpred = .fault → i.unpredictable = false) : decodeFetched pf hw1 hw2 = .ok i := by
  have hallowed : ¬ (pf.unpred = .fault ∧ i.unpredictable = true) := fun h => by simp [hu h.1] at h
  simp only [decodeFetched, hd, if_neg hallowed]

/-- Settles O34: such a pair reaches `exec`, for the policy does not turn it away. -/
theorem stepRunsTheDecodedInstruction : Obligations.StepRunsTheDecodedInstruction := by
  unfold Obligations.StepRunsTheDecodedInstruction
  exact fun _ _ hr hp hd hu => step_of_decode_ok hr hp (decodeFetched_of_decode hd hu)

/-! ## T and the platform -/

theorem Effect.t_eq (h : Effect i s t) : t.t = s.t := by
  cases h <;> simp

theorem step_t (h : step s = .next t) : t.t = s.t := by
  rcases step_cases h with ⟨_, rfl⟩ | ⟨_, _, ⟨_, _, rfl⟩ | ⟨_, _, hi⟩⟩
  · rfl
  · rfl
  · exact (exec_effect hi).t_eq

/-- Settles O50: no effect of an instruction, nor Advance, writes either field. -/
theorem noStepChangesThumbOrPlatform : Obligations.NoStepChangesThumbOrPlatform := by
  unfold Obligations.NoStepChangesThumbOrPlatform
  exact fun _ _ h => ⟨step_t h, step_platform h⟩

/-! ## The invariant -/

/-- The lists of the load effects do not name R15. -/
theorem pc_not_mem {list : List Reg} {p : Reg → Prop} (hl : ∀ r ∈ list, p r ∧ r ≠ PC) : PC ∉ list :=
  fun h => (hl PC h).2 rfl

/-- Each effect is made of operations that keep the invariant: R15 is written by BranchTo alone. -/
theorem Effect.inv (h : Effect i s t) (hs : s.Inv) : t.Inv := by
  cases h with
  | same => exact hs
  | halted cause => exact hs.haltedAt cause
  | flags f => exact hs.setFlags f
  | result r v f _ hpc => exact (hs.setReg hpc v).setFlags f
  | reg r v _ hpc => exact hs.setReg hpc v
  | load a w r v _ hpc => exact (hs.read a w).setReg hpc v
  | store a w v => exact hs.write a w v
  | storeList list base r v _ _ _ _ _ hpc => exact (hs.storeList list base).setReg hpc v
  | loadList list base hl => exact hs.loadList (pc_not_mem hl) base
  | loadListBase list base r v hl _ hpc => exact (hs.loadList (pc_not_mem hl) base).setReg hpc v
  | branch target => exact hs.branchTo target
  | link target v => exact (hs.setReg (by decide) v).branchTo target
  | popPc list base top v target _ hl =>
    exact (((hs.loadList (pc_not_mem hl) base).read top .word).setReg (by decide) v).branchTo target

/-- Settles O40: Advance keeps the invariant, and so does what follows it, a fatal error or any effect of an instruction. -/
theorem everyStepKeepsTheInvariant : Obligations.EveryStepKeepsTheInvariant := by
  unfold Obligations.EveryStepKeepsTheInvariant
  intro s t hs h
  rcases step_cases h with ⟨_, rfl⟩ | ⟨_, _, ⟨cause, _, rfl⟩ | ⟨_, _, hi⟩⟩
  · exact hs
  · exact hs.advance.haltedAt cause
  · exact (exec_effect hi).inv hs.advance

/-! ## The registers an instruction writes -/

/-- A chain of updates writes the registers of its parts. -/
theorem SameRegsExcept.trans {written : List Reg} {u : State} (h : SameRegsExcept written s t) (h' : SameRegsExcept written t u) :
    SameRegsExcept written s u :=
  fun r hpc hr => (h' r hpc hr).trans (h r hpc hr)

theorem sameRegsExcept_setReg {written : List Reg} {r : Reg} (hr : r ∈ written) (v : Word) (s : State) :
    SameRegsExcept written s (s.setReg r v) :=
  fun _ _ hq => State.reg_setReg_of_ne _ _ (fun h => hq (h ▸ hr))

theorem sameRegsExcept_branchTo {written : List Reg} (target : Word) (s : State) : SameRegsExcept written s (branchTo target s) :=
  fun r hpc _ => by rw [branchTo_reg, if_neg hpc]

theorem sameRegsExcept_loadList {written list : List Reg} (hl : ∀ r ∈ list, r ∈ written ∧ r ≠ PC) (base : Word) (s : State) :
    SameRegsExcept written s (loadList list base s) :=
  fun r _ hr => loadList_reg_of_not_mem (fun h => hr (hl r h).1)

theorem sameRegsExcept_storeList {written : List Reg} (list : List Reg) (base : Word) (s : State) :
    SameRegsExcept written s (storeList list base s) :=
  fun _ _ _ => storeList_reg ..

/-- Each effect writes, beside R15, registers its instruction names only. -/
theorem Effect.sameRegsExcept (h : Effect i s t) : SameRegsExcept i.writesRegs s t := by
  cases h with
  | same | halted | flags | store => exact fun _ _ _ => rfl
  | result r v f hr => exact sameRegsExcept_setReg hr v s
  | reg r v hr => exact sameRegsExcept_setReg hr v s
  | load a w r v hr => exact sameRegsExcept_setReg hr v (s.read a w).2
  | storeList list base r v _ _ _ _ hr =>
    exact (sameRegsExcept_storeList list base s).trans (sameRegsExcept_setReg hr v _)
  | loadList list base hl => exact sameRegsExcept_loadList hl base s
  | loadListBase list base r v hl hr => exact (sameRegsExcept_loadList hl base s).trans (sameRegsExcept_setReg hr v _)
  | branch target => exact sameRegsExcept_branchTo target s
  | link target v _ hr => exact (sameRegsExcept_setReg hr v s).trans (sameRegsExcept_branchTo target _)
  | popPc list base top v target _ hl hr =>
    have hread : SameRegsExcept i.writesRegs s ((Machine.loadList list base s).read top .word).2 := sameRegsExcept_loadList hl base s
    exact (hread.trans (sameRegsExcept_setReg hr v _)).trans (sameRegsExcept_branchTo target _)

/-- SP is no low register, so only the forms that name it or a register R0 to R15 list it (R32). -/
theorem writes_sp (h : SP ∈ i.writesRegs) :
    (∃ imm7, i = .addSp imm7 ∨ i = .subSp imm7) ∨ (∃ lr rlist, i = .push lr rlist) ∨ (∃ pc rlist, i = .pop pc rlist) ∨
      ∃ m, i = .addHi m 13 ∨ i = .movHi m 13 := by
  have hlow : ∀ {rd : LowReg}, SP ∉ [low rd] := fun h => low_ne_sp _ (List.mem_singleton.1 h).symm
  cases i with
  | addSp imm7 => exact .inl ⟨imm7, .inl rfl⟩
  | subSp imm7 => exact .inl ⟨imm7, .inr rfl⟩
  | push lr rlist => exact .inr (.inl ⟨lr, rlist, rfl⟩)
  | pop pc rlist => exact .inr (.inr (.inl ⟨pc, rlist, rfl⟩))
  | addHi m d => rw [← List.mem_singleton.1 h]; exact .inr (.inr (.inr ⟨m, .inl rfl⟩))
  | movHi m d => rw [← List.mem_singleton.1 h]; exact .inr (.inr (.inr ⟨m, .inr rfl⟩))
  | ldmia rb rlist =>
    rcases List.mem_cons.1 h with h | h
    · exact absurd h.symm (low_ne_sp rb)
    · exact absurd rfl (listedRegs_ne_sp h)
  | blx | bl => exact absurd (List.mem_singleton.1 h) (by decide)
  | cmpImm8 | tst | cmpReg | cmn | cmpHi | bx | strReg | strbReg | strhReg | strImm | strbImm | strhImm | strSp | beq | bne | bcs | bcc
  | bmi | bpl | bvs | bvc | bhi | bls | bge | blt | bgt | ble | bUndefined | svc | b | nop | yield | wfe | wfi | sev | hint | cpsie | cpsid
  | bkpt | dsb | dmb | isb => exact absurd h List.not_mem_nil
  | _ => exact absurd h hlow

/-- Settles O48: the list of an instruction bounds what it writes, and SP stands in the lists of these forms only. -/
theorem registersChangeOnlyAsListed : Obligations.RegistersChangeOnlyAsListed := by
  unfold Obligations.RegistersChangeOnlyAsListed
  refine ⟨fun i s t h => (exec_effect h).sameRegsExcept, fun i s t h hsp => writes_sp ?_⟩
  by_contra hnot
  exact hsp ((exec_effect h).sameRegsExcept SP (by decide) hnot)

/-! ## Control transfer -/

theorem reg_pc_setReg {r : Reg} (hpc : r ≠ PC) (v : Word) (s : State) : (s.setReg r v).reg PC = s.reg PC :=
  State.reg_setReg_of_ne _ _ (Ne.symm hpc)

/-- An effect that is no branch leaves the fetch unit as it is. -/
theorem Effect.continues (h : Effect i s t) (hn : i.mayTransfer s.flags = false) :
    t.fetchPtr = s.fetchPtr ∧ t.slot0 = s.slot0 ∧ t.slot1 = s.slot1 ∧ t.reg PC = s.reg PC := by
  cases h with
  | same | halted | flags | store => exact ⟨rfl, rfl, rfl, rfl⟩
  | result r v f _ hpc => exact ⟨rfl, rfl, rfl, reg_pc_setReg hpc v s⟩
  | reg r v _ hpc => exact ⟨rfl, rfl, rfl, reg_pc_setReg hpc v s⟩
  | load a w r v _ hpc => exact ⟨rfl, rfl, rfl, reg_pc_setReg hpc v _⟩
  | storeList list base r v _ _ _ _ _ hpc => simp [reg_pc_setReg hpc]
  | loadList list base hl => simp [loadList_reg_of_not_mem (pc_not_mem hl)]
  | loadListBase list base r v hl _ hpc => simp [reg_pc_setReg hpc, loadList_reg_of_not_mem (pc_not_mem hl)]
  | branch _ ht | link _ _ ht | popPc _ _ _ _ _ ht => rw [ht] at hn; cases hn

theorem branchIf_taken {c : Cond} {imm8 : BitVec 8} (hc : condHolds c s.flags = true) :
    branchIf c imm8 s = .next (branchTo (s.reg PC + branchOffset imm8) s) := by
  rw [branchIf_eq, if_pos hc]

/-- A conditional branch whose condition holds is taken (R237). -/
theorem exec_of_condition (h : i.condition s.flags = some true) : ∃ target, exec i s = .next (branchTo target s) := by
  cases i with
  | beq | bne | bcs | bcc | bmi | bpl | bvs | bvc | bhi | bls | bge | blt | bgt | ble =>
    exact ⟨_, branchIf_taken (by simpa [Instr.condition, condHolds] using h)⟩
  | _ => cases h

/-- An instruction that may transfer control halts the run, for an even target or a misaligned SP, or ends in BranchTo (R46). -/
theorem transfer_cases (h : exec i s = .next t) (ht : i.mayTransfer s.flags = true) :
    (∃ cause, t = haltedAt cause s) ∨ ∃ target u, t = branchTo target u := by
  cases i with
  | b | bl => cases h; exact .inr ⟨_, _, rfl⟩
  | bx | blx =>
    simp only [exec, execBx, execBlx] at h
    split at h
    · cases h; exact .inr ⟨_, _, rfl⟩
    · cases h; exact .inl ⟨_, rfl⟩
  | pop pc rlist =>
    have hpc : pc = true := ht
    simp only [exec, execPop, hpc] at h
    split at h
    · cases h; exact .inl ⟨_, rfl⟩
    · cases h; exact .inr ⟨_, _, rfl⟩
  | addHi m d | movHi m d =>
    have hd : d = PC := eq_of_beq ht
    subst hd
    cases h
    exact .inr ⟨_, s, writeHi_pc _ s⟩
  | _ =>
    obtain ⟨target, htaken⟩ := exec_of_condition (eq_of_beq ht)
    rw [htaken] at h
    cases h
    exact .inr ⟨target, s, rfl⟩

/-- Settles O46: an effect outside the list leaves the fetch unit alone; one on the list branches unless it halts. -/
theorem onlyListedInstructionsTransferControl : Obligations.OnlyListedInstructionsTransferControl := by
  unfold Obligations.OnlyListedInstructionsTransferControl
  refine fun i s t h => ⟨(exec_effect h).continues, fun ht _ hnot => ?_⟩
  rcases transfer_cases h ht with ⟨_, rfl⟩ | hbranch
  · exact absurd rfl (hnot _)
  · exact hbranch

end Sys2Proof.Machine
end

section
/-! SUPPORT. The MMU and the registry (20_memory.md): the router in terms of the bounds, each kind of access as an equation of the state, and
registration as a search. -/

namespace Sys2Proof.Machine

/-! ## The router -/

theorem inPeripheral_iff (p : Peripheral) (a : Word) : inPeripheral p a = true ↔ p.start.toNat ≤ a.toNat ∧ a.toNat < p.stop.toNat := by
  simp [inPeripheral, BitVec.le_def, BitVec.lt_def]

/-- The element a search stops at, and those before it, which it passes over. -/
theorem find_eq_some_iff_first {α : Type} {p : α → Bool} {l : List α} {x : α} :
    l.find? p = some x ↔ ∃ before after, l = before ++ x :: after ∧ p x = true ∧ ∀ y ∈ before, ¬p y = true := by
  simp only [List.find?_eq_some_iff_append, Bool.not_eq_true', Bool.not_eq_true]
  exact ⟨fun ⟨hx, before, after, hl, hy⟩ => ⟨before, after, hl, hx, hy⟩, fun ⟨before, after, hl, hx, hy⟩ => ⟨hx, before, after, hl, hy⟩⟩

/-- Where an address can route (R62): the arrays in order, then what the scan of the registry finds. -/
theorem route_cases (pf : Platform) (a : Word) :
    ((pf.codeBegin ≤ a ∧ a ≤ pf.codeEnd) ∧ route pf a = .code) ∨
    (¬(pf.codeBegin ≤ a ∧ a ≤ pf.codeEnd) ∧ (pf.sramBegin ≤ a ∧ a ≤ pf.sramEnd) ∧ route pf a = .sram) ∨
    (¬(pf.codeBegin ≤ a ∧ a ≤ pf.codeEnd) ∧ ¬(pf.sramBegin ≤ a ∧ a ≤ pf.sramEnd) ∧
      ((∃ p, pf.peripherals.find? (inPeripheral · a) = some p ∧ route pf a = .peripheral p) ∨
       (pf.peripherals.find? (inPeripheral · a) = none ∧ route pf a = .unmapped))) := by
  unfold route
  split
  · next hcode => exact .inl ⟨hcode, rfl⟩
  · next hcode =>
    split
    · next hsram => exact .inr (.inl ⟨hcode, hsram, rfl⟩)
    · next hsram =>
      refine .inr (.inr ⟨hcode, hsram, ?_⟩)
      cases pf.peripherals.find? (inPeripheral · a) with
      | some p => exact .inl ⟨p, rfl, rfl⟩
      | none => exact .inr ⟨rfl, rfl⟩

section routes
variable {pf : Platform} {a : Word}

theorem route_eq_code_iff : route pf a = .code ↔ pf.codeBegin ≤ a ∧ a ≤ pf.codeEnd := by
  rcases route_cases pf a with ⟨hcode, hr⟩ | ⟨hcode, _, hr⟩ | ⟨hcode, _, ⟨_, _, hr⟩ | ⟨_, hr⟩⟩ <;> simp [hr, hcode]

theorem route_eq_sram_iff :
    route pf a = .sram ↔ ¬(pf.codeBegin ≤ a ∧ a ≤ pf.codeEnd) ∧ (pf.sramBegin ≤ a ∧ a ≤ pf.sramEnd) := by
  rcases route_cases pf a with ⟨hcode, hr⟩ | ⟨hcode, hsram, hr⟩ | ⟨hcode, hsram, ⟨_, _, hr⟩ | ⟨_, hr⟩⟩
  · simp [hr, hcode]
  all_goals simp [hr, hcode, hsram]

theorem route_eq_peripheral_iff {p : Peripheral} :
    route pf a = .peripheral p ↔ ¬(pf.codeBegin ≤ a ∧ a ≤ pf.codeEnd) ∧ ¬(pf.sramBegin ≤ a ∧ a ≤ pf.sramEnd) ∧
      pf.peripherals.find? (inPeripheral · a) = some p := by
  rcases route_cases pf a with ⟨hcode, hr⟩ | ⟨_, hsram, hr⟩ | ⟨hcode, hsram, ⟨_, hfind, hr⟩ | ⟨hfind, hr⟩⟩
  · simp [hr, hcode]
  · simp [hr, hsram]
  all_goals simp [hr, hcode, hsram, hfind]

theorem route_eq_unmapped_iff :
    route pf a = .unmapped ↔ ¬(pf.codeBegin ≤ a ∧ a ≤ pf.codeEnd) ∧ ¬(pf.sramBegin ≤ a ∧ a ≤ pf.sramEnd) ∧
      pf.peripherals.find? (inPeripheral · a) = none := by
  rcases route_cases pf a with ⟨hcode, hr⟩ | ⟨_, hsram, hr⟩ | ⟨hcode, hsram, ⟨_, hfind, hr⟩ | ⟨hfind, hr⟩⟩
  · simp [hr, hcode]
  · simp [hr, hsram]
  all_goals simp only [hr, hcode, hsram, hfind, reduceCtorEq, not_false_eq_true, true_and]

end routes

/-- Settles O51: one equivalence per target; the registry's scan stops at the first entry that contains the address. -/
theorem addressesRouteInOrder : Obligations.AddressesRouteInOrder := by
  unfold Obligations.AddressesRouteInOrder
  refine fun pf a => ⟨route_eq_code_iff, route_eq_sram_iff, fun p => ?peripheral, ?unmapped⟩
  case peripheral => simp only [route_eq_peripheral_iff, find_eq_some_iff_first, inPeripheral_iff]; rfl
  case unmapped => simp only [route_eq_unmapped_iff, List.find?_eq_none, inPeripheral_iff]; rfl

/-! ## Contained accesses -/

theorem toNat_offset {n k : Nat} (hn : n ≤ 2 ^ 32) (hk : k < n) (a : Word) : (a + BitVec.ofNat 32 k - a).toNat = k := by
  rw [BitVec.add_comm, BitVec.add_sub_cancel, BitVec.toNat_ofNat, Nat.mod_eq_of_lt (by omega)]

/-- The bytes of an access by their offsets. -/
theorem inBytes_iff_offset {a b : Word} {n : Nat} (hn : n ≤ 2 ^ 32) : InBytes a n b ↔ ∃ k < n, b = a + BitVec.ofNat 32 k := by
  constructor
  · exact fun h => ⟨(b - a).toNat, h, by rw [BitVec.ofNat_toNat, BitVec.setWidth_eq, BitVec.add_comm, BitVec.sub_add_cancel]⟩
  · rintro ⟨k, hk, rfl⟩
    rw [InBytes, toNat_offset hn hk]
    exact hk

/-- R67: an access is contained when its bytes route as the first. -/
theorem contained_iff {pf : Platform} {a : Word} {w : Width} :
    contained pf a w = true ↔ ∀ k < w.bytes, route pf (a + BitVec.ofNat 32 k) = route pf a := by
  have hmem : ∀ b, b ∈ accessAddrs w.bytes a ↔ ∃ k < w.bytes, b = a + BitVec.ofNat 32 k := fun b => by
    rw [mem_accessAddrs (width_bytes_le w), inBytes_iff_offset (width_bytes_le w)]
  simp only [contained, List.all_eq_true, beq_iff_eq, hmem]
  exact ⟨fun h k hk => h _ ⟨k, hk, rfl⟩, fun h b ⟨k, hk, hb⟩ => hb ▸ h k hk⟩

section contained
variable {s : State} {a : Word} {w : Width} (hc : contained s.platform a w = true)
include hc

theorem State.write_storage (ha : isStorage s.platform a = true) (v : Word) :
    s.write a w v = { s with mem := storeValue s.mem w.bytes a v } := by
  unfold State.write busWrite writeContained
  rw [if_pos hc]
  rcases (isStorage_iff _ _).1 ha with h | h <;> simp [h]

theorem State.write_unmapped (ha : route s.platform a = .unmapped) (v : Word) : s.write a w v = s := by
  simp [State.write, busWrite, writeContained, hc, ha]

theorem State.read_peripheral {p : Peripheral} (ha : route s.platform a = .peripheral p) :
    s.read a w = ((Config.peripheralRead p (historyOf p s.peripheralLog) w a).setWidth 32,
      { s with peripheralLog := ⟨p, w, a, .read⟩ :: s.peripheralLog }) := by
  simp [State.read, busRead, readContained, hc, ha]

theorem State.write_peripheral {p : Peripheral} (ha : route s.platform a = .peripheral p) (v : Word) :
    s.write a w v = { s with peripheralLog := ⟨p, w, a, .write (lowBytes w v)⟩ :: s.peripheralLog } := by
  simp [State.write, busWrite, writeContained, hc, ha]

end contained

/-! ## The arrays -/

theorem byteOf_eq_extractLsb' (v : Word) (k : Nat) : byteOf v k = v.extractLsb' (8 * k) 8 := rfl

/-- Settles O52: the value read is the number of its bytes, and a write is the byte store's. -/
theorem arrayAccessesAreLittleEndian : Obligations.ArrayAccessesAreLittleEndian := by
  unfold Obligations.ArrayAccessesAreLittleEndian
  intro s a w hc hroute
  have ha : isStorage s.platform a = true := (isStorage_iff _ _).2 hroute
  have hn : w.bytes ≤ 4 := by cases w <;> decide
  refine ⟨?read, fun hm v => ⟨fun k hk => ?stored, ?frame, ?log⟩⟩
  case read => rw [State.read_storage hc ha, State.storedValue_eq s hn]
  case stored =>
    have hk' : isStorage s.platform (a + BitVec.ofNat 32 k) = true := by
      rw [isStorage_iff, contained_iff.1 hc k hk]
      exact hroute
    rw [State.byteAt_write hm, toNat_offset (width_bytes_le w) hk, if_pos ⟨hk, hk'⟩, byteOf_eq_extractLsb']
  case frame => exact fun _ hb => State.byteAt_write_of_outside hm v hb
  case log => rw [State.write_storage hc ha]

/-- Settles O55: such a read stays inside the arrays too, and reads back its part of the word. -/
theorem narrowReadsSeeTheBytesOfAWideWrite : Obligations.NarrowReadsSeeTheBytesOfAWideWrite := by
  unfold Obligations.NarrowReadsSeeTheBytesOfAWideWrite
  intro s a v w k hm hst hk
  have hpart : InStorage (s.write a .word v).platform (a + BitVec.ofNat 32 k) w.bytes := fun b hb => hst b (by
    unfold InBytes at *
    bv_omega)
  have hpow : ∀ n, 2 ^ (8 * n) = 256 ^ n := fun n => Nat.pow_mul 2 8 n
  rw [State.read_inStorage hpart, State.storedValue_eq _ (by omega), State.littleEndian_write (w := .word) hm hst v hk, hpow, hpow]

/-! ## Unmapped and straddling accesses -/

/-- A single-byte access, from which the straddling ones are made. -/
theorem State.read_byte (s : State) (a : Word) :
    s.read a .byte = ((readContained s.platform s.mem s.peripheralLog a .byte).1,
      { s with peripheralLog := (readContained s.platform s.mem s.peripheralLog a .byte).2 }) := by
  simp [State.read, busRead]

theorem State.write_byte (s : State) (a v : Word) :
    s.write a .byte v = { s with
      mem := (writeContained s.platform s.mem s.peripheralLog a .byte v).1
      peripheralLog := (writeContained s.platform s.mem s.peripheralLog a .byte v).2 } := by
  simp [State.write, busWrite]

/-- `n` single-byte reads of a state in ascending order, assembled little-endian (R67). -/
def State.readEach (s : State) : Nat → Word → Word × State
  | 0, _ => (0, s)
  | n + 1, a =>
    let first := s.read a .byte
    let later := first.2.readEach n (a + 1)
    (first.1 ||| (later.1 <<< 8), later.2)

/-- `n` single-byte writes of a state in ascending order, the least significant byte first (R67). -/
def State.writeEach (s : State) : Nat → Word → Word → State
  | 0, _, _ => s
  | n + 1, a, v => (s.write a .byte v).writeEach n (a + 1) (v >>> 8)

theorem State.readEach_eq (s : State) (n : Nat) (a : Word) :
    s.readEach n a = ((readBytes s.platform s.mem n s.peripheralLog a).1,
      { s with peripheralLog := (readBytes s.platform s.mem n s.peripheralLog a).2 }) := by
  induction n generalizing s a with
  | zero => rfl
  | succ n ih => simp only [State.readEach, State.read_byte, ih, readBytes]

theorem State.writeEach_eq (s : State) (n : Nat) (a v : Word) :
    s.writeEach n a v = { s with
      mem := (writeBytes s.platform n s.mem s.peripheralLog a v).1
      peripheralLog := (writeBytes s.platform n s.mem s.peripheralLog a v).2 } := by
  induction n generalizing s a v with
  | zero => rfl
  | succ n ih => simp only [State.writeEach, State.write_byte, ih, writeBytes]

section straddling
variable {s : State} {a : Word} {w : Width} (hc : contained s.platform a w = false)
include hc

theorem State.read_straddling : s.read a w = s.readEach w.bytes a := by
  simp [State.readEach_eq, State.read, busRead, hc]

theorem State.write_straddling (v : Word) : s.write a w v = s.writeEach w.bytes a v := by
  simp [State.writeEach_eq, State.write, busWrite, hc]

end straddling

theorem assemble_half (b0 b1 : Word) : b0 ||| (b1 ||| (0 : Word) <<< (8 : Nat)) <<< (8 : Nat) = b0 ||| b1 <<< 8 := by simp

theorem assemble_word (b0 b1 b2 b3 : Word) :
    b0 ||| (b1 ||| (b2 ||| (b3 ||| (0 : Word) <<< (8 : Nat)) <<< 8) <<< 8) <<< 8 = b0 ||| b1 <<< 8 ||| b2 <<< 16 ||| b3 <<< 24 := by
  simp [BitVec.shiftLeft_or_distrib, ← BitVec.shiftLeft_add, BitVec.or_assoc]

/-- Settles O53: the straddling accesses are the single-byte ones unrolled, the addresses and the parts of the value summed up. -/
theorem unmappedAndStraddlingAccesses : Obligations.UnmappedAndStraddlingAccesses := by
  unfold Obligations.UnmappedAndStraddlingAccesses
  refine ⟨fun s a w => contained_iff, fun s a v w hc ha => ⟨State.read_unmapped hc ha, State.write_unmapped hc ha v⟩, ?half, ?word⟩
  case half =>
    intro s a v hc
    refine ⟨?_, State.write_straddling hc v⟩
    simp only [State.read_straddling hc, Width.bytes, State.readEach, assemble_half]
  case word =>
    intro s a v hc
    have ha2 : a + 1 + 1 = a + 2 := BitVec.add_assoc ..
    have ha3 : a + 2 + 1 = a + 3 := BitVec.add_assoc ..
    have hv2 : v >>> 8 >>> 8 = v >>> 16 := (BitVec.shiftRight_add ..).symm
    have hv3 : v >>> 16 >>> 8 = v >>> 24 := (BitVec.shiftRight_add ..).symm
    constructor
    · simp only [State.read_straddling hc, Width.bytes, State.readEach, assemble_word, ha2, ha3]
    · simp only [State.write_straddling hc, Width.bytes, State.writeEach, ha2, ha3, hv2, hv3]

/-! ## Peripherals -/

theorem lowBytes_eq (w : Width) (v : Word) : lowBytes w v = BitVec.ofNat 32 (v.toNat % 2 ^ (8 * w.bytes)) := by
  have hlt : v.toNat % 2 ^ (8 * w.bytes) < 2 ^ 32 := Nat.lt_of_le_of_lt (Nat.mod_le _ _) v.isLt
  apply BitVec.eq_of_toNat_eq
  rw [BitVec.toNat_ofNat, Nat.mod_eq_of_lt hlt]
  cases w with
  | byte | half =>
    simp only [lowBytes, BitVec.toNat_setWidth]
    exact Nat.mod_eq_of_lt hlt
  | word => exact (Nat.mod_eq_of_lt v.isLt).symm

/-- A value as wide as the access keeps that width in a word. -/
theorem toNat_setWidth_lt (w : Width) (x : BitVec (8 * w.bytes)) : (x.setWidth 32).toNat < 2 ^ (8 * w.bytes) := by
  rw [BitVec.toNat_setWidth]
  exact Nat.lt_of_le_of_lt (Nat.mod_le _ _) x.isLt

/-- Settles O54: the two equations of an access that reaches a peripheral. -/
theorem peripheralAccessesDrawAndRecord : Obligations.PeripheralAccessesDrawAndRecord := by
  unfold Obligations.PeripheralAccessesDrawAndRecord
  intro s a v w p hc ha
  rw [State.read_peripheral hc ha, State.write_peripheral hc ha, lowBytes_eq]
  exact ⟨rfl, toNat_setWidth_lt w _, rfl, rfl, rfl⟩

/-! ## Registration -/

theorem conflicts_iff (new existing : Peripheral) : conflicts new existing = true ↔
    (existing.start.toNat ≤ new.start.toNat ∧ new.start.toNat < existing.stop.toNat) ∨
      (new.start.toNat ≤ existing.start.toNat ∧ existing.start.toNat < new.stop.toNat) := by
  simp [conflicts, BitVec.le_def, BitVec.lt_def]

theorem register_eq_error_iff {p e : Peripheral} {registry : List Peripheral} :
    register p registry = .error ⟨p, e⟩ ↔ registry.find? (conflicts p) = some e := by
  unfold register
  cases registry.find? (conflicts p) <;> simp

theorem register_eq_ok_iff {p : Peripheral} {registry registry' : List Peripheral} :
    register p registry = .ok registry' ↔ (∀ e ∈ registry, ¬conflicts p e = true) ∧ registry' = registry ++ [p] := by
  rw [← List.find?_eq_none]
  unfold register
  cases registry.find? (conflicts p) <;> simp [eq_comm]

/-- Appending a candidate keeps a registry free of conflicts exactly when it conflicts with no entry (R79). -/
theorem registryOk_append_singleton (registry : List Peripheral) (p : Peripheral) :
    registryOk (registry ++ [p]) = true ↔ registryOk registry = true ∧ ∀ e ∈ registry, ¬conflicts p e = true := by
  induction registry with
  | nil => simp [registryOk]
  | cons q rest ih =>
    simp only [List.cons_append, registryOk, Bool.and_eq_true, ih, List.all_append, List.all_cons, List.all_nil, List.forall_mem_cons,
      Bool.not_eq_true', Bool.not_eq_true, Bool.and_true]
    tauto

/-- Settles O56: registration is a search for the first conflict. -/
theorem registrationRefusesConflicts : Obligations.RegistrationRefusesConflicts := by
  unfold Obligations.RegistrationRefusesConflicts
  simp only [← conflicts_iff]
  refine ⟨fun p e registry => ?first, fun p registry h => register_eq_ok_iff.2 ⟨h, rfl⟩, fun p registry registry' hok h => ?kept⟩
  case first => rw [register_eq_error_iff, find_eq_some_iff_first]
  case kept =>
    obtain ⟨hnone, rfl⟩ := register_eq_ok_iff.1 h
    exact (registryOk_append_singleton registry p).2 ⟨hok, hnone⟩

end Sys2Proof.Machine
end

section
/-! SUPPORT. What the instructions do with memory, over all 87 (20_memory.md R69, R73, R74): the bytes they change and the fatal errors they
raise. -/

namespace Sys2Proof.Machine

variable {i : Instr} {s t : State}

/-! ## The bytes an instruction changes -/

/-- What an effect does to memory (R73, R74): nothing, one write at the effective address, or the words of a list from the base on. -/
theorem Effect.mem_cases (h : Effect i s t) :
    t.mem = s.mem ∨
    (i.stores = true ∧ ∃ a w v, i.singleAccess s = some (a, w) ∧ i.multipleAccess s = none ∧ t = s.write a w v) ∨
    (i.stores = true ∧ ∃ list base, list.length ≤ 9 ∧ i.singleAccess s = none ∧ i.multipleAccess s = some (base, list.length) ∧
      t.mem = (Machine.storeList list base s).mem) := by
  cases h with
  | store a w v hs ha hm => exact .inr (.inl ⟨hs, a, w, v, ha, hm, rfl⟩)
  | storeList list base r v hs hl ha hm => exact .inr (.inr ⟨hs, list, base, hl, ha, hm, rfl⟩)
  | loadList | loadListBase | popPc => exact .inl (by simp)
  | _ => exact .inl rfl

theorem State.byteAt_congr (h : t.mem = s.mem) (a : Word) : t.byteAt a = s.byteAt a := by
  rw [State.byteAt, h, State.byteAt]

/-- Settles O49: the two effects that write memory carry the access the instruction names. -/
theorem memoryChangesOnlyInStoredBytes : Obligations.MemoryChangesOnlyInStoredBytes := by
  unfold Obligations.MemoryChangesOnlyInStoredBytes
  intro i s t h
  rcases (exec_effect h).mem_cases with hmem | ⟨hs, a, w, v, ha, hn, rfl⟩ | ⟨hs, list, base, hl, hn, ha, hmem⟩
  · have hsame : ∀ a, t.byteAt a = s.byteAt a := State.byteAt_congr hmem
    exact ⟨fun _ => hsame, fun _ _ => ⟨fun _ _ _ a _ => hsame a, fun _ _ _ a _ => hsame a⟩⟩
  · refine ⟨fun hns => absurd hs (by simp [hns]), fun _ hwf => ⟨fun ea w' hea => ?_, fun _ _ hbase => nomatch hn.symm.trans hbase⟩⟩
    cases ha.symm.trans hea
    exact fun b hb => State.byteAt_write_of_outside hwf v hb
  · refine ⟨fun hns => absurd hs (by simp [hns]), fun _ hwf => ⟨fun _ _ hea => (nomatch hn.symm.trans hea), fun base' n hbase => ?_⟩⟩
    cases ha.symm.trans hbase
    exact fun b hb => (State.byteAt_congr hmem b).trans (storeList_byteAt_of_outside hwf (by omega) hb)

/-! ## The accesses that are errors -/

/-- The policy's test in the terms of the spec (R69). -/
theorem misaligned_iff {a : Word} {w : Width} :
    s.misaligned a w = true ↔ s.platform.misaligned = .fault ∧ a.toNat % w.bytes ≠ 0 := by
  simp [State.misaligned]

theorem misalignedList_iff {a : Word} {n : Nat} :
    s.misalignedList n a = true ↔ s.platform.misaligned = .fault ∧ 0 < n ∧ a.toNat % 4 ≠ 0 := by
  simp [State.misalignedList, misaligned_iff, Width.bytes, Nat.pos_iff_ne_zero, and_left_comm]

/-- The accesses the spec calls errors are those the meanings test for. -/
theorem accessMisaligned_iff : i.accessMisaligned s ↔
    (∃ a w, i.singleAccess s = some (a, w) ∧ s.misaligned a w = true) ∨
    (∃ a n, i.multipleAccess s = some (a, n) ∧ s.misalignedList n a = true) := by
  simp only [Instr.accessMisaligned, misaligned_iff, misalignedList_iff, and_or_left, and_left_comm, exists_and_left]

/-- An instruction with a single access is a load or a store there (R198). -/
theorem exec_of_singleAccess {a : Word} {w : Width} (h : i.singleAccess s = some (a, w)) :
    (∃ rd e, exec i s = loadReg rd a w e s) ∨ ∃ rd, exec i s = storeReg rd a w s := by
  cases i with
  | ldrPc | ldrReg | ldrbReg | ldrhReg | ldsb | ldsh | ldrImm | ldrbImm | ldrhImm | ldrSp => cases h; exact .inl ⟨_, _, rfl⟩
  | strReg | strbReg | strhReg | strImm | strbImm | strhImm | strSp => cases h; exact .inr ⟨_, rfl⟩
  | _ => cases h

/-- A multiple transfer tests its base first (R214). -/
theorem exec_of_misalignedList {a : Word} {n : Nat} (h : i.multipleAccess s = some (a, n)) (hm : s.misalignedList n a = true) :
    exec i s = .next (haltedAt (.unsupportedSubOperation .misaligned) s) := by
  cases i with
  | push | pop | stmia | ldmia => cases h; exact if_pos hm
  | _ => cases h

theorem exec_of_accessMisaligned (h : i.accessMisaligned s) :
    exec i s = .next (haltedAt (.unsupportedSubOperation .misaligned) s) := by
  rcases accessMisaligned_iff.1 h with ⟨a, w, ha, hm⟩ | ⟨a, n, ha, hm⟩
  · rcases exec_of_singleAccess ha with ⟨rd, e, he⟩ | ⟨rd, he⟩
    · rw [he, loadReg_misaligned hm]
    · rw [he, storeReg_misaligned hm]
  · exact exec_of_misalignedList ha hm

/-! ## The fatal errors of an instruction -/

/-- The causes an instruction that starts in `s` (after its Advance) can halt with (60_exceptions.md R271 to R274). -/
inductive Raises (i : Instr) (s : State) : FatalCause → Prop where
  /-- an unimplemented instruction -/
  | unimplemented (name : Feature) (hw1 : Half) (hw2 : Option Half) (h : i.unimplementedName = some name) :
      Raises i s (.notImplementedFeature name hw1 hw2)
  /-- the conditional branch with cond = 1110 -/
  | undefined (imm8 : BitVec 8) (h : i = .bUndefined imm8) : Raises i s (.unsupportedSubOperation (.encoding (0xDE#8 ++ imm8)))
  /-- BX or BLX to an even target -/
  | evenTarget (m : Reg) (sbz : BitVec 3) (h : i = .bx m sbz ∨ i = .blx m sbz) (heven : (s.reg m).getLsbD 0 = false) :
      Raises i s (.illegalStateTransition (s.reg m))
  /-- a misaligned access under the fault policy -/
  | misaligned (h : i.accessMisaligned s) : Raises i s (.unsupportedSubOperation .misaligned)

/-- The run state an instruction leaves: as it was, or halted with one of its causes. -/
def RunsOrRaises (i : Instr) (s t : State) : Prop := t.run = s.run ∨ ∃ cause, Raises i s cause ∧ t = haltedAt cause s

theorem runsOrRaises_load {rd : LowReg} {a : Word} {w : Width} {e : Extension} (h : loadReg rd a w e s = .next t)
    (ha : i.singleAccess s = some (a, w)) : RunsOrRaises i s t := by
  rcases loadReg_cases h with ⟨hm, rfl⟩ | ⟨_, rfl⟩
  · exact .inr ⟨_, .misaligned (accessMisaligned_iff.2 (.inl ⟨a, w, ha, hm⟩)), rfl⟩
  · exact .inl rfl

theorem runsOrRaises_store {rd : LowReg} {a : Word} {w : Width} (h : storeReg rd a w s = .next t)
    (ha : i.singleAccess s = some (a, w)) : RunsOrRaises i s t := by
  rcases storeReg_cases h with ⟨hm, rfl⟩ | ⟨_, rfl⟩
  · exact .inr ⟨_, .misaligned (accessMisaligned_iff.2 (.inl ⟨a, w, ha, hm⟩)), rfl⟩
  · exact .inl rfl

theorem runsOrRaises_misalignedList {a : Word} {n : Nat} {u : State}
    (h : (if s.misalignedList n a then raise (.unsupportedSubOperation .misaligned) s else .next u) = .next t)
    (ha : i.multipleAccess s = some (a, n)) (hu : u.run = s.run) : RunsOrRaises i s t := by
  split at h
  · next hm => cases h; exact .inr ⟨_, .misaligned (accessMisaligned_iff.2 (.inr ⟨a, n, ha, hm⟩)), rfl⟩
  · cases h; exact .inl hu

theorem runsOrRaises_exchange {m : Reg} {sbz : BitVec 3} {u : State} (hi : i = .bx m sbz ∨ i = .blx m sbz)
    (h : (if (s.reg m).getLsbD 0 then .next u else raise (.illegalStateTransition (s.reg m)) s) = .next t) (hu : u.run = s.run) :
    RunsOrRaises i s t := by
  split at h
  · cases h; exact .inl hu
  · next heven => cases h; exact .inr ⟨_, .evenTarget m sbz hi (by simpa using heven), rfl⟩

theorem run_ite {c : Prop} {_ : Decidable c} {u v : State} (hu : u.run = s.run) (hv : v.run = s.run) :
    (if c then u else v).run = s.run := by
  split
  · exact hu
  · exact hv

/-- What halts an instruction: its own missing or undefined meaning, an even target, or its misaligned access. -/
theorem exec_runsOrRaises (h : exec i s = .next t) : RunsOrRaises i s t := by
  cases i with
  | ldrPc | ldrReg | ldrbReg | ldrhReg | ldsb | ldsh | ldrImm | ldrbImm | ldrhImm | ldrSp => exact runsOrRaises_load h rfl
  | strReg | strbReg | strhReg | strImm | strbImm | strhImm | strSp => exact runsOrRaises_store h rfl
  | push | stmia => exact runsOrRaises_misalignedList h rfl (storeList_run ..)
  | pop | ldmia => exact runsOrRaises_misalignedList h rfl (run_ite (loadList_run ..) (loadList_run ..))
  | bx => exact runsOrRaises_exchange (.inl rfl) h rfl
  | blx => exact runsOrRaises_exchange (.inr rfl) h rfl
  | bUndefined imm8 => cases h; exact .inr ⟨_, .undefined imm8 rfl, rfl⟩
  | nop | yield | wfe | wfi | sev | hint | cpsie | cpsid | svc | bkpt | dsb | dmb | isb =>
    cases h; exact .inr ⟨_, .unimplemented _ _ _ rfl, rfl⟩
  | beq | bne | bcs | bcc | bmi | bpl | bvs | bvc | bhi | bls | bge | blt | bgt | ble | addHi | movHi =>
    cases h; exact .inl (run_ite rfl rfl)
  | _ => cases h; exact .inl rfl

/-- Settles O26: the misaligned accesses halt, and of the causes an instruction can halt with that one needs the fault policy. -/
theorem misalignedAccessesHaltUnderTheFaultPolicy : Obligations.MisalignedAccessesHaltUnderTheFaultPolicy := by
  unfold Obligations.MisalignedAccessesHaltUnderTheFaultPolicy
  refine ⟨fun i s => exec_of_accessMisaligned, fun i s t x hpolicy hrun h hx => ?_⟩
  rcases exec_runsOrRaises h with hsame | ⟨cause, hcause, rfl⟩
  · rw [hsame, hrun] at hx
    cases hx
  · rw [haltedAt_run] at hx
    cases hx
    cases hcause with
    | misaligned hm => exact absurd hm.1 (by simp [hpolicy])

end Sys2Proof.Machine
end

section
/-! SUPPORT. The decode table (30_encoding.md R115, R116): its entry of each class, which entries overlap, and, order aside, what decides a
pair of halfwords. -/

namespace Sys2Proof

/-! ## Entries -/

/-- The entry of a class; the table has exactly one for each. -/
def OpClass.row (c : OpClass) : DecodeRow := (decodeTable.find? (·.cls = c)).getD ⟨0, 0, none, c⟩

theorem OpClass.row_mem (c : OpClass) : c.row ∈ decodeTable := by cases c <;> decide

theorem OpClass.row_cls (c : OpClass) : c.row.cls = c := by cases c <;> rfl

theorem row_cls_of_mem : ∀ r ∈ decodeTable, r.cls.row = r := by decide

/-- The test of hw2; without a condition it is one that every halfword passes. -/
def DecodeRow.test2 (r : DecodeRow) : Half × Half := r.hw2.getD (0, 0)

theorem DecodeRow.matches_iff {r : DecodeRow} {hw1 hw2 : Half} :
    r.matches hw1 hw2 = true ↔ hw1 &&& r.mask = r.bits ∧ hw2 &&& r.test2.1 = r.test2.2 := by
  unfold DecodeRow.matches DecodeRow.test2
  cases r.hw2 <;> simp

/-! ## Overlap (R116) -/

theorem masked_values_agree {w : Nat} {x m v m' v' : BitVec w} (h : x &&& m = v) (h' : x &&& m' = v') : v &&& m' = v' &&& m := by
  rw [← h, ← h', BitVec.and_assoc, BitVec.and_assoc, BitVec.and_comm m]

theorem masked_value_of_inside {w : Nat} {x m v m' v' : BitVec w} (h : x &&& m = v) (hm : m &&& m' = m') (hv : v &&& m' = v') :
    x &&& m' = v' := by
  rw [← hv, ← h, BitVec.and_assoc, hm]

/-- Two entries that no bit tells apart, since neither tests one for another value, are an overlapping pair of R116. -/
theorem shadowPairs_of_tests_agree : ∀ a ∈ decodeTable, ∀ b ∈ decodeTable, a ≠ b →
    a.bits &&& b.mask = b.bits &&& a.mask → a.test2.2 &&& b.test2.1 = b.test2.2 &&& a.test2.1 →
    (a.cls, b.cls) ∈ shadowPairs ∨ (b.cls, a.cls) ∈ shadowPairs := by
  decide

theorem shadowPairs_of_matches {a b : DecodeRow} (ha : a ∈ decodeTable) (hb : b ∈ decodeTable) (hne : a ≠ b) {hw1 hw2 : Half}
    (hma : a.matches hw1 hw2 = true) (hmb : b.matches hw1 hw2 = true) :
    (a.cls, b.cls) ∈ shadowPairs ∨ (b.cls, a.cls) ∈ shadowPairs := by
  obtain ⟨ha1, ha2⟩ := DecodeRow.matches_iff.1 hma
  obtain ⟨hb1, hb2⟩ := DecodeRow.matches_iff.1 hmb
  exact shadowPairs_of_tests_agree a ha b hb hne (masked_values_agree ha1 hb1) (masked_values_agree ha2 hb2)

/-- The later entry of an overlapping pair tests fewer bits, for the same values. -/
theorem shadowPairs_inside : ∀ a ∈ decodeTable, ∀ b ∈ decodeTable, (a.cls, b.cls) ∈ shadowPairs →
    (a.mask &&& b.mask = b.mask ∧ a.bits &&& b.mask = b.bits) ∧
    (a.test2.1 &&& b.test2.1 = b.test2.1 ∧ a.test2.2 &&& b.test2.1 = b.test2.2) := by
  decide

theorem matches_of_shadowPairs {a b : DecodeRow} (ha : a ∈ decodeTable) (hb : b ∈ decodeTable) (h : (a.cls, b.cls) ∈ shadowPairs)
    {hw1 hw2 : Half} (hm : a.matches hw1 hw2 = true) : b.matches hw1 hw2 = true := by
  obtain ⟨⟨hmask, hbits⟩, hmask2, hbits2⟩ := shadowPairs_inside a ha b hb h
  obtain ⟨h1, h2⟩ := DecodeRow.matches_iff.1 hm
  exact DecodeRow.matches_iff.2 ⟨masked_value_of_inside h1 hmask hbits, masked_value_of_inside h2 hmask2 hbits2⟩

/-! ## The search -/

/-- Of every overlapping pair the entry that shadows stands first (R116). -/
def InOrder (table : List DecodeRow) : Prop := table.Pairwise fun x y => (y.cls, x.cls) ∉ shadowPairs

theorem inOrder_decodeTable : InOrder decodeTable := by
  unfold InOrder
  decide

/-- In a list whose elements stand in the relation `R`, so do the first element found and any other that would do. -/
theorem rel_of_find?_eq_some {α : Type} {R : α → α → Prop} {p : α → Bool} {l : List α} (hl : l.Pairwise R) {a b : α}
    (hf : l.find? p = some a) (hb : b ∈ l) (hp : p b = true) (hne : b ≠ a) : R a b := by
  obtain ⟨_, before, after, rfl, hbefore⟩ := List.find?_eq_some_iff_append.1 hf
  obtain ⟨_, hafter, _⟩ := List.pairwise_append.1 hl
  rcases List.mem_append.1 hb with h | h
  · exact absurd hp (by simpa using hbefore b h)
  · rcases List.mem_cons.1 h with rfl | h
    · exact absurd rfl hne
    · exact List.rel_of_pairwise_cons hafter h

/-- The entries that shadow the entry of a class. -/
def OpClass.shadowedBy (c : OpClass) : List DecodeRow := (shadowPairs.filter (·.2 = c)).map (·.1.row)

theorem OpClass.mem_shadowedBy {c : OpClass} {r : DecodeRow} : r ∈ c.shadowedBy ↔ ∃ a, (a, c) ∈ shadowPairs ∧ a.row = r := by
  simp [shadowedBy]

/-- The entry of class `c` decides the pair: it matches, and none that shadows it does. -/
def OpClass.Decides (c : OpClass) (hw1 hw2 : Half) : Prop :=
  c.row.matches hw1 hw2 = true ∧ ∀ r ∈ c.shadowedBy, r.matches hw1 hw2 = false

section search
variable {table : List DecodeRow} (hperm : table.Perm decodeTable) (hord : InOrder table) {hw1 hw2 : Half} {r : DecodeRow}
include hperm hord

theorem decides_of_find? (hf : table.find? (·.matches hw1 hw2) = some r) : r.cls.row = r ∧ r.cls.Decides hw1 hw2 := by
  have hmem : r ∈ decodeTable := hperm.mem_iff.1 (List.mem_of_find?_eq_some hf)
  have hr : r.cls.row = r := row_cls_of_mem r hmem
  have hm : r.matches hw1 hw2 = true := List.find?_some (p := (DecodeRow.matches · hw1 hw2)) hf
  refine ⟨hr, by rwa [hr], fun b hb => ?_⟩
  obtain ⟨a, hpair, rfl⟩ := OpClass.mem_shadowedBy.1 hb
  have hne : a.row ≠ r := by
    rintro rfl
    rw [a.row_cls] at hpair
    exact (by decide : ∀ pair ∈ shadowPairs, pair.1 ≠ pair.2) _ hpair rfl
  by_contra ha
  exact rel_of_find?_eq_some hord hf (hperm.mem_iff.2 a.row_mem) (by simpa using ha) hne (by rwa [a.row_cls])

theorem find?_of_decides (hr : r.cls.row = r) (hd : r.cls.Decides hw1 hw2) : table.find? (·.matches hw1 hw2) = some r := by
  obtain ⟨hm, hshadow⟩ := hd
  rw [hr] at hm
  have hmem : r ∈ decodeTable := hr ▸ r.cls.row_mem
  have htable : r ∈ table := hperm.mem_iff.2 hmem
  obtain ⟨a, hf⟩ := Option.isSome_iff_exists.1 (List.find?_isSome (p := (DecodeRow.matches · hw1 hw2)).2 ⟨r, htable, hm⟩)
  have ha : a ∈ decodeTable := hperm.mem_iff.1 (List.mem_of_find?_eq_some hf)
  have hma : a.matches hw1 hw2 = true := List.find?_some (p := (DecodeRow.matches · hw1 hw2)) hf
  by_cases hne : r = a
  · rw [hf, hne]
  · rcases shadowPairs_of_matches hmem ha hne hm hma with h | h
    · exact absurd h (rel_of_find?_eq_some hord hf htable hm hne)
    · have hno : a.cls.row.matches hw1 hw2 = false := hshadow _ (OpClass.mem_shadowedBy.2 ⟨_, h, rfl⟩)
      rw [row_cls_of_mem a ha, hma] at hno
      cases hno

/-- R116 as a description of the search: whatever the order of the entries, if the overlapping pairs stand as they should, the entry found
is the one that decides. -/
theorem find?_eq_some_iff : table.find? (·.matches hw1 hw2) = some r ↔ r.cls.row = r ∧ r.cls.Decides hw1 hw2 :=
  ⟨decides_of_find? hperm hord, fun ⟨hr, hd⟩ => find?_of_decides hperm hord hr hd⟩

end search

theorem classify_eq_some_iff {hw1 hw2 : Half} {c : OpClass} : classify hw1 hw2 = some c ↔ c.Decides hw1 hw2 := by
  simp only [classify, Option.map_eq_some_iff, find?_eq_some_iff (.refl _) inOrder_decodeTable]
  exact ⟨fun ⟨r, ⟨_, hd⟩, hc⟩ => hc ▸ hd, fun hd => ⟨c.row, by simpa [c.row_cls] using hd, c.row_cls⟩⟩

theorem classify_eq_none_iff {hw1 hw2 : Half} : classify hw1 hw2 = none ↔ ∀ r ∈ decodeTable, r.matches hw1 hw2 = false := by
  simp [classify]

theorem decode_eq_ok_iff {hw1 hw2 : Half} {i : Instr} :
    decode hw1 hw2 = .ok i ↔ ∃ c : OpClass, c.Decides hw1 hw2 ∧ c.select hw1 hw2 = i := by
  unfold decode
  simp only [← classify_eq_some_iff]
  cases classify hw1 hw2 <;> simp

theorem decode_eq_error_iff {hw1 hw2 : Half} :
    decode hw1 hw2 = .error (.unknownInstruction hw1) ↔ ∀ r ∈ decodeTable, r.matches hw1 hw2 = false := by
  rw [← classify_eq_none_iff]
  unfold decode
  cases classify hw1 hw2 <;> simp

theorem decode_error_or_ok (hw1 hw2 : Half) :
    decode hw1 hw2 = .error (.unknownInstruction hw1) ∨ ∃ i, decode hw1 hw2 = .ok i := by
  unfold decode
  cases classify hw1 hw2 <;> simp

end Sys2Proof
end

section
/-! SUPPORT. The formats of 30_encoding.md R92 to R112 as fields of a halfword: the value of each field of an encoding, that every halfword
(with the format's fixed bits) has the fields of the format, and what a masked comparison says about a field. -/

namespace Sys2Proof

/-! ## Fields -/

section fields
variable {n lo : Nat} {hw mask bits : Half}

theorem getElem_eq_fieldAt {i : Nat} (hi : i < n) (h : i + lo < 16) : hw[i + lo] = (fieldAt hw lo n)[i] := by
  rw [fieldAt, BitVec.getElem_extractLsb', Nat.add_comm lo, BitVec.getLsbD_eq_getElem]

theorem fieldAt_and (x y : Half) (lo n : Nat) : fieldAt (x &&& y) lo n = fieldAt x lo n &&& fieldAt y lo n := BitVec.extractLsb'_and

theorem fieldAt_append_fieldAt (hw : Half) : fieldAt hw lo n ++ fieldAt hw 0 lo = fieldAt hw 0 (n + lo) :=
  BitVec.extractLsb'_append_extractLsb'_eq_extractLsb' (Nat.zero_add lo).symm

/-- Two halfwords are equal when their upper and their lower parts are. -/
theorem half_ext {x y : Half} (hn : n + lo = 16) (hhigh : fieldAt x lo n = fieldAt y lo n) (hlow : fieldAt x 0 lo = fieldAt y 0 lo) :
    x = y := by
  have hwhole : fieldAt x 0 (n + lo) = fieldAt y 0 (n + lo) := by rw [← fieldAt_append_fieldAt, hhigh, hlow, fieldAt_append_fieldAt]
  rw [hn] at hwhole
  rwa [fieldAt, fieldAt, BitVec.extractLsb'_eq_self, BitVec.extractLsb'_eq_self] at hwhole

/-- What a masked comparison says of a field. -/
theorem fieldAt_and_of_and_eq (h : hw &&& mask = bits) (lo n : Nat) : fieldAt hw lo n &&& fieldAt mask lo n = fieldAt bits lo n := by
  rw [← h, fieldAt_and]

/-- A field that the mask covers whole is compared as it stands. -/
theorem fieldAt_of_and_eq (h : hw &&& mask = bits) {lo n : Nat} (hm : fieldAt mask lo n = BitVec.allOnes n) :
    fieldAt hw lo n = fieldAt bits lo n := by
  rw [← fieldAt_and_of_and_eq h, hm, BitVec.and_allOnes]

/-- A mask that tests the bits from `lo` on alone. -/
theorem and_eq_iff_fieldAt (hn : n + lo = 16) (hm : fieldAt mask 0 lo = 0) (hb : fieldAt bits 0 lo = 0) :
    hw &&& mask = bits ↔ fieldAt hw lo n &&& fieldAt mask lo n = fieldAt bits lo n := by
  refine ⟨fun h => fieldAt_and_of_and_eq h lo n, fun h => half_ext hn ((fieldAt_and ..).trans h) ?_⟩
  rw [fieldAt_and, hm, hb]
  exact BitVec.and_zero

end fields

/-! ## The fields of an encoding

Here and below `simp` must not add up the widths in the types (`-Nat.reduceAdd`): the rules about `++` are stated for a width `n + k`. -/

section formats
variable (op5 imm5 : BitVec 5) (op7 : BitVec 7) (op4 : BitVec 4) (op2 : BitVec 2) (op8 imm8 : BitVec 8) (third rs rd : BitVec 3) (m d : Reg)

@[simp] theorem fieldAt_encImm5 :
    fieldAt (encImm5 op5 imm5 rs rd) 11 5 = op5 ∧ fieldAt (encImm5 op5 imm5 rs rd) 6 5 = imm5 ∧
    fieldAt (encImm5 op5 imm5 rs rd) 3 3 = rs ∧ fieldAt (encImm5 op5 imm5 rs rd) 0 3 = rd := by
  simp [encImm5, fieldAt, BitVec.extractLsb'_append_eq_of_add_le, BitVec.extractLsb'_append_eq_of_le, -Nat.reduceAdd]

@[simp] theorem fieldAt_encThree :
    fieldAt (encThree op7 third rs rd) 9 7 = op7 ∧ fieldAt (encThree op7 third rs rd) 6 3 = third ∧
    fieldAt (encThree op7 third rs rd) 3 3 = rs ∧ fieldAt (encThree op7 third rs rd) 0 3 = rd := by
  simp [encThree, fieldAt, BitVec.extractLsb'_append_eq_of_add_le, BitVec.extractLsb'_append_eq_of_le, -Nat.reduceAdd]

@[simp] theorem fieldAt_encImm8 :
    fieldAt (encImm8 op5 rd imm8) 11 5 = op5 ∧ fieldAt (encImm8 op5 rd imm8) 8 3 = rd ∧ fieldAt (encImm8 op5 rd imm8) 0 8 = imm8 := by
  simp [encImm8, fieldAt, BitVec.extractLsb'_append_eq_of_add_le, BitVec.extractLsb'_append_eq_of_le, -Nat.reduceAdd]

@[simp] theorem fieldAt_encAlu :
    fieldAt (encAlu op4 rs rd) 10 6 = 0b010000#6 ∧ fieldAt (encAlu op4 rs rd) 6 4 = op4 ∧
    fieldAt (encAlu op4 rs rd) 3 3 = rs ∧ fieldAt (encAlu op4 rs rd) 0 3 = rd := by
  simp [encAlu, fieldAt, BitVec.extractLsb'_append_eq_of_add_le, BitVec.extractLsb'_append_eq_of_le, -Nat.reduceAdd]

@[simp] theorem fieldAt_encHi :
    fieldAt (encHi op2 m d) 10 6 = 0b010001#6 ∧ fieldAt (encHi op2 m d) 8 2 = op2 ∧ fieldAt (encHi op2 m d) 7 1 = d.extractLsb' 3 1 ∧
    fieldAt (encHi op2 m d) 3 4 = m ∧ fieldAt (encHi op2 m d) 0 3 = d.extractLsb' 0 3 := by
  simp [encHi, fieldAt, BitVec.extractLsb'_append_eq_of_add_le, BitVec.extractLsb'_append_eq_of_le, -Nat.reduceAdd]

/-- d of format 5 is H1 and Rd (R96); BX and BLX read H1 as the opcode and Rd as the should-be-zero bits. -/
@[simp] theorem fields_append_reg (h1 : BitVec 1) :
    (h1 ++ rd : Reg)[3] = h1[0] ∧ (h1 ++ rd : Reg).extractLsb' 3 1 = h1 ∧ (h1 ++ rd : Reg).extractLsb' 0 3 = rd := by
  revert h1 rd
  decide

@[simp] theorem fieldAt_encByte : fieldAt (encByte op8 imm8) 8 8 = op8 ∧ fieldAt (encByte op8 imm8) 0 8 = imm8 := by
  simp [encByte, fieldAt, BitVec.extractLsb'_append_eq_of_add_le, BitVec.extractLsb'_append_eq_of_le, -Nat.reduceAdd]

/-- The lower byte of the hints and of CPS (R111). -/
@[simp] theorem fieldAt_encByte_nibbles (x y : BitVec 4) :
    fieldAt (encByte op8 (x ++ y)) 4 4 = x ∧ fieldAt (encByte op8 (x ++ y)) 0 4 = y := by
  simp [encByte, fieldAt, BitVec.extractLsb'_append_eq_of_add_le, BitVec.extractLsb'_append_eq_of_le, -Nat.reduceAdd]

/-- The lower byte of format 13 (R104). -/
@[simp] theorem fields_encByte_adjustSp (s : BitVec 1) (imm7 : BitVec 7) :
    (encByte op8 (s ++ imm7)).getLsbD 7 = s.getLsbD 0 ∧ fieldAt (encByte op8 (s ++ imm7)) 0 7 = imm7 := by
  simp [encByte, fieldAt, BitVec.getLsbD_append, BitVec.extractLsb'_append_eq_of_add_le, -Nat.reduceAdd, -BitVec.getLsbD_eq_getElem]

@[simp] theorem fieldAt_branch (imm11 : BitVec 11) :
    fieldAt (op5 ++ imm11) 11 5 = op5 ∧ fieldAt (op5 ++ imm11) 0 11 = imm11 := by
  simp [fieldAt, BitVec.extractLsb'_append_eq_of_add_le, BitVec.extractLsb'_append_eq_of_le, -Nat.reduceAdd]

@[simp] theorem fieldAt_longBranch_first (s : BitVec 1) (imm10 : BitVec 10) :
    fieldAt (op5 ++ s ++ imm10) 11 5 = op5 ∧ fieldAt (op5 ++ s ++ imm10) 10 1 = s ∧ fieldAt (op5 ++ s ++ imm10) 0 10 = imm10 := by
  simp [fieldAt, BitVec.extractLsb'_append_eq_of_add_le, BitVec.extractLsb'_append_eq_of_le, -Nat.reduceAdd]

@[simp] theorem fieldAt_longBranch_second (j1 one j2 : BitVec 1) (imm11 : BitVec 11) :
    fieldAt (op2 ++ j1 ++ one ++ j2 ++ imm11) 14 2 = op2 ∧ fieldAt (op2 ++ j1 ++ one ++ j2 ++ imm11) 13 1 = j1 ∧
    fieldAt (op2 ++ j1 ++ one ++ j2 ++ imm11) 12 1 = one ∧ fieldAt (op2 ++ j1 ++ one ++ j2 ++ imm11) 11 1 = j2 ∧
    fieldAt (op2 ++ j1 ++ one ++ j2 ++ imm11) 0 11 = imm11 := by
  simp [fieldAt, BitVec.extractLsb'_append_eq_of_add_le, BitVec.extractLsb'_append_eq_of_le, -Nat.reduceAdd]

@[simp] theorem fieldAt_barrier (op12 : BitVec 12) (option : BitVec 4) :
    fieldAt (op12 ++ option) 4 12 = op12 ∧ fieldAt (op12 ++ option) 0 4 = option := by
  simp [fieldAt, BitVec.extractLsb'_append_eq_of_add_le, BitVec.extractLsb'_append_eq_of_le, -Nat.reduceAdd]

/-! The sub-opcode bits the handlers read. -/

section bits
variable {i : Nat}

@[simp] theorem getElem_encImm5 (hi : i < 5) (h : i + 11 < 16) : (encImm5 op5 imm5 rs rd)[i + 11] = op5[i] := by
  simp [getElem_eq_fieldAt hi h]

@[simp] theorem getElem_encThree (hi : i < 7) (h : i + 9 < 16) : (encThree op7 third rs rd)[i + 9] = op7[i] := by
  simp [getElem_eq_fieldAt hi h]

@[simp] theorem getElem_encImm8 (hi : i < 5) (h : i + 11 < 16) : (encImm8 op5 rd imm8)[i + 11] = op5[i] := by
  simp [getElem_eq_fieldAt hi h]

@[simp] theorem getElem_encAlu (hi : i < 4) (h : i + 6 < 16) : (encAlu op4 rs rd)[i + 6] = op4[i] := by
  simp [getElem_eq_fieldAt hi h]

@[simp] theorem getElem_encHi_op (hi : i < 2) (h : i + 8 < 16) : (encHi op2 m d)[i + 8] = op2[i] := by
  simp [getElem_eq_fieldAt hi h]

@[simp] theorem getElem_encHi_h1 : (encHi op2 m d)[7] = d[3] := by
  have h := getElem_eq_fieldAt (hw := encHi op2 m d) (lo := 7) (show 0 < 1 by decide) (by decide)
  simpa using h

@[simp] theorem getElem_encByte (hi : i < 8) (h : i + 8 < 16) : (encByte op8 imm8)[i + 8] = op8[i] := by
  simp [getElem_eq_fieldAt hi h]

end bits

end formats

/-! ## Every halfword has the fields of a format -/

theorem exists_append {n k : Nat} (x : BitVec (n + k)) : ∃ (hi : BitVec n) (lo : BitVec k), x = hi ++ lo :=
  ⟨x.extractLsb' k n, x.extractLsb' 0 k, by
    rw [BitVec.extractLsb'_append_extractLsb'_eq_extractLsb' (Nat.zero_add k).symm, BitVec.extractLsb'_eq_self]⟩

section exists_fields
variable {hw : Half}

theorem exists_encImm5 (hw : Half) : ∃ op imm5 rs rd, hw = encImm5 op imm5 rs rd := by
  obtain ⟨x, rd, rfl⟩ := exists_append (n := 13) (k := 3) hw
  obtain ⟨x, rs, rfl⟩ := exists_append (n := 10) (k := 3) x
  obtain ⟨op, imm5, rfl⟩ := exists_append (n := 5) (k := 5) x
  exact ⟨op, imm5, rs, rd, rfl⟩

theorem exists_encThree (hw : Half) : ∃ op third rs rd, hw = encThree op third rs rd := by
  obtain ⟨x, rd, rfl⟩ := exists_append (n := 13) (k := 3) hw
  obtain ⟨x, rs, rfl⟩ := exists_append (n := 10) (k := 3) x
  obtain ⟨op, third, rfl⟩ := exists_append (n := 7) (k := 3) x
  exact ⟨op, third, rs, rd, rfl⟩

theorem exists_encImm8 (hw : Half) : ∃ op rd imm8, hw = encImm8 op rd imm8 := by
  obtain ⟨x, imm8, rfl⟩ := exists_append (n := 8) (k := 8) hw
  obtain ⟨op, rd, rfl⟩ := exists_append (n := 5) (k := 3) x
  exact ⟨op, rd, imm8, rfl⟩

theorem exists_encByte (hw : Half) : ∃ op imm8, hw = encByte op imm8 := exists_append (n := 8) (k := 8) hw

theorem exists_encAlu (h : fieldAt hw 10 6 = 0b010000#6) : ∃ op rs rd, hw = encAlu op rs rd := by
  obtain ⟨x, rd, rfl⟩ := exists_append (n := 13) (k := 3) hw
  obtain ⟨x, rs, rfl⟩ := exists_append (n := 10) (k := 3) x
  obtain ⟨p, op, rfl⟩ := exists_append (n := 6) (k := 4) x
  obtain rfl : p = 0b010000#6 := by
    simpa [fieldAt, BitVec.extractLsb'_append_eq_of_le, -Nat.reduceAdd] using h
  exact ⟨op, rs, rd, rfl⟩

theorem exists_encHi (h : fieldAt hw 10 6 = 0b010001#6) :
    ∃ (op : BitVec 2) (m : Reg) (h1 : BitVec 1) (rd : BitVec 3), hw = encHi op m (h1 ++ rd) := by
  obtain ⟨x, rd, rfl⟩ := exists_append (n := 13) (k := 3) hw
  obtain ⟨x, m, rfl⟩ := exists_append (n := 9) (k := 4) x
  obtain ⟨x, h1, rfl⟩ := exists_append (n := 8) (k := 1) x
  obtain ⟨p, op, rfl⟩ := exists_append (n := 6) (k := 2) x
  obtain rfl : p = 0b010001#6 := by
    simpa [fieldAt, BitVec.extractLsb'_append_eq_of_le, -Nat.reduceAdd] using h
  exact ⟨op, m, h1, rd, by simp [encHi, -Nat.reduceAdd]⟩

theorem exists_nibbles {op : BitVec 8} (h : fieldAt hw 8 8 = op) : ∃ x y : BitVec 4, hw = encByte op (x ++ y) := by
  obtain ⟨op', z, rfl⟩ := exists_encByte hw
  obtain ⟨x, y, rfl⟩ := exists_append (n := 4) (k := 4) z
  obtain rfl : op' = op := (fieldAt_encByte ..).1.symm.trans h
  exact ⟨x, y, rfl⟩

theorem exists_branch (h : fieldAt hw 11 5 = 0b11100#5) : ∃ imm11 : BitVec 11, hw = 0b11100#5 ++ imm11 := by
  obtain ⟨p, imm11, rfl⟩ := exists_append (n := 5) (k := 11) hw
  obtain rfl : p = 0b11100#5 := (fieldAt_branch ..).1.symm.trans h
  exact ⟨imm11, rfl⟩

theorem exists_longBranch_first (h : fieldAt hw 11 5 = 0b11110#5) :
    ∃ (s : BitVec 1) (imm10 : BitVec 10), hw = 0b11110#5 ++ s ++ imm10 := by
  obtain ⟨x, imm10, rfl⟩ := exists_append (n := 6) (k := 10) hw
  obtain ⟨p, s, rfl⟩ := exists_append (n := 5) (k := 1) x
  obtain rfl : p = 0b11110#5 := (fieldAt_longBranch_first ..).1.symm.trans h
  exact ⟨s, imm10, rfl⟩

theorem exists_longBranch_second (htop : fieldAt hw 14 2 = 0b11#2) (hone : fieldAt hw 12 1 = 1#1) :
    ∃ (j1 j2 : BitVec 1) (imm11 : BitVec 11), hw = 0b11#2 ++ j1 ++ 1#1 ++ j2 ++ imm11 := by
  obtain ⟨x, imm11, rfl⟩ := exists_append (n := 5) (k := 11) hw
  obtain ⟨x, j2, rfl⟩ := exists_append (n := 4) (k := 1) x
  obtain ⟨x, one, rfl⟩ := exists_append (n := 3) (k := 1) x
  obtain ⟨p, j1, rfl⟩ := exists_append (n := 2) (k := 1) x
  obtain ⟨hp, _, hmid, _, _⟩ := fieldAt_longBranch_second p j1 one j2 imm11
  obtain rfl : p = 0b11#2 := hp.symm.trans htop
  obtain rfl : one = 1#1 := hmid.symm.trans hone
  exact ⟨j1, j2, imm11, rfl⟩

theorem exists_barrier {op12 : BitVec 12} (h : fieldAt hw 4 12 = op12) : ∃ option : BitVec 4, hw = op12 ++ option := by
  obtain ⟨p, option, rfl⟩ := exists_append (n := 12) (k := 4) hw
  obtain rfl : p = op12 := (fieldAt_barrier ..).1.symm.trans h
  exact ⟨option, rfl⟩

end exists_fields

end Sys2Proof
end

section
/-! SUPPORT. Encodings are read back (30_encoding.md R90 to R116): the entry of the instruction's class decides, and its handler selects
the instruction. With it the obligations about reading back, about the order of the entries and about sample words. -/

namespace Sys2Proof

/-! ## What decides, told by the upper bits of hw1 -/

/-- The entry tests bits of hw1 from `lo` on and nothing else. -/
def DecodeRow.testsFrom (r : DecodeRow) (lo : Nat) : Bool :=
  fieldAt r.mask 0 lo == 0 && fieldAt r.bits 0 lo == 0 && r.hw2 == none

/-- The entry's test of hw1, of the field from `lo` on. -/
def DecodeRow.accepts (r : DecodeRow) {n : Nat} (lo : Nat) (p : BitVec n) : Bool := p &&& fieldAt r.mask lo n == fieldAt r.bits lo n

theorem DecodeRow.matches_eq_accepts {r : DecodeRow} {n lo : Nat} (hn : n + lo = 16) (h : r.testsFrom lo = true) (hw1 hw2 : Half) :
    r.matches hw1 hw2 = r.accepts lo (fieldAt hw1 lo n) := by
  obtain ⟨⟨hm, hb⟩, hnone⟩ : (fieldAt r.mask 0 lo = 0 ∧ fieldAt r.bits 0 lo = 0) ∧ r.hw2 = none := by simpa [testsFrom] using h
  rw [Bool.eq_iff_iff, DecodeRow.matches_iff, and_eq_iff_fieldAt hn hm hb]
  simp [test2, hnone, accepts]

/-- So do the class's entry and the entries that shadow it. -/
def OpClass.testsFrom (c : OpClass) (lo : Nat) : Bool := (c.row :: c.shadowedBy).all (·.testsFrom lo)

/-- The class's entry accepts the field of hw1 from `lo` on, and none that shadows it does. -/
def OpClass.decidesAt (c : OpClass) {n : Nat} (lo : Nat) (p : BitVec n) : Bool := c.row.accepts lo p && c.shadowedBy.all (!·.accepts lo p)

/-- A class whose entries test nothing below bit `lo` decides by the field above. -/
theorem OpClass.decides_iff {c : OpClass} {n lo : Nat} (hn : n + lo = 16) (h : c.testsFrom lo = true) {hw1 hw2 : Half} :
    c.Decides hw1 hw2 ↔ c.decidesAt lo (fieldAt hw1 lo n) = true := by
  obtain ⟨hc, hs⟩ : c.row.testsFrom lo = true ∧ ∀ r ∈ c.shadowedBy, r.testsFrom lo = true := by simpa [testsFrom] using h
  have hfield : (∀ r ∈ c.shadowedBy, r.matches hw1 hw2 = false) ↔ ∀ r ∈ c.shadowedBy, r.accepts lo (fieldAt hw1 lo n) = false :=
    forall₂_congr fun r hr => by rw [r.matches_eq_accepts hn (hs r hr)]
  rw [Decides, hfield, c.row.matches_eq_accepts hn hc]
  simp [decidesAt]

/-! ## Reading back -/

/-- The class of the decode table that an instruction belongs to. -/
def Instr.opClass : Instr → OpClass
  | .lslImm .. | .lsrImm .. | .asrImm .. => .moveShifted
  | .addReg .. | .subReg .. | .addImm3 .. | .subImm3 .. => .addSubtract
  | .movImm8 .. | .cmpImm8 .. | .addImm8 .. | .subImm8 .. => .immediate
  | .and .. | .eor .. | .lslReg .. | .lsrReg .. | .asrReg .. | .adc .. | .sbc .. | .ror .. | .tst .. | .neg .. | .cmpReg .. | .cmn ..
  | .orr .. | .mul .. | .bic .. | .mvn .. => .alu
  | .addHi .. | .cmpHi .. | .movHi .. | .bx .. | .blx .. => .hiRegister
  | .ldrPc .. => .loadPc
  | .strReg .. | .strbReg .. | .ldrReg .. | .ldrbReg .. => .loadStoreRegister
  | .strhReg .. | .ldrhReg .. | .ldsb .. | .ldsh .. => .loadStoreSigned
  | .strImm .. | .ldrImm .. | .strbImm .. | .ldrbImm .. => .loadStoreImmediate
  | .strhImm .. | .ldrhImm .. => .loadStoreHalf
  | .strSp .. | .ldrSp .. => .loadStoreSp
  | .addPc .. | .addRdSp .. => .loadAddress
  | .addSp _ | .subSp _ => .adjustSp
  | .push .. | .pop .. => .pushPop
  | .stmia .. | .ldmia .. => .multiple
  | .beq _ | .bne _ | .bcs _ | .bcc _ | .bmi _ | .bpl _ | .bvs _ | .bvc _ | .bhi _ | .bls _ | .bge _ | .blt _ | .bgt _ | .ble _
  | .bUndefined _ => .condBranch
  | .svc _ => .svc
  | .b _ => .branch
  | .bl .. => .longBranch
  | .nop => .nop
  | .yield => .yield
  | .wfe => .wfe
  | .wfi => .wfi
  | .sev => .sev
  | .hint _ => .otherHint
  | .cpsie _ => .cpsie
  | .cpsid _ => .cpsid
  | .bkpt _ => .bkpt
  | .dsb _ => .dsb
  | .dmb _ => .dmb
  | .isb _ => .isb

/-- P1 to P5 leave the values of op of the other hints. -/
theorem decidesAt_hint_iff (op : BitVec 4) :
    OpClass.otherHint.decidesAt 0 (encodeFirst (.hint op)) = true ↔ (Instr.hint op).wf = true := by
  revert op
  decide

section decides
variable {c : OpClass} (op5 imm5 : BitVec 5) (op7 : BitVec 7) (op4 : BitVec 4) (op2 : BitVec 2) (op8 imm8 : BitVec 8)
  (third rs rd : BitVec 3) (m d : Reg) (hw1 hw2 : Half)

theorem decides_encImm5_iff (hc : c.testsFrom 11 = true) : c.Decides (encImm5 op5 imm5 rs rd) hw2 ↔ c.decidesAt 11 op5 = true := by
  rw [c.decides_iff (n := 5) rfl hc, (fieldAt_encImm5 ..).1]

theorem decides_encThree_iff (hc : c.testsFrom 9 = true) : c.Decides (encThree op7 third rs rd) hw2 ↔ c.decidesAt 9 op7 = true := by
  rw [c.decides_iff (n := 7) rfl hc, (fieldAt_encThree ..).1]

theorem decides_encImm8_iff (hc : c.testsFrom 11 = true) : c.Decides (encImm8 op5 rd imm8) hw2 ↔ c.decidesAt 11 op5 = true := by
  rw [c.decides_iff (n := 5) rfl hc, (fieldAt_encImm8 ..).1]

theorem decides_encByte_iff (hc : c.testsFrom 8 = true) : c.Decides (encByte op8 imm8) hw2 ↔ c.decidesAt 8 op8 = true := by
  rw [c.decides_iff (n := 8) rfl hc, (fieldAt_encByte ..).1]

theorem decides_whole_iff (hc : c.testsFrom 0 = true) : c.Decides hw1 hw2 ↔ c.decidesAt 0 hw1 = true := by
  rw [c.decides_iff (n := 16) rfl hc, fieldAt, BitVec.extractLsb'_eq_self]

theorem decides_encAlu : OpClass.alu.Decides (encAlu op4 rs rd) hw2 := by
  rw [OpClass.decides_iff (n := 6) (lo := 10) rfl (by decide), (fieldAt_encAlu ..).1]
  decide

theorem decides_encHi : OpClass.hiRegister.Decides (encHi op2 m d) hw2 := by
  rw [OpClass.decides_iff (n := 6) (lo := 10) rfl (by decide), (fieldAt_encHi ..).1]
  decide

theorem decides_branch (imm11 : BitVec 11) : OpClass.branch.Decides (0b11100#5 ++ imm11) hw2 := by
  rw [OpClass.decides_iff (n := 5) (lo := 11) rfl (by decide), (fieldAt_branch ..).1]
  decide

theorem decides_longBranch (s : BitVec 1) (imm10 : BitVec 10) (j1 j2 : BitVec 1) (imm11 : BitVec 11) :
    OpClass.longBranch.Decides (0b11110#5 ++ s ++ imm10) (0b11#2 ++ j1 ++ 1#1 ++ j2 ++ imm11) := by
  have h2 : fieldAt (0b11#2 ++ j1 ++ 1#1 ++ j2 ++ imm11) 11 5 = 0b11#2 ++ j1 ++ 1#1 ++ j2 := BitVec.extractLsb'_append_eq_left
  refine ⟨DecodeRow.matches_iff.2 ⟨?_, ?_⟩, fun r hr => ?_⟩
  · rw [and_eq_iff_fieldAt (n := 5) (lo := 11) rfl (by decide) (by decide), (fieldAt_longBranch_first ..).1]
    decide
  · rw [and_eq_iff_fieldAt (n := 5) (lo := 11) rfl (by decide) (by decide), h2]
    clear h2
    revert j1 j2
    decide
  · exact absurd hr (by rw [show OpClass.longBranch.shadowedBy = [] by decide]; simp)

theorem decides_barrier (option : BitVec 4) :
    OpClass.dsb.Decides 0xF3BF (0x8F4#12 ++ option) ∧ OpClass.dmb.Decides 0xF3BF (0x8F5#12 ++ option) ∧
      OpClass.isb.Decides 0xF3BF (0x8F6#12 ++ option) := by
  unfold OpClass.Decides
  revert option
  decide

end decides

/-- The class of an instruction decides its encoding. -/
theorem decides_encode {i : Instr} (hwf : i.wf = true) (hw2 : Half) :
    i.opClass.Decides (encodeFirst i) ((encodeSecond i).getD hw2) := by
  cases i with
  | lslImm | lsrImm | asrImm | strImm | ldrImm | strbImm | ldrbImm | strhImm | ldrhImm =>
    rw [Instr.opClass, encodeFirst]
    exact (decides_encImm5_iff (hc := by decide) ..).2 (by decide)
  | addReg | subReg | addImm3 | subImm3 | strReg | strbReg | ldrReg | ldrbReg | strhReg | ldrhReg | ldsb | ldsh =>
    rw [Instr.opClass, encodeFirst]
    exact (decides_encThree_iff (hc := by decide) ..).2 (by decide)
  | movImm8 | cmpImm8 | addImm8 | subImm8 | ldrPc | strSp | ldrSp | addPc | addRdSp | stmia | ldmia =>
    rw [Instr.opClass, encodeFirst]
    exact (decides_encImm8_iff (hc := by decide) ..).2 (by decide)
  | and | eor | lslReg | lsrReg | asrReg | adc | sbc | ror | tst | neg | cmpReg | cmn | orr | mul | bic | mvn => exact decides_encAlu ..
  | addHi | cmpHi | movHi | bx | blx => exact decides_encHi ..
  | addSp | subSp | beq | bne | bcs | bcc | bmi | bpl | bvs | bvc | bhi | bls | bge | blt | bgt | ble | bUndefined | svc | bkpt =>
    rw [Instr.opClass, encodeFirst]
    exact (decides_encByte_iff (hc := by decide) ..).2 (by decide)
  | push r | pop r =>
    rw [Instr.opClass, encodeFirst]
    exact (decides_encByte_iff (hc := by decide) ..).2 (by cases r <;> decide)
  | nop | yield | wfe | wfi | sev => exact (decides_whole_iff _ _ (by decide)).2 (by decide)
  | hint op =>
    rw [Instr.opClass]
    exact (decides_whole_iff _ _ (by decide)).2 ((decidesAt_hint_iff op).2 hwf)
  | cpsie low | cpsid low =>
    rw [Instr.opClass, encodeFirst]
    exact (decides_whole_iff _ _ (by decide)).2 (by revert low; decide)
  | b => exact decides_branch ..
  | bl => exact decides_longBranch ..
  | dsb option => exact (decides_barrier option).1
  | dmb option => exact (decides_barrier option).2.1
  | isb option => exact (decides_barrier option).2.2

/-- The class's handler reads the opcode and the fields back. -/
theorem select_encode (i : Instr) (hw2 : Half) : i.opClass.select (encodeFirst i) ((encodeSecond i).getD hw2) = i := by
  cases i with
  | lslImm | lsrImm | asrImm => simp [Instr.opClass, OpClass.select, encodeFirst, decodeMoveShifted]
  | addReg | subReg | addImm3 | subImm3 => simp [Instr.opClass, OpClass.select, encodeFirst, decodeAddSubtract]
  | movImm8 | cmpImm8 | addImm8 | subImm8 => simp [Instr.opClass, OpClass.select, encodeFirst, decodeImmediate]
  | and | eor | lslReg | lsrReg | asrReg | adc | sbc | ror | tst | neg | cmpReg | cmn | orr | mul | bic | mvn =>
    simp [Instr.opClass, OpClass.select, encodeFirst, decodeAlu]
  | addHi | cmpHi | movHi | bx | blx => simp [Instr.opClass, OpClass.select, encodeFirst, decodeHiRegister, -Nat.reduceAdd]
  | strReg | strbReg | ldrReg | ldrbReg => simp [Instr.opClass, OpClass.select, encodeFirst, decodeLoadStoreRegister]
  | strhReg | ldrhReg | ldsb | ldsh => simp [Instr.opClass, OpClass.select, encodeFirst, decodeLoadStoreSigned]
  | strImm | ldrImm | strbImm | ldrbImm => simp [Instr.opClass, OpClass.select, encodeFirst, decodeLoadStoreImmediate]
  | ldrPc | strhImm | ldrhImm | strSp | ldrSp | addPc | addRdSp | stmia | ldmia | svc | bkpt =>
    simp [Instr.opClass, OpClass.select, encodeFirst]
  | addSp | subSp =>
    simp [Instr.opClass, OpClass.select, encodeFirst, -Nat.reduceAdd, -BitVec.getLsbD_eq_getElem]
  | push r | pop r => cases r <;> simp [Instr.opClass, OpClass.select, encodeFirst, bit]
  | beq | bne | bcs | bcc | bmi | bpl | bvs | bvc | bhi | bls | bge | blt | bgt | ble | bUndefined =>
    simp [Instr.opClass, OpClass.select, encodeFirst, decodeCondBranch]
  | hint | cpsie | cpsid | b => simp [Instr.opClass, OpClass.select, encodeFirst, -Nat.reduceAdd]
  | bl => simp [Instr.opClass, OpClass.select, encodeFirst, encodeSecond, decodeLongBranch, -Nat.reduceAdd]
  | dsb | dmb | isb => simp [Instr.opClass, OpClass.select, encodeSecond, -Nat.reduceAdd]
  | nop | yield | wfe | wfi | sev => rfl

theorem decode_encode {i : Instr} (hwf : i.wf = true) (hw2 : Half) :
    decode (encodeFirst i) ((encodeSecond i).getD hw2) = .ok i :=
  decode_eq_ok_iff.2 ⟨i.opClass, decides_encode hwf hw2, select_encode i hw2⟩

/-- A 16-bit instruction is read back whatever follows it. A halfword written out in fields is first brought into the form of the format's
encoder (`change EncodedAs (encByte … …) _`). -/
theorem encodedAs_encodeFirst {i : Instr} (hwf : i.wf = true) (hshort : encodeSecond i = none) : EncodedAs (encodeFirst i) i := by
  intro hw2
  have h := decode_encode hwf hw2
  rwa [hshort] at h

theorem isSome_encodeSecond (i : Instr) : (encodeSecond i).isSome = i.isLong := by
  cases i <;> rfl

theorem encodeSecond_eq_none_iff {i : Instr} : encodeSecond i = none ↔ i.isLong = false := by
  rw [← isSome_encodeSecond, Option.isSome_eq_false_iff, Option.isNone_iff_eq_none]

/-! ## Bytes -/

theorem halfOfBytes_fields (h : Half) : halfOfBytes (fieldAt h 0 8) (fieldAt h 8 8) = h := by
  obtain ⟨hi, lo, rfl⟩ := exists_encByte h
  simp only [(fieldAt_encByte ..).1, (fieldAt_encByte ..).2]
  rfl

section bytes
variable {i : Instr} {hw1 hw2 : Half}

theorem decodeBytes_long (h : decode hw1 hw2 = .ok i) (hlong : i.isLong = true) (rest : List Byte) :
    decodeBytes (bytesOfHalf hw1 ++ bytesOfHalf hw2 ++ rest) = .ok (i, rest) := by
  simp [bytesOfHalf, decodeBytes, halfOfBytes_fields, h, hlong]

/-- The decoder looks at two more bytes where there are two. -/
theorem decodeBytes_short (h : EncodedAs hw1 i) (hshort : i.isLong = false) (rest : List Byte) :
    decodeBytes (bytesOfHalf hw1 ++ rest) = .ok (i, rest) := by
  unfold EncodedAs at h
  match rest with
  | [] | [_] | _ :: _ :: _ => simp [bytesOfHalf, decodeBytes, halfOfBytes_fields, h, hshort]

end bytes

theorem decodeBytes_encode {i : Instr} (hwf : i.wf = true) (rest : List Byte) :
    decodeBytes ((encode i).flatMap bytesOfHalf ++ rest) = .ok (i, rest) := by
  cases hsec : encodeSecond i with
  | none => simpa [encode, hsec] using decodeBytes_short (encodedAs_encodeFirst hwf hsec) (encodeSecond_eq_none_iff.1 hsec) rest
  | some hw2 =>
    have hlong : i.isLong = true := by rw [← isSome_encodeSecond, hsec]; rfl
    have hdec : decode (encodeFirst i) hw2 = .ok i := by simpa [hsec] using decode_encode hwf hw2
    simpa [encode, hsec] using decodeBytes_long hdec hlong rest

/-- Settles O1: the class of an instruction decides its encoding and selects the instruction; the bytes are those of the halfwords. -/
theorem decodeReadsBackEveryEncoding : Obligations.DecodeReadsBackEveryEncoding := by
  unfold Obligations.DecodeReadsBackEveryEncoding
  exact fun i hwf => ⟨decode_encode hwf, decodeBytes_encode hwf⟩

/-- Settles O4: which entries overlap and which lie in which is decided from the masks; the order matters only for them, since any search
finds the entry that decides. -/
theorem decodeEntriesOverlapInThreePairs : Obligations.DecodeEntriesOverlapInThreePairs := by
  unfold Obligations.DecodeEntriesOverlapInThreePairs
  refine ⟨fun a ha b hb hne ⟨hw1, hw2, hma, hmb⟩ => shadowPairs_of_matches ha hb hne hma hmb,
    fun a ha b hb h hw1 hw2 => matches_of_shadowPairs ha hb h,
    ?svc, ?format2, ?order⟩
  case svc =>
    intro imm8
    change EncodedAs (encByte (0b1101#4 ++ 0b1111#4) imm8) (.svc imm8)
    exact encodedAs_encodeFirst (i := .svc imm8) rfl rfl
  case format2 =>
    intro x third rs rd hw2
    change ∃ i, decode (encThree (0b00011#5 ++ x) third rs rd) hw2 = .ok i ∧ _
    have hx : x = 0 ∨ x = 1 ∨ x = 2 ∨ x = 3 := by revert x; decide
    rcases hx with rfl | rfl | rfl | rfl
    · exact ⟨_, encodedAs_encodeFirst (i := .addReg third rs rd) rfl rfl hw2, by simp⟩
    · exact ⟨_, encodedAs_encodeFirst (i := .subReg third rs rd) rfl rfl hw2, by simp⟩
    · exact ⟨_, encodedAs_encodeFirst (i := .addImm3 third rs rd) rfl rfl hw2, by simp⟩
    · exact ⟨_, encodedAs_encodeFirst (i := .subImm3 third rs rd) rfl rfl hw2, by simp⟩
  case order =>
    intro table hperm hord hw1 hw2
    exact Option.ext fun r => by
      rw [find?_eq_some_iff hperm hord, find?_eq_some_iff (.refl _) inOrder_decodeTable]

/-- Settles O6: each word is laid out as bytes and decoded by evaluation. -/
theorem sampleWordsDecode : Obligations.SampleWordsDecode := by
  unfold Obligations.SampleWordsDecode
  decide
end Sys2Proof
end

section
/-! SUPPORT. The decoder drops and invents no bit: of each class of the decode table, the instruction it selects has the two halfwords as
its encoding. A class is taken apart into the fields of its format; the opcode's field then has the few values the entry accepts. -/

namespace Sys2Proof

/-- `i` is well formed, and `hw1`, for a long instruction with `hw2`, is its encoding. -/
def IsEncoding (i : Instr) (hw1 hw2 : Half) : Prop :=
  i.wf = true ∧ encodeFirst i = hw1 ∧ encodeSecond i = if i.isLong then some hw2 else none

/-! ## What a deciding entry says of the fields -/

section decided
variable {c : OpClass} {hw1 hw2 : Half} (h : c.Decides hw1 hw2)
include h

theorem OpClass.Decides.masked_hw1 : hw1 &&& c.row.mask = c.row.bits := (DecodeRow.matches_iff.1 h.1).1

theorem OpClass.Decides.masked_hw2 : hw2 &&& c.row.test2.1 = c.row.test2.2 := (DecodeRow.matches_iff.1 h.1).2

/-- A field that the entry tests whole has the entry's value. -/
theorem OpClass.Decides.field_hw1 {lo n : Nat} {v : BitVec n}
    (hm : fieldAt c.row.mask lo n = BitVec.allOnes n ∧ fieldAt c.row.bits lo n = v) : fieldAt hw1 lo n = v :=
  (fieldAt_of_and_eq h.masked_hw1 hm.1).trans hm.2

theorem OpClass.Decides.field_hw2 {lo n : Nat} {v : BitVec n}
    (hm : fieldAt c.row.test2.1 lo n = BitVec.allOnes n ∧ fieldAt c.row.test2.2 lo n = v) : fieldAt hw2 lo n = v :=
  (fieldAt_of_and_eq h.masked_hw2 hm.1).trans hm.2

theorem OpClass.Decides.literal {v : Half} (hm : c.row.mask = BitVec.allOnes 16 ∧ c.row.bits = v) : hw1 = v := by
  rw [← hm.2, ← h.masked_hw1, hm.1, BitVec.and_allOnes]

end decided

theorem mem_bits1 (x : BitVec 1) : x ∈ [0#1, 1#1] := by revert x; decide

theorem mem_bits2 (x : BitVec 2) : x ∈ [0b00#2, 0b01, 0b10, 0b11] := by revert x; decide

theorem mem_bits4 (x : BitVec 4) : x ∈ [0b0000#4, 0b0001, 0b0010, 0b0011, 0b0100, 0b0101, 0b0110, 0b0111, 0b1000, 0b1001, 0b1010, 0b1011,
    0b1100, 0b1101, 0b1110, 0b1111] := by
  revert x; decide

/-! The values of an opcode's field that the entry accepts. -/

section opcodes
variable {c : OpClass} {op5 imm5 : BitVec 5} {op7 : BitVec 7} {op8 imm8 : BitVec 8} {third rs rd : BitVec 3} {hw2 : Half}

theorem opcode_encImm5 (h : c.Decides (encImm5 op5 imm5 rs rd) hw2) {ops : List (BitVec 5)} (hc : c.testsFrom 11 = true)
    (hops : ∀ op : BitVec 5, c.decidesAt 11 op = true → op ∈ ops) : op5 ∈ ops :=
  hops op5 ((decides_encImm5_iff (hc := hc) ..).1 h)

theorem opcode_encThree (h : c.Decides (encThree op7 third rs rd) hw2) {ops : List (BitVec 7)} (hc : c.testsFrom 9 = true)
    (hops : ∀ op : BitVec 7, c.decidesAt 9 op = true → op ∈ ops) : op7 ∈ ops :=
  hops op7 ((decides_encThree_iff (hc := hc) ..).1 h)

theorem opcode_encImm8 (h : c.Decides (encImm8 op5 rd imm8) hw2) {ops : List (BitVec 5)} (hc : c.testsFrom 11 = true)
    (hops : ∀ op : BitVec 5, c.decidesAt 11 op = true → op ∈ ops) : op5 ∈ ops :=
  hops op5 ((decides_encImm8_iff (hc := hc) ..).1 h)

theorem opcode_encByte (h : c.Decides (encByte op8 imm8) hw2) {ops : List (BitVec 8)} (hc : c.testsFrom 8 = true)
    (hops : ∀ op : BitVec 8, c.decidesAt 8 op = true → op ∈ ops) : op8 ∈ ops :=
  hops op8 ((decides_encByte_iff (hc := hc) ..).1 h)

end opcodes

/-! ## The classes -/

section classes
variable {hw1 hw2 : Half}

theorem isEncoding_moveShifted (h : OpClass.moveShifted.Decides hw1 hw2) : IsEncoding (OpClass.moveShifted.select hw1 hw2) hw1 hw2 := by
  obtain ⟨op, imm5, rs, rd, rfl⟩ := exists_encImm5 hw1
  have hop := opcode_encImm5 h (ops := [0b00000, 0b00001, 0b00010]) (by decide) (by decide)
  fin_cases hop <;>
    simp [OpClass.select, decodeMoveShifted, IsEncoding, Instr.wf, encodeFirst, encodeSecond, Instr.isLong]

theorem isEncoding_loadStoreImmediate (h : OpClass.loadStoreImmediate.Decides hw1 hw2) :
    IsEncoding (OpClass.loadStoreImmediate.select hw1 hw2) hw1 hw2 := by
  obtain ⟨op, imm5, rs, rd, rfl⟩ := exists_encImm5 hw1
  have hop := opcode_encImm5 h (ops := [0b01100, 0b01101, 0b01110, 0b01111]) (by decide) (by decide)
  fin_cases hop <;>
    simp [OpClass.select, decodeLoadStoreImmediate, IsEncoding, Instr.wf, encodeFirst, encodeSecond, Instr.isLong]

theorem isEncoding_loadStoreHalf (h : OpClass.loadStoreHalf.Decides hw1 hw2) :
    IsEncoding (OpClass.loadStoreHalf.select hw1 hw2) hw1 hw2 := by
  obtain ⟨op, imm5, rs, rd, rfl⟩ := exists_encImm5 hw1
  have hop := opcode_encImm5 h (ops := [0b10000, 0b10001]) (by decide) (by decide)
  fin_cases hop <;> simp [OpClass.select, IsEncoding, Instr.wf, encodeFirst, encodeSecond, Instr.isLong]

theorem isEncoding_addSubtract (h : OpClass.addSubtract.Decides hw1 hw2) : IsEncoding (OpClass.addSubtract.select hw1 hw2) hw1 hw2 := by
  obtain ⟨op, third, rs, rd, rfl⟩ := exists_encThree hw1
  have hop := opcode_encThree h (ops := [0b0001100, 0b0001101, 0b0001110, 0b0001111]) (by decide) (by decide)
  fin_cases hop <;>
    simp [OpClass.select, decodeAddSubtract, IsEncoding, Instr.wf, encodeFirst, encodeSecond, Instr.isLong]

theorem isEncoding_loadStoreRegister (h : OpClass.loadStoreRegister.Decides hw1 hw2) :
    IsEncoding (OpClass.loadStoreRegister.select hw1 hw2) hw1 hw2 := by
  obtain ⟨op, third, rs, rd, rfl⟩ := exists_encThree hw1
  have hop := opcode_encThree h (ops := [0b0101000, 0b0101010, 0b0101100, 0b0101110]) (by decide) (by decide)
  fin_cases hop <;>
    simp [OpClass.select, decodeLoadStoreRegister, IsEncoding, Instr.wf, encodeFirst, encodeSecond, Instr.isLong]

theorem isEncoding_loadStoreSigned (h : OpClass.loadStoreSigned.Decides hw1 hw2) :
    IsEncoding (OpClass.loadStoreSigned.select hw1 hw2) hw1 hw2 := by
  obtain ⟨op, third, rs, rd, rfl⟩ := exists_encThree hw1
  have hop := opcode_encThree h (ops := [0b0101001, 0b0101011, 0b0101101, 0b0101111]) (by decide) (by decide)
  fin_cases hop <;>
    simp [OpClass.select, decodeLoadStoreSigned, IsEncoding, Instr.wf, encodeFirst, encodeSecond, Instr.isLong]

theorem isEncoding_immediate (h : OpClass.immediate.Decides hw1 hw2) : IsEncoding (OpClass.immediate.select hw1 hw2) hw1 hw2 := by
  obtain ⟨op, rd, imm8, rfl⟩ := exists_encImm8 hw1
  have hop := opcode_encImm8 h (ops := [0b00100, 0b00101, 0b00110, 0b00111]) (by decide) (by decide)
  fin_cases hop <;>
    simp [OpClass.select, decodeImmediate, IsEncoding, Instr.wf, encodeFirst, encodeSecond, Instr.isLong]

/-- The classes of format `encImm8` that one bit or none splits: formats 6, 11, 12 and 15. -/
theorem isEncoding_encImm8 {c : OpClass} (hc : c ∈ [.loadPc, .loadStoreSp, .loadAddress, .multiple]) (h : c.Decides hw1 hw2) :
    IsEncoding (c.select hw1 hw2) hw1 hw2 := by
  obtain ⟨op, rd, imm8, rfl⟩ := exists_encImm8 hw1
  simp only [List.mem_cons, List.not_mem_nil, or_false] at hc
  rcases hc with rfl | rfl | rfl | rfl
  · have hop := opcode_encImm8 h (ops := [0b01001]) (by decide) (by decide)
    fin_cases hop
    simp [OpClass.select, IsEncoding, Instr.wf, encodeFirst, encodeSecond, Instr.isLong]
  · have hop := opcode_encImm8 h (ops := [0b10010, 0b10011]) (by decide) (by decide)
    fin_cases hop <;> simp [OpClass.select, IsEncoding, Instr.wf, encodeFirst, encodeSecond, Instr.isLong]
  · have hop := opcode_encImm8 h (ops := [0b10100, 0b10101]) (by decide) (by decide)
    fin_cases hop <;> simp [OpClass.select, IsEncoding, Instr.wf, encodeFirst, encodeSecond, Instr.isLong]
  · have hop := opcode_encImm8 h (ops := [0b11000, 0b11001]) (by decide) (by decide)
    fin_cases hop <;> simp [OpClass.select, IsEncoding, Instr.wf, encodeFirst, encodeSecond, Instr.isLong]

theorem isEncoding_alu (h : OpClass.alu.Decides hw1 hw2) : IsEncoding (OpClass.alu.select hw1 hw2) hw1 hw2 := by
  obtain ⟨op, rs, rd, rfl⟩ := exists_encAlu (h.field_hw1 (by decide))
  have hop := mem_bits4 op
  fin_cases hop <;> simp [OpClass.select, decodeAlu, IsEncoding, Instr.wf, encodeFirst, encodeSecond, Instr.isLong]

/-- op = 11 takes H1 as a further bit of the opcode. -/
theorem isEncoding_hiRegister (h : OpClass.hiRegister.Decides hw1 hw2) : IsEncoding (OpClass.hiRegister.select hw1 hw2) hw1 hw2 := by
  obtain ⟨op, m, h1, rd, rfl⟩ := exists_encHi (h.field_hw1 (by decide))
  have hop := mem_bits2 op
  have hh1 := mem_bits1 h1
  fin_cases hop <;> fin_cases hh1 <;>
    simp [OpClass.select, decodeHiRegister, IsEncoding, Instr.wf, encodeFirst, encodeSecond, Instr.isLong, -Nat.reduceAdd]

theorem isEncoding_condBranch (h : OpClass.condBranch.Decides hw1 hw2) : IsEncoding (OpClass.condBranch.select hw1 hw2) hw1 hw2 := by
  obtain ⟨op, imm8, rfl⟩ := exists_encByte hw1
  have hop := opcode_encByte h (ops := [0xD0, 0xD1, 0xD2, 0xD3, 0xD4, 0xD5, 0xD6, 0xD7, 0xD8, 0xD9, 0xDA, 0xDB, 0xDC, 0xDD, 0xDE])
    (by decide) (by decide)
  fin_cases hop <;> simp [OpClass.select, decodeCondBranch, IsEncoding, Instr.wf, encodeFirst, encodeSecond, Instr.isLong]

theorem isEncoding_pushPop (h : OpClass.pushPop.Decides hw1 hw2) : IsEncoding (OpClass.pushPop.select hw1 hw2) hw1 hw2 := by
  obtain ⟨op, rlist, rfl⟩ := exists_encByte hw1
  have hop := opcode_encByte h (ops := [0xB4, 0xB5, 0xBC, 0xBD]) (by decide) (by decide)
  fin_cases hop <;> simp [OpClass.select, IsEncoding, Instr.wf, encodeFirst, encodeSecond, Instr.isLong, bit]

theorem isEncoding_adjustSp (h : OpClass.adjustSp.Decides hw1 hw2) : IsEncoding (OpClass.adjustSp.select hw1 hw2) hw1 hw2 := by
  obtain ⟨op, imm8, rfl⟩ := exists_encByte hw1
  have hop := opcode_encByte h (ops := [0xB0]) (by decide) (by decide)
  obtain ⟨s, imm7, rfl⟩ := exists_append (n := 1) (k := 7) imm8
  have hs := mem_bits1 s
  fin_cases hop
  fin_cases hs <;>
    simp [OpClass.select, IsEncoding, Instr.wf, encodeFirst, encodeSecond, Instr.isLong, -Nat.reduceAdd, -BitVec.getLsbD_eq_getElem]

theorem isEncoding_svc_or_bkpt {c : OpClass} (hc : c ∈ [.svc, .bkpt]) (h : c.Decides hw1 hw2) :
    IsEncoding (c.select hw1 hw2) hw1 hw2 := by
  simp only [List.mem_cons, List.not_mem_nil, or_false] at hc
  obtain ⟨op, imm8, rfl⟩ := exists_encByte hw1
  rcases hc with rfl | rfl <;>
  · obtain rfl : op = _ := (fieldAt_encByte ..).1.symm.trans (h.field_hw1 ⟨by decide, rfl⟩)
    rw [OpClass.select, (fieldAt_encByte ..).2]
    exact ⟨rfl, rfl, rfl⟩

theorem isEncoding_otherHint (h : OpClass.otherHint.Decides hw1 hw2) : IsEncoding (OpClass.otherHint.select hw1 hw2) hw1 hw2 := by
  obtain ⟨op, low, rfl⟩ := exists_nibbles (h.field_hw1 (lo := 8) (v := 0xBF) (by decide))
  obtain rfl : low = 0 := (fieldAt_encByte_nibbles ..).2.symm.trans (h.field_hw1 (by decide))
  have hwf : (Instr.hint op).wf = true := (decidesAt_hint_iff op).1 ((decides_whole_iff _ _ (by decide)).1 h)
  rw [OpClass.select, (fieldAt_encByte_nibbles ..).1]
  exact ⟨hwf, rfl, rfl⟩

/-- CPS: eight fixed bits and im, then I, F and the should-be-zero bits. -/
theorem isEncoding_cps {c : OpClass} (hc : c ∈ [.cpsie, .cpsid]) (h : c.Decides hw1 hw2) : IsEncoding (c.select hw1 hw2) hw1 hw2 := by
  simp only [List.mem_cons, List.not_mem_nil, or_false] at hc
  rcases hc with rfl | rfl <;>
  · obtain ⟨im, low, rfl⟩ := exists_nibbles (h.field_hw1 (lo := 8) (v := 0xB6) (by decide))
    obtain rfl : im = _ := (fieldAt_encByte_nibbles ..).1.symm.trans (h.field_hw1 ⟨by decide, rfl⟩)
    rw [OpClass.select, (fieldAt_encByte_nibbles ..).2]
    exact ⟨rfl, rfl, rfl⟩

theorem isEncoding_branch (h : OpClass.branch.Decides hw1 hw2) : IsEncoding (OpClass.branch.select hw1 hw2) hw1 hw2 := by
  obtain ⟨imm11, rfl⟩ := exists_branch (h.field_hw1 (by decide))
  rw [OpClass.select, (fieldAt_branch ..).2]
  exact ⟨rfl, rfl, rfl⟩

theorem isEncoding_longBranch (h : OpClass.longBranch.Decides hw1 hw2) : IsEncoding (OpClass.longBranch.select hw1 hw2) hw1 hw2 := by
  obtain ⟨s, imm10, rfl⟩ := exists_longBranch_first (h.field_hw1 (by decide))
  obtain ⟨j1, j2, imm11, rfl⟩ := exists_longBranch_second (h.field_hw2 (by decide)) (h.field_hw2 (by decide))
  obtain ⟨_, hs, himm10⟩ := fieldAt_longBranch_first 0b11110#5 s imm10
  obtain ⟨_, hj1, _, hj2, himm11⟩ := fieldAt_longBranch_second 0b11#2 j1 1#1 j2 imm11
  rw [OpClass.select, decodeLongBranch, hs, himm10, hj1, hj2, himm11]
  exact ⟨rfl, rfl, rfl⟩

/-- The barriers: hw1 is a literal, hw2 has the option below twelve fixed bits. -/
theorem isEncoding_barrier {c : OpClass} (hc : c ∈ [.dsb, .dmb, .isb]) (h : c.Decides hw1 hw2) :
    IsEncoding (c.select hw1 hw2) hw1 hw2 := by
  simp only [List.mem_cons, List.not_mem_nil, or_false] at hc
  rcases hc with rfl | rfl | rfl <;>
  · obtain rfl : hw1 = 0xF3BF := h.literal (by decide)
    obtain ⟨option, rfl⟩ := exists_barrier (h.field_hw2 (lo := 4) ⟨by decide, rfl⟩)
    rw [OpClass.select, (fieldAt_barrier ..).2]
    exact ⟨rfl, rfl, rfl⟩

/-- The literals P1 to P5. -/
theorem isEncoding_literal {c : OpClass} (hc : c ∈ [.nop, .yield, .wfe, .wfi, .sev]) (h : c.Decides hw1 hw2) :
    IsEncoding (c.select hw1 hw2) hw1 hw2 := by
  simp only [List.mem_cons, List.not_mem_nil, or_false] at hc
  rcases hc with rfl | rfl | rfl | rfl | rfl <;>
  · rw [OpClass.select]
    exact ⟨rfl, (h.literal (by decide)).symm, rfl⟩

end classes

theorem isEncoding_select {c : OpClass} {hw1 hw2 : Half} (h : c.Decides hw1 hw2) : IsEncoding (c.select hw1 hw2) hw1 hw2 := by
  cases c with
  | nop | yield | wfe | wfi | sev => exact isEncoding_literal (by decide) h
  | otherHint => exact isEncoding_otherHint h
  | dsb | dmb | isb => exact isEncoding_barrier (by decide) h
  | cpsie | cpsid => exact isEncoding_cps (by decide) h
  | bkpt | svc => exact isEncoding_svc_or_bkpt (by decide) h
  | longBranch => exact isEncoding_longBranch h
  | adjustSp => exact isEncoding_adjustSp h
  | pushPop => exact isEncoding_pushPop h
  | hiRegister => exact isEncoding_hiRegister h
  | alu => exact isEncoding_alu h
  | loadStoreSigned => exact isEncoding_loadStoreSigned h
  | loadStoreRegister => exact isEncoding_loadStoreRegister h
  | addSubtract => exact isEncoding_addSubtract h
  | moveShifted => exact isEncoding_moveShifted h
  | immediate => exact isEncoding_immediate h
  | loadStoreImmediate => exact isEncoding_loadStoreImmediate h
  | loadStoreHalf => exact isEncoding_loadStoreHalf h
  | loadPc | loadStoreSp | loadAddress | multiple => exact isEncoding_encImm8 (by decide) h
  | condBranch => exact isEncoding_condBranch h
  | branch => exact isEncoding_branch h

/-- Whatever decodes is the encoding of what it decodes to. -/
theorem isEncoding_of_decode {hw1 hw2 : Half} {i : Instr} (h : decode hw1 hw2 = .ok i) : IsEncoding i hw1 hw2 := by
  obtain ⟨c, hc, rfl⟩ := decode_eq_ok_iff.1 h
  exact isEncoding_select hc

/-- Settles O2, class by class of the decode table: `isEncoding_select`. -/
theorem everyDecodedPairIsTheEncoding : Obligations.EveryDecodedPairIsTheEncoding := by
  unfold Obligations.EveryDecodedPairIsTheEncoding
  exact fun hw1 hw2 i h => isEncoding_of_decode h

end Sys2Proof
end

section
/-! SUPPORT. The lengths (30_encoding.md R90) and the unallocated encodings (R117), with the two obligations about them. -/

namespace Sys2Proof

/-! ## Lengths -/

/-- hw1[15:11] announces a 32-bit encoding (R90). -/
def LongPrefix (p : BitVec 5) : Prop := p = 0b11101#5 ∨ p = 0b11110#5 ∨ p = 0b11111#5

/-- The entries with a test of hw2 are those whose hw1 announces a 32-bit encoding. -/
theorem hw2_isSome_iff_longPrefix : ∀ r ∈ decodeTable, ∀ p : BitVec 5, p &&& fieldAt r.mask 11 5 = fieldAt r.bits 11 5 →
    (r.hw2.isSome = true ↔ LongPrefix p) := by
  unfold LongPrefix
  decide

theorem isLong_iff_row (i : Instr) : i.isLong = i.opClass.row.hw2.isSome := by
  cases i <;> rfl

section lengths
variable {hw1 hw2 : Half} {i : Instr}

theorem isLong_iff_longPrefix (h : decode hw1 hw2 = .ok i) : i.isLong = true ↔ LongPrefix (hw1.extractLsb' 11 5) := by
  obtain ⟨hwf, rfl, _⟩ := isEncoding_of_decode h
  have hmask := (decides_encode hwf hw2).masked_hw1
  rw [isLong_iff_row]
  exact hw2_isSome_iff_longPrefix _ i.opClass.row_mem _ (fieldAt_and_of_and_eq hmask 11 5)

/-- A short instruction is decoded alike whatever follows. -/
theorem decode_of_short (h : decode hw1 hw2 = .ok i) (hshort : i.isLong = false) : EncodedAs hw1 i := by
  obtain ⟨hwf, rfl, _⟩ := isEncoding_of_decode h
  exact encodedAs_encodeFirst hwf (encodeSecond_eq_none_iff.2 hshort)

theorem decode_ignores_hw2 (hp : ¬ LongPrefix (hw1.extractLsb' 11 5)) (hw2 hw2' : Half) : decode hw1 hw2 = decode hw1 hw2' := by
  have hshort : ∀ {x i}, decode hw1 x = .ok i → EncodedAs hw1 i := fun h =>
    decode_of_short h (by rw [← isLong_iff_longPrefix h] at hp; simpa using hp)
  rcases decode_error_or_ok hw1 hw2 with he | ⟨i, hi⟩
  · rcases decode_error_or_ok hw1 hw2' with he' | ⟨i, hi⟩
    · rw [he, he']
    · rw [hi, hshort hi hw2]
  · rw [hi, hshort hi hw2']

end lengths

theorem isLong_iff (i : Instr) : i.isLong = true ↔
    (∃ s imm10 j1 j2 imm11, i = .bl s imm10 j1 j2 imm11) ∨ ∃ op, i = .dsb op ∨ i = .dmb op ∨ i = .isb op := by
  cases i <;> simp [Instr.isLong]

/-- Settles O3: the long instructions belong to the entries with a test of hw2, which are those that hw1[15:11] tells; a short one is the
encoding of what it decodes to, and that is read back with any hw2. -/
theorem lengthIsToldByTheFirstHalfword : Obligations.LengthIsToldByTheFirstHalfword := by
  unfold Obligations.LengthIsToldByTheFirstHalfword
  exact ⟨isLong_iff, fun _ _ _ h => isLong_iff_longPrefix h, fun _ hw2 hw2' hp => decode_ignores_hw2 hp hw2 hw2'⟩

/-! ## Unallocated encodings -/

theorem fieldAt_upper_toNat {lo n : Nat} (hn : n + lo = 16) (hw : Half) : (fieldAt hw lo n).toNat = hw.toNat / 2 ^ lo := by
  have hlt : hw.toNat / 2 ^ lo < 2 ^ n := Nat.div_lt_of_lt_mul (by rw [← Nat.pow_add, Nat.add_comm, hn]; exact hw.isLt)
  rw [fieldAt, BitVec.extractLsb'_toNat, Nat.shiftRight_eq_div_pow, Nat.mod_eq_of_lt hlt]

/-- A mask of the bits from `lo` on compares all but the last `lo` bits. -/
theorem and_eq_iff_div {lo n : Nat} (hn : n + lo = 16) {mask bits : Half}
    (hm : fieldAt mask 0 lo = 0 ∧ fieldAt mask lo n = BitVec.allOnes n) (hb : fieldAt bits 0 lo = 0) (hw : Half) :
    hw &&& mask = bits ↔ hw.toNat / 2 ^ lo = bits.toNat / 2 ^ lo := by
  rw [and_eq_iff_fieldAt hn hm.1 hb, hm.2, BitVec.and_allOnes, ← BitVec.toNat_inj, fieldAt_upper_toNat hn, fieldAt_upper_toNat hn]

theorem DecodeRow.matches_iff_hw1 {r : DecodeRow} (h : r.hw2 = none) (hw1 hw2 : Half) :
    r.matches hw1 hw2 = true ↔ hw1 &&& r.mask = r.bits := by
  simp [DecodeRow.matches_iff, DecodeRow.test2, h]

/-- P1 to P6. -/
def hintClasses : List OpClass := [.nop, .yield, .wfe, .wfi, .sev, .otherHint]

/-- P7 to P9. -/
def barrierClasses : List OpClass := [.dsb, .dmb, .isb]

/-- P10 and P11. -/
def cpsClasses : List OpClass := [.cpsie, .cpsid]

section allocated
variable {hw1 hw2 : Half}

/-! The halfwords of each group of entries. -/

/-- The pages of 256 halfwords that the entries without a test of the lower byte take. -/
theorem page_iff : ∀ page : BitVec 8, (∃ r ∈ decodeTable, r.testsFrom 8 = true ∧ r.accepts 8 page = true) ↔
    page < 0xB1#8 ∨ 0xB4#8 ≤ page ∧ page < 0xB6#8 ∨ 0xBC#8 ≤ page ∧ page < 0xBF#8 ∨ 0xC0#8 ≤ page ∧ page < 0xE8#8 := by
  decide

theorem matches_page_iff : (∃ r ∈ decodeTable, r.testsFrom 8 = true ∧ r.matches hw1 hw2 = true) ↔
    hw1.toNat < 0xB100 ∨ 0xB400 ≤ hw1.toNat ∧ hw1.toNat < 0xB600 ∨ 0xBC00 ≤ hw1.toNat ∧ hw1.toNat < 0xBF00 ∨
      0xC000 ≤ hw1.toNat ∧ hw1.toNat < 0xE800 := by
  have hpage : (fieldAt hw1 8 8).toNat = hw1.toNat / 256 := fieldAt_upper_toNat rfl hw1
  have haccepts : (∃ r ∈ decodeTable, r.testsFrom 8 = true ∧ r.matches hw1 hw2 = true) ↔
      ∃ r ∈ decodeTable, r.testsFrom 8 = true ∧ r.accepts 8 (fieldAt hw1 8 8) = true :=
    exists_congr fun r => and_congr_right fun _ => and_congr_right fun hr => by rw [r.matches_eq_accepts (n := 8) rfl hr]
  rw [haccepts, page_iff]
  simp only [BitVec.lt_def, BitVec.le_def, hpage, BitVec.toNat_ofNat]
  omega

/-- P1 to P5 lie inside P6. -/
theorem matches_hint_iff : (∃ c ∈ hintClasses, c.row.matches hw1 hw2 = true) ↔
    hw1.toNat / 256 = 0xBF ∧ hw1.toNat % 16 = 0 := by
  have hother : (∃ c ∈ hintClasses, c.row.matches hw1 hw2 = true) ↔
      OpClass.otherHint.row.matches hw1 hw2 = true := by
    refine ⟨fun ⟨c, hc, hm⟩ => ?_, fun hm => ⟨.otherHint, by decide, hm⟩⟩
    by_cases ho : c = .otherHint
    · rwa [ho] at hm
    · have hshadow : (c, OpClass.otherHint) ∈ shadowPairs := by
        revert ho hc
        cases c <;> decide
      exact matches_of_shadowPairs c.row_mem OpClass.otherHint.row_mem (by rwa [OpClass.row_cls, OpClass.row_cls]) hm
  have hfields : hw1 &&& 0xFF0F = 0xBF00 ↔ fieldAt hw1 8 8 = 0xBF ∧ fieldAt hw1 0 4 = 0 := by
    refine ⟨fun h => ⟨fieldAt_of_and_eq h (by decide), fieldAt_of_and_eq h (by decide)⟩, fun ⟨hpage, hlow⟩ => ?_⟩
    obtain ⟨op, low, rfl⟩ := exists_nibbles hpage
    obtain rfl : low = 0 := (fieldAt_encByte_nibbles ..).2.symm.trans hlow
    clear hpage hlow hother
    revert op
    decide
  have hnibble : (fieldAt hw1 0 4).toNat = hw1.toNat % 16 := by rw [fieldAt, BitVec.extractLsb'_toNat, Nat.shiftRight_zero]
  rw [hother, DecodeRow.matches_iff_hw1 (by decide)]
  refine hfields.trans ?_
  rw [← BitVec.toNat_inj, ← BitVec.toNat_inj, fieldAt_upper_toNat rfl, hnibble]
  rfl

theorem matches_cps_iff : (∃ c ∈ cpsClasses, c.row.matches hw1 hw2 = true) ↔ 0xB660 ≤ hw1.toNat ∧ hw1.toNat < 0xB680 := by
  have hie : OpClass.cpsie.row.matches hw1 hw2 = true ↔ hw1.toNat / 16 = 0xB66 := by
    rw [DecodeRow.matches_iff_hw1 (by decide)]
    exact and_eq_iff_div (lo := 4) (n := 12) rfl (by decide) (by decide) hw1
  have hid : OpClass.cpsid.row.matches hw1 hw2 = true ↔ hw1.toNat / 16 = 0xB67 := by
    rw [DecodeRow.matches_iff_hw1 (by decide)]
    exact and_eq_iff_div (lo := 4) (n := 12) rfl (by decide) (by decide) hw1
  simp only [cpsClasses, List.exists_mem_cons_iff, List.not_mem_nil, false_and, exists_false, or_false, hie, hid]
  omega

theorem matches_barrierRow_iff {r : DecodeRow} {bits2 : Half}
    (hr : r.mask = 0xFFFF ∧ r.bits = 0xF3BF ∧ r.hw2 = some (0xFFF0, bits2)) (hb : fieldAt bits2 0 4 = 0) :
    r.matches hw1 hw2 = true ↔ hw1.toNat = 0xF3BF ∧ hw2.toNat / 16 = bits2.toNat / 16 := by
  obtain ⟨hmask, hbits, htest⟩ := hr
  have h1 : hw1 &&& 0xFFFF = 0xF3BF ↔ hw1.toNat / 1 = 0xF3BF := and_eq_iff_div (lo := 0) (n := 16) rfl (by decide) (by decide) hw1
  have h2 : hw2 &&& 0xFFF0 = bits2 ↔ hw2.toNat / 16 = bits2.toNat / 16 := and_eq_iff_div (lo := 4) (n := 12) rfl (by decide) hb hw2
  rw [DecodeRow.matches_iff, DecodeRow.test2, htest, hmask, hbits, Option.getD_some, h1, h2, Nat.div_one]

theorem matches_barrier_iff : (∃ c ∈ barrierClasses, c.row.matches hw1 hw2 = true) ↔
    hw1.toNat = 0xF3BF ∧ 0x8F40 ≤ hw2.toNat ∧ hw2.toNat < 0x8F70 := by
  have hdsb := matches_barrierRow_iff (hw1 := hw1) (hw2 := hw2) (r := OpClass.dsb.row) (bits2 := 0x8F40#16) (by decide) (by decide)
  have hdmb := matches_barrierRow_iff (hw1 := hw1) (hw2 := hw2) (r := OpClass.dmb.row) (bits2 := 0x8F50#16) (by decide) (by decide)
  have hisb := matches_barrierRow_iff (hw1 := hw1) (hw2 := hw2) (r := OpClass.isb.row) (bits2 := 0x8F60#16) (by decide) (by decide)
  simp only [barrierClasses, List.exists_mem_cons_iff, List.not_mem_nil, false_and, exists_false, or_false, hdsb, hdmb, hisb,
    BitVec.toNat_ofNat]
  omega

theorem matches_longBranch_iff : OpClass.longBranch.row.matches hw1 hw2 = true ↔
    0xF000 ≤ hw1.toNat ∧ hw1.toNat < 0xF800 ∧ hw2 &&& 0xD000#16 = 0xD000#16 := by
  have h1 : hw1 &&& 0xF800 = 0xF000 ↔ hw1.toNat / 2048 = 0x1E :=
    and_eq_iff_div (lo := 11) (n := 5) rfl (by decide) (by decide) hw1
  have h : OpClass.longBranch.row.matches hw1 hw2 = true ↔ hw1 &&& 0xF800 = 0xF000 ∧ hw2 &&& 0xD000#16 = 0xD000#16 :=
    DecodeRow.matches_iff
  rw [h, h1, ← and_assoc]
  exact and_congr_left fun _ => by omega

/-- Which entries look beyond the upper byte of hw1: those of the hints, of CPS, of the barriers and of BL. -/
theorem testsFrom_or_mem : ∀ r ∈ decodeTable, r.testsFrom 8 = true ∨ r.cls ∈ hintClasses ∨
    r.cls ∈ cpsClasses ∨ r.cls ∈ barrierClasses ∨ r.cls = .longBranch := by
  decide

theorem exists_matches_iff : (∃ r ∈ decodeTable, r.matches hw1 hw2 = true) ↔
    (∃ r ∈ decodeTable, r.testsFrom 8 = true ∧ r.matches hw1 hw2 = true) ∨
    (∃ c ∈ hintClasses, c.row.matches hw1 hw2 = true) ∨
    (∃ c ∈ cpsClasses, c.row.matches hw1 hw2 = true) ∨
    (∃ c ∈ barrierClasses, c.row.matches hw1 hw2 = true) ∨ OpClass.longBranch.row.matches hw1 hw2 = true := by
  constructor
  · rintro ⟨r, hr, hm⟩
    have hrow : r.cls.row.matches hw1 hw2 = true := by rwa [row_cls_of_mem r hr]
    rcases testsFrom_or_mem r hr with h | h | h | h | h
    · exact .inl ⟨r, hr, h, hm⟩
    · exact .inr (.inl ⟨_, h, hrow⟩)
    · exact .inr (.inr (.inl ⟨_, h, hrow⟩))
    · exact .inr (.inr (.inr (.inl ⟨_, h, hrow⟩)))
    · exact .inr (.inr (.inr (.inr (h ▸ hrow))))
  · rintro (⟨r, hr, _, hm⟩ | ⟨c, _, hm⟩ | ⟨c, _, hm⟩ | ⟨c, _, hm⟩ | hm)
    · exact ⟨r, hr, hm⟩
    · exact ⟨_, c.row_mem, hm⟩
    · exact ⟨_, c.row_mem, hm⟩
    · exact ⟨_, c.row_mem, hm⟩
    · exact ⟨_, OpClass.longBranch.row_mem, hm⟩

end allocated

/-- Settles O5: what no entry matches is what the ranges of the entries leave. -/
theorem unallocatedEncodingsAreUnknown : Obligations.UnallocatedEncodingsAreUnknown := by
  unfold Obligations.UnallocatedEncodingsAreUnknown
  refine fun hw1 hw2 => ⟨decode_error_or_ok hw1 hw2, ?_⟩
  have hnone : (∀ r ∈ decodeTable, r.matches hw1 hw2 = false) ↔ ¬ ∃ r ∈ decodeTable, r.matches hw1 hw2 = true := by simp
  rw [decode_eq_error_iff, hnone, exists_matches_iff, matches_page_iff, matches_hint_iff, matches_cps_iff, matches_barrier_iff,
    matches_longBranch_iff]
  have hlt : hw1.toNat < 65536 := hw1.isLt
  have hnibble : hw1.extractLsb' 0 4 = 0#4 ↔ hw1.toNat % 16 = 0 := by
    rw [← BitVec.toNat_inj, BitVec.extractLsb'_toNat, Nat.shiftRight_zero]
    rfl
  rw [ne_eq, hnibble, ← BitVec.toNat_inj (x := hw1) (y := 0xF3BF#16)]
  simp only [BitVec.le_def, BitVec.toNat_ofNat]
  by_cases hbl : hw2 &&& 0xD000#16 = 0xD000#16
  · simp only [hbl, ne_eq, not_true_eq_false, and_true, false_and, and_false, or_false]
    omega
  · simp only [hbl, ne_eq, not_false_eq_true, true_and, and_false, or_false]
    omega

end Sys2Proof
end

section
/-! SUPPORT. The value of every immediate operand form (30_encoding.md R114). -/

namespace Sys2Proof.Machine

section
variable {n : Nat} (i : BitVec n)

theorem imm_toNat (hn : n ≤ 32) : (imm i).toNat = i.toNat := by
  rw [imm, BitVec.toNat_setWidth_of_le hn]

theorem toNat_append_zero (k : Nat) : (i ++ 0#k).toNat = 2 ^ k * i.toNat := by
  simp [BitVec.toNat_append, Nat.shiftLeft_eq, Nat.mul_comm]

theorem immX2_toNat (hn : n + 1 ≤ 32) : (immX2 i).toNat = 2 * i.toNat :=
  (BitVec.toNat_setWidth_of_le hn).trans (toNat_append_zero i 1)

theorem immX4_toNat (hn : n + 2 ≤ 32) : (immX4 i).toNat = 4 * i.toNat :=
  (BitVec.toNat_setWidth_of_le hn).trans (toNat_append_zero i 2)

theorem branchOffset_toInt (hn : n + 1 ≤ 32) : (branchOffset i).toInt = 2 * i.toInt := by
  rw [branchOffset, BitVec.toInt_signExtend_of_le hn, BitVec.toInt_append_zero, Int.pow_one, Int.mul_comm]

end

theorem branchOffset_bounds {n : Nat} (hn : n + 2 ≤ 32) (i : BitVec (n + 1)) :
    -2 ^ (n + 1) ≤ (branchOffset i).toInt ∧ (branchOffset i).toInt ≤ 2 ^ (n + 1) - 2 := by
  have hlow : -2 ^ n ≤ i.toInt := i.le_toInt
  have hhigh : i.toInt < 2 ^ n := i.toInt_lt
  rw [branchOffset_toInt i hn, Int.pow_succ]
  omega

/-- The three bits above imm10, as the number they spell in two's complement. -/
theorem longBranchHigh_toInt (s j1 j2 : BitVec 1) : (s ++ ~~~(j1 ^^^ s) ++ ~~~(j2 ^^^ s)).toInt =
    -4 * (s.toNat : Int) + 2 * (if j1 = s then 1 else 0) + (if j2 = s then 1 else 0) := by
  revert s j1 j2; decide

theorem longBranchOffset_toInt (s : BitVec 1) (imm10 : BitVec 10) (j1 j2 : BitVec 1) (imm11 : BitVec 11) :
    (longBranchOffset s imm10 j1 j2 imm11).toInt =
      -2 ^ 24 * (s.toNat : Int) + 2 ^ 23 * (if j1 = s then 1 else 0) + 2 ^ 22 * (if j2 = s then 1 else 0) + 2 ^ 12 * (imm10.toNat : Int) +
        2 * (imm11.toNat : Int) := by
  rw [longBranchOffset, BitVec.toInt_signExtend_of_le (by decide), BitVec.toInt_append_zero, BitVec.toInt_append,
    if_neg (by decide), BitVec.toInt_append, if_neg (by decide), longBranchHigh_toInt]
  omega

theorem longBranchOffset_bounds (s : BitVec 1) (imm10 : BitVec 10) (j1 j2 : BitVec 1) (imm11 : BitVec 11) :
    -16777216 ≤ (longBranchOffset s imm10 j1 j2 imm11).toInt ∧ (longBranchOffset s imm10 j1 j2 imm11).toInt ≤ 16777214 := by
  rw [longBranchOffset_toInt]
  omega

/-- Settles O7: the value and the bounds of each operand form. -/
theorem immediateFieldValues : Obligations.ImmediateFieldValues := by
  unfold Obligations.ImmediateFieldValues
  have hbranch8 : ∀ imm8 : BitVec 8, _ := branchOffset_bounds (n := 7) (by decide)
  have hbranch11 : ∀ imm11 : BitVec 11, _ := branchOffset_bounds (n := 10) (by decide)
  exact ⟨fun _ => rfl, fun i => imm_toNat i (by decide), fun i => ⟨imm_toNat i (by decide), immX4_toNat i (by decide)⟩,
    fun i => immX4_toNat i (by decide), fun i => ⟨imm_toNat i (by decide), immX2_toNat i (by decide), immX4_toNat i (by decide)⟩,
    fun i => ⟨branchOffset_toInt i (by decide), hbranch8 i⟩, fun i => ⟨branchOffset_toInt i (by decide), hbranch11 i⟩,
    fun s imm10 j1 j2 imm11 => ⟨longBranchOffset_toInt s imm10 j1 j2 imm11, longBranchOffset_bounds s imm10 j1 j2 imm11⟩⟩
end Sys2Proof.Machine
end

section
/-! SUPPORT. The flags of a sum and of a difference: the four sign-bit formulas (41_data_processing.md R131 to R134) are exact in integers. -/

namespace Sys2Proof.Machine

/-! ## Sign bits -/

theorem isNeg_eq (x : Word) : isNeg x = decide (2 ^ 31 ≤ x.toNat) := BitVec.msb_eq_decide x

theorem isPos_eq (x : Word) : isPos x = decide (x.toNat < 2 ^ 31) := by
  rw [isPos, isNeg_eq, ← decide_not, decide_eq_decide, Nat.not_le]

/-- The signed value in terms of the unsigned one and the sign bit. -/
theorem toInt_eq_sub (x : Word) : x.toInt = x.toNat - if 2 ^ 31 ≤ x.toNat then 2 ^ 32 else 0 := by
  rw [BitVec.toInt_eq_toNat_cond]
  split <;> split <;> omega

section primitives
variable (a b : Word) (cin : Bool)

theorem toNat_sum : (a + b + BitVec.ofNat 32 cin.toNat).toNat = (a.toNat + b.toNat + cin.toNat) % 2 ^ 32 := by
  simp [BitVec.toNat_add]

theorem toNat_difference :
    (a - b - BitVec.ofNat 32 (!cin).toNat).toNat = (2 ^ 32 + a.toNat - b.toNat - (!cin).toNat) % 2 ^ 32 := by
  have hb : b.toNat < 2 ^ 32 := b.isLt
  have hborrow : (!cin).toNat ≤ 1 := (!cin).toNat_le
  simp only [BitVec.toNat_sub, BitVec.toNat_ofNat]
  omega

theorem addCarry_sum : addCarry a b (a + b + BitVec.ofNat 32 cin.toNat) = decide (2 ^ 32 ≤ a.toNat + b.toNat + cin.toNat) := by
  have ha : a.toNat < 2 ^ 32 := a.isLt
  have hb : b.toNat < 2 ^ 32 := b.isLt
  have hcin : cin.toNat ≤ 1 := cin.toNat_le
  rw [Bool.eq_iff_iff]
  simp only [addCarry, isNeg_eq, isPos_eq, toNat_sum, Bool.or_eq_true, Bool.and_eq_true, decide_eq_true_eq]
  omega

theorem addOverflow_sum : addOverflow a b (a + b + BitVec.ofNat 32 cin.toNat) =
    decide (a.toInt + b.toInt + cin.toNat < -2 ^ 31 ∨ 2 ^ 31 ≤ a.toInt + b.toInt + cin.toNat) := by
  have ha : a.toNat < 2 ^ 32 := a.isLt
  have hb : b.toNat < 2 ^ 32 := b.isLt
  have hcin : cin.toNat ≤ 1 := cin.toNat_le
  rw [Bool.eq_iff_iff]
  simp only [addOverflow, isNeg_eq, isPos_eq, toNat_sum, Bool.or_eq_true, Bool.and_eq_true, decide_eq_true_eq, toInt_eq_sub]
  omega

theorem subCarry_difference : subCarry a b (a - b - BitVec.ofNat 32 (!cin).toNat) = decide (b.toNat + (!cin).toNat ≤ a.toNat) := by
  have ha : a.toNat < 2 ^ 32 := a.isLt
  have hb : b.toNat < 2 ^ 32 := b.isLt
  have hborrow : (!cin).toNat ≤ 1 := (!cin).toNat_le
  rw [Bool.eq_iff_iff]
  simp only [subCarry, isNeg_eq, isPos_eq, toNat_difference, Bool.or_eq_true, Bool.and_eq_true, decide_eq_true_eq]
  omega

theorem subOverflow_difference : subOverflow a b (a - b - BitVec.ofNat 32 (!cin).toNat) =
    decide (a.toInt - b.toInt - (!cin).toNat < -2 ^ 31 ∨ 2 ^ 31 ≤ a.toInt - b.toInt - (!cin).toNat) := by
  have ha : a.toNat < 2 ^ 32 := a.isLt
  have hb : b.toNat < 2 ^ 32 := b.isLt
  have hborrow : (!cin).toNat ≤ 1 := (!cin).toNat_le
  rw [Bool.eq_iff_iff]
  simp only [subOverflow, isNeg_eq, isPos_eq, toNat_difference, Bool.or_eq_true, Bool.and_eq_true, decide_eq_true_eq, toInt_eq_sub]
  omega

/-- A difference is a sum with the complement (R136). -/
theorem difference_eq_add_not : a - b - BitVec.ofNat 32 (!cin).toNat = a + ~~~b + BitVec.ofNat 32 cin.toNat := by
  rw [BitVec.sub_eq_add_neg a b, BitVec.neg_eq_not_add]
  cases cin
  · simp [← BitVec.add_assoc]
  · simp [BitVec.add_assoc]

end primitives

/-- Settles O8: the sign bits as bounds of the unsigned values decide each formula. -/
theorem flagPrimitivesAreExact : Obligations.FlagPrimitivesAreExact := by
  unfold Obligations.FlagPrimitivesAreExact
  refine fun a b cin => ⟨?sum, ?difference⟩
  case sum =>
    rintro _ rfl
    exact ⟨addCarry_sum a b cin, addOverflow_sum a b cin⟩
  case difference =>
    rintro _ rfl
    exact ⟨difference_eq_add_not a b cin, subCarry_difference a b cin, subOverflow_difference a b cin⟩

end Sys2Proof.Machine
end

section
/-! SUPPORT. The shift helpers (41_data_processing.md R138): the library's shifts, which in integers are multiplication, division and rotation. -/

namespace Sys2Proof.Machine

section shifts
variable (x : Word) (n : Nat) (ci : Bool)

/-! ## The library's shifts in integers -/

theorem shiftLeft_eq_ofNat : x <<< n = BitVec.ofNat 32 (x.toNat * 2 ^ n) := by
  apply BitVec.eq_of_toNat_eq
  rw [BitVec.toNat_shiftLeft, Nat.shiftLeft_eq, BitVec.toNat_ofNat]

theorem ushiftRight_eq_ofNat : x >>> n = BitVec.ofNat 32 (x.toNat / 2 ^ n) := by
  rw [← Nat.shiftRight_eq_div_pow, ← BitVec.toNat_ushiftRight, BitVec.ofNat_toNat, BitVec.setWidth_eq]

theorem sshiftRight_eq_ofInt : x.sshiftRight n = BitVec.ofInt 32 (x.toInt / 2 ^ n) := by
  rw [BitVec.sshiftRight, Int.shiftRight_eq_div_pow]
  rfl

/-- An arithmetic shift by 32 or more leaves copies of the sign bit. -/
theorem sshiftRight_of_le (h : 32 ≤ n) : x.sshiftRight n = if x.getLsbD 31 then 0xFFFFFFFF else 0 := by
  rw [show x.getLsbD 31 = x.msb from rfl]
  split
  next hneg => rw [BitVec.sshiftRight_eq_of_msb_true hneg, BitVec.ushiftRight_eq_zero h]; rfl
  next hpos => rw [BitVec.sshiftRight_eq_of_msb_false (Bool.eq_false_of_not_eq_true hpos), BitVec.ushiftRight_eq_zero h]; rfl

/-! ## The bit shifted out -/

theorem testBit_mul_two_pow_32 : (x.toNat * 2 ^ n).testBit 32 = (decide (n ≤ 32) && x.getLsbD (32 - n)) := Nat.testBit_mul_two_pow ..

/-- Past the top the last bit shifted out is a copy of the sign bit. -/
theorem sshiftRight_getLsbD_zero : (x.sshiftRight n).getLsbD 0 = if n < 32 then x.getLsbD n else x.getLsbD 31 := by
  rw [BitVec.getLsbD_sshiftRight, BitVec.msb_eq_getLsbD_last, Nat.add_zero]
  rfl

theorem ofInt_getLsbD_zero (k : Int) : (BitVec.ofInt 32 k).getLsbD 0 = decide (k % 2 = 1) := by
  rw [BitVec.getLsbD, BitVec.toNat_ofInt, Nat.testBit_zero, decide_eq_decide]
  omega

/-! ## The model's shifts are the library's, for every amount (R138) -/

theorem lslC_eq : lslC x n ci = (x <<< n, if n = 0 then ci else (x.toNat * 2 ^ n).testBit 32) := by
  rw [testBit_mul_two_pow_32]
  unfold lslC
  split
  next h => simp [h]
  next =>
    split
    next hlt => simp [Nat.le_of_lt hlt]
    next hge =>
      rw [BitVec.shiftLeft_eq_zero (by omega)]
      split
      next h32 => simp [h32]
      next h32 => simp [show ¬ n ≤ 32 by omega]

theorem lsrC_eq : lsrC x n ci = (x >>> n, if n = 0 then ci else x.toNat.testBit (n - 1)) := by
  rw [← BitVec.getLsbD]
  unfold lsrC
  split
  next h => simp [h]
  next =>
    split
    next => rfl
    next hge =>
      rw [BitVec.ushiftRight_eq_zero (by omega)]
      split
      next h32 => simp [h32]
      next h32 => simp [BitVec.getLsbD_of_ge x (n - 1) (by omega)]

theorem asrC_eq : asrC x n ci = (x.sshiftRight n, if n = 0 then ci else (x.sshiftRight (n - 1)).getLsbD 0) := by
  rw [sshiftRight_getLsbD_zero]
  unfold asrC
  split
  next h => simp [h]
  next =>
    split
    next hlt => rw [if_pos (by omega)]
    next hge =>
      have htop : (if n - 1 < 32 then x.getLsbD (n - 1) else x.getLsbD 31) = x.getLsbD 31 := by
        split
        next hlt => rw [show n - 1 = 31 by omega]
        next => rfl
      rw [sshiftRight_of_le x n (Nat.not_lt.1 hge), htop]

theorem rorC_eq : rorC x n ci = (x.rotateRight n, if n = 0 then ci else (x.rotateRight n).getLsbD 31) := by
  have hwhole (h : n % 32 = 0) : x.rotateRight n = x := by simp [BitVec.rotateRight_def, h]
  unfold rorC
  split
  next h => rw [hwhole (by rw [h])]
  next =>
    split
    next hmod => rw [hwhole hmod]
    next => rw [BitVec.rotateRight_def]

end shifts

/-- Settles O9: each helper is the library's shift for every amount, and that is the integer operation. -/
theorem shiftHelpersAgreeWithIntegers : Obligations.ShiftHelpersAgreeWithIntegers := by
  unfold Obligations.ShiftHelpersAgreeWithIntegers
  intro x n ci
  refine ⟨?lsl, ?lsr, ?asr, rorC_eq x n ci⟩
  case lsl => rw [lslC_eq, shiftLeft_eq_ofNat]
  case lsr => rw [lsrC_eq, ushiftRight_eq_ofNat]
  case asr => rw [asrC_eq, sshiftRight_eq_ofInt, sshiftRight_eq_ofInt, ofInt_getLsbD_zero]

end Sys2Proof.Machine
end

section
/-! SUPPORT. The data-processing instructions (41_data_processing.md R140 to R169): each is one of the shared results of Laws/Ops with the
flags of the exact sum, difference or shift. -/

namespace Sys2Proof.Machine

/-! ## Operands and results -/

theorem imm_eq_ofNat {n : Nat} (i : BitVec n) : imm i = BitVec.ofNat 32 i.toNat := (BitVec.ofNat_toNat 32 i).symm

theorem shiftByRegister_eq (b : Word) : shiftByRegister b = b.toNat % 256 := BitVec.toNat_setWidth ..

theorem carryIn_eq_ofNat (c : Bool) : carryIn c = BitVec.ofNat 32 c.toNat := by
  cases c <;> rfl

section results
variable (a b : Word) (cin : Bool)

theorem sumFlags_eq : sumFlags a b cin = resultFlags (a + b + BitVec.ofNat 32 cin.toNat)
    (addCarry a b (a + b + BitVec.ofNat 32 cin.toNat)) (addOverflow a b (a + b + BitVec.ofNat 32 cin.toNat)) := by
  rw [addCarry_sum, addOverflow_sum]
  rfl

theorem differenceFlags_eq : differenceFlags a b cin = resultFlags (a - b - BitVec.ofNat 32 (!cin).toNat)
    (subCarry a b (a - b - BitVec.ofNat 32 (!cin).toNat)) (subOverflow a b (a - b - BitVec.ofNat 32 (!cin).toNat)) := by
  rw [subCarry_difference, subOverflow_difference]
  rfl

theorem addS_eq : addS a b cin = (a + b + BitVec.ofNat 32 cin.toNat, sumFlags a b cin) := by
  rw [sumFlags_eq, resultFlags_eq, ← carryIn_eq_ofNat]
  rfl

theorem subS_eq : subS a b cin = (a - b - BitVec.ofNat 32 (!cin).toNat, differenceFlags a b cin) := by
  rw [differenceFlags_eq, resultFlags_eq, ← carryIn_eq_ofNat]
  rfl

theorem addS_false : addS a b false = (a + b, sumFlags a b false) := by
  rw [addS_eq, Bool.toNat_false, BitVec.add_zero]

theorem subS_true : subS a b true = (a - b, differenceFlags a b true) := by
  rw [subS_eq, Bool.not_true, Bool.toNat_false, BitVec.sub_zero]

theorem sum_eq_ofNat : a + b + BitVec.ofNat 32 cin.toNat = BitVec.ofNat 32 (a.toNat + b.toNat + cin.toNat) :=
  BitVec.eq_of_toNat_eq ((toNat_sum a b cin).trans (BitVec.toNat_ofNat ..).symm)

theorem difference_eq_ofInt :
    a - b - BitVec.ofNat 32 (!cin).toNat = BitVec.ofInt 32 ((a.toNat : Int) - b.toNat - (!cin).toNat) := by
  apply BitVec.eq_of_toNat_eq
  rw [toNat_difference, BitVec.toNat_ofInt]
  have hb : b.toNat < 2 ^ 32 := b.isLt
  have hborrow : (!cin).toNat ≤ 1 := (!cin).toNat_le
  omega

end results

/-- A zero-extended imm8 has sign bit 0. -/
theorem resultFlags_imm8 (imm8 : BitVec 8) (c v : Bool) : resultFlags (imm imm8) c v = ⟨false, decide (imm8 = 0), c, v⟩ := by
  have hvalue : (imm imm8).toNat = imm8.toNat := imm_toNat imm8 (by decide)
  have hlt : imm8.toNat < 2 ^ 8 := imm8.isLt
  have hn : ¬ (imm imm8).toInt < 0 := by
    rw [toInt_eq_sub]
    omega
  have hz : (imm imm8).toNat = 0 ↔ imm8 = 0 := by
    rw [hvalue, BitVec.toNat_eq]
    rfl
  rw [resultFlags, decide_eq_false hn, decide_eq_decide.2 hz]

/-! ## The shared meanings, their result given by an equation -/

section meanings
variable (rs rd : LowReg) (s : State) {v : Word} {f : Flags}

theorem writeArith_wrote {r : Word × Flags} (h : r = (v, f)) : ∃ t, writeArith rd r s = .next t ∧ Wrote (low rd) v f s t := by
  subst h
  exact writeArith_next rd _ s

theorem writeCompare_compared {r : Word × Flags} (h : r = (v, f)) : ∃ t, writeCompare r s = .next t ∧ Compared f s t := by
  subst h
  exact writeCompare_next _ s

theorem exec_cmpReg_compared : ∃ t, exec (.cmpReg rs rd) s = .next t ∧
    Compared (differenceFlags (s.reg (low rd)) (s.reg (low rs)) true) s t :=
  writeCompare_compared s (subS_true ..)

theorem writeHi_next {d : Reg} (hd : d ≠ PC) (v : Word) :
    ∃ t, (Host.Outcome.next (s.writeHi d v) : Outcome) = .next t ∧ t.reg d = v ∧ OnlyRegs [d] s t :=
  ⟨_, congrArg _ (writeHi_of_ne hd v s), State.reg_setReg_self s d v, onlyRegs_setReg hd v s⟩

end meanings

/-! ## The instructions -/

/-- A halfword written out in fields is brought into the form of its format's encoder by `rfl`. -/
theorem encodedAs_of_eq {i : Instr} {hw1 : Half} (h : encodeFirst i = hw1) (hwf : i.wf = true := by rfl)
    (hshort : encodeSecond i = none := by rfl) : EncodedAs hw1 i :=
  h ▸ encodedAs_encodeFirst hwf hshort

/-- Settles O10: each form is a shift result (R138), its amount read from imm5. -/
theorem shiftsByImmediate : Obligations.ShiftsByImmediate := by
  unfold Obligations.ShiftsByImmediate
  intro imm5 rs rd
  refine ⟨encodedAs_of_eq rfl, encodedAs_of_eq rfl, encodedAs_of_eq rfl, fun s => ?_⟩
  exact ⟨writeShift_next rd _ s, writeShift_next rd _ s, writeShift_next rd _ s⟩

/-- Settles O12: each form is a shift result whose amount is the low byte of Rs. -/
theorem shiftsByRegister : Obligations.ShiftsByRegister := by
  unfold Obligations.ShiftsByRegister
  intro rs rd
  refine ⟨encodedAs_of_eq rfl, encodedAs_of_eq rfl, encodedAs_of_eq rfl, encodedAs_of_eq rfl, fun s => ?_⟩
  rw [← shiftByRegister_eq]
  exact ⟨writeShift_next rd _ s, writeShift_next rd _ s, writeShift_next rd _ s, writeShift_next rd _ s⟩

/-- Settles O11: each form is the sum without a carry-in or the difference without a borrow; an immediate is zero-extended. -/
theorem additionAndSubtraction : Obligations.AdditionAndSubtraction := by
  unfold Obligations.AdditionAndSubtraction
  constructor
  · intro third rs rd
    refine ⟨encodedAs_of_eq rfl, encodedAs_of_eq rfl, encodedAs_of_eq rfl, encodedAs_of_eq rfl, fun s => ?_⟩
    rw [← imm_eq_ofNat]
    exact ⟨writeArith_wrote rd s (addS_false ..), writeArith_wrote rd s (subS_true ..), writeArith_wrote rd s (addS_false ..),
      writeArith_wrote rd s (subS_true ..)⟩
  · intro rd imm8
    refine ⟨encodedAs_of_eq rfl, encodedAs_of_eq rfl, fun s => ?_⟩
    rw [← imm_eq_ofNat]
    exact ⟨writeArith_wrote rd s (addS_false ..), writeArith_wrote rd s (subS_true ..)⟩

/-- Settles O13: ADC and SBC are the sum and the difference with the carry as it stands, NEG a difference from 0. -/
theorem carryChainAndNegation : Obligations.CarryChainAndNegation := by
  unfold Obligations.CarryChainAndNegation
  intro rs rd
  refine ⟨encodedAs_of_eq rfl, encodedAs_of_eq rfl, encodedAs_of_eq rfl, fun s => ⟨?adc, ?sbc, ?neg⟩⟩
  case adc =>
    rw [← sum_eq_ofNat]
    exact writeArith_wrote rd s (addS_eq ..)
  case sbc =>
    rw [← difference_eq_ofInt]
    exact writeArith_wrote rd s (subS_eq ..)
  case neg =>
    rw [← BitVec.zero_sub]
    exact writeArith_wrote rd s (subS_true ..)

/-- Settles O14: CMP and CMN leave the flags of a difference and of a sum, TST those of a conjunction. -/
theorem comparisonsWriteFlagsOnly : Obligations.ComparisonsWriteFlagsOnly := by
  unfold Obligations.ComparisonsWriteFlagsOnly
  refine ⟨fun rd imm8 => ⟨encodedAs_of_eq rfl, fun s => ?immediate⟩,
    fun rs rd => ⟨encodedAs_of_eq rfl, encodedAs_of_eq rfl, encodedAs_of_eq rfl, fun s => ⟨?tst, ?cmp, ?cmn⟩⟩,
    fun m d => ⟨encodedAs_of_eq rfl, fun s => ?hi⟩⟩
  case immediate =>
    rw [← imm_eq_ofNat]
    exact writeCompare_compared s (subS_true ..)
  case tst =>
    rw [resultFlags_eq]
    exact ⟨_, rfl, compared_setFlags _ s⟩
  case cmp => exact exec_cmpReg_compared rs rd s
  case cmn => exact writeCompare_compared s (addS_false ..)
  case hi => exact writeCompare_compared s (subS_true ..)

/-- Settles O15: each form is a logical result (R137); BitVec's product is already the low 32 bits. -/
theorem logicalMoveAndMultiply : Obligations.LogicalMoveAndMultiply := by
  unfold Obligations.LogicalMoveAndMultiply
  constructor
  · refine fun rd imm8 => ⟨encodedAs_of_eq rfl, fun s => ?_⟩
    rw [← imm_eq_ofNat, ← resultFlags_imm8]
    exact writeLogical_next rd _ s
  · intro rs rd
    refine ⟨encodedAs_of_eq rfl, encodedAs_of_eq rfl, encodedAs_of_eq rfl, encodedAs_of_eq rfl, encodedAs_of_eq rfl, encodedAs_of_eq rfl,
      fun s => ?_⟩
    exact ⟨writeLogical_next rd _ s, writeLogical_next rd _ s, writeLogical_next rd _ s, writeLogical_next rd _ s,
      writeLogical_next rd _ s, writeLogical_next rd _ s⟩

/-- Settles O16: R15 is written by BranchTo, any other register as it stands. -/
theorem hiRegisterAddAndMove : Obligations.HiRegisterAddAndMove := by
  unfold Obligations.HiRegisterAddAndMove
  refine fun m d => ⟨encodedAs_of_eq rfl, encodedAs_of_eq rfl, fun s => ⟨?register, ?branch⟩⟩
  case register => exact fun hd => ⟨writeHi_next s hd _, writeHi_next s hd _⟩
  case branch =>
    rintro rfl
    exact ⟨congrArg Host.Outcome.next (writeHi_pc _ s), congrArg Host.Outcome.next (writeHi_pc _ s)⟩

end Sys2Proof.Machine
end

section
/-! SUPPORT. The flags over all instructions (41_data_processing.md R171), and the order a comparison and the condition after it decide
(44_branch.md R236). -/

namespace Sys2Proof.Machine

/-! ## The flags an instruction writes -/

theorem FlagsWithin.refl (i : Instr) (f : Flags) : FlagsWithin i f f := by
  unfold FlagsWithin
  split <;> simp

/-- Each effect keeps the flags outside the row of its instruction. -/
theorem Effect.flagsWithin {i : Instr} {s t : State} (h : Effect i s t) : FlagsWithin i s.flags t.flags := by
  cases h with
  | flags f hf => exact hf
  | result r v f _ _ hf => exact hf
  | _ => simp [FlagsWithin.refl]

/-- Settles O47: every effect stays within the row of the table, read off row by row. -/
theorem flagsChangeOnlyAsTabled : Obligations.FlagsChangeOnlyAsTabled := by
  unfold Obligations.FlagsChangeOnlyAsTabled
  intro i s t h
  have hw := (exec_effect h).flagsWithin
  unfold FlagsWithin at hw
  exact ⟨fun hrow => by rwa [hrow] at hw, fun hrow => by rwa [hrow] at hw, fun hrow => by rwa [hrow] at hw⟩

/-! ## The order of the operands -/

section order
variable (a b : Word)

theorem differenceFlags_z_iff : (differenceFlags a b true).z = true ↔ a = b := by
  rw [differenceFlags, decide_eq_true_iff, Bool.not_true, Bool.toNat_false, BitVec.sub_zero, BitVec.toNat_sub, BitVec.toNat_eq]
  omega

theorem differenceFlags_c_iff : (differenceFlags a b true).c = true ↔ b.toNat ≤ a.toNat := decide_eq_true_iff

/-- N is the sign of the exact difference unless that overflows, which is V. -/
theorem differenceFlags_n_eq_v_iff : (differenceFlags a b true).n = (differenceFlags a b true).v ↔ b.toInt ≤ a.toInt := by
  simp only [differenceFlags, decide_eq_decide, Bool.not_true, Bool.toNat_false, BitVec.sub_zero, toInt_eq_sub, BitVec.toNat_sub]
  omega

end order

/-- Settles O59: Z is equality, C the unsigned order and N = V the signed one; each condition combines them. -/
theorem compareThenConditionDecidesTheOrder : Obligations.CompareThenConditionDecidesTheOrder := by
  unfold Obligations.CompareThenConditionDecidesTheOrder
  intro rs rd s t h a b
  obtain ⟨_, ht, hflags, _⟩ := exec_cmpReg_compared rs rd s
  cases h.symm.trans ht
  have hz : t.flags.z = true ↔ a = b := hflags ▸ differenceFlags_z_iff a b
  have hc : t.flags.c = true ↔ b.toNat ≤ a.toNat := hflags ▸ differenceFlags_c_iff a b
  have hnv : t.flags.n = t.flags.v ↔ b.toInt ≤ a.toInt := hflags ▸ differenceFlags_n_eq_v_iff a b
  have hunsigned : a = b ↔ a.toNat = b.toNat := BitVec.toNat_eq
  have hsigned : a = b ↔ a.toInt = b.toInt := BitVec.toInt_inj.symm
  simp only [condHolds, Bool.and_eq_true, Bool.or_eq_true, Bool.not_eq_true', ← Bool.not_eq_true, beq_iff_eq, bne_iff_ne, hz, hc, hnv,
    ne_eq, true_and]
  refine ⟨Nat.not_le, ?hi, ?ls, Int.not_le, ?gt, ?le⟩
  case hi | ls => rw [hunsigned]; omega
  case gt | le => rw [hsigned]; omega

end Sys2Proof.Machine
end

section
/-! SUPPORT. The single loads and stores (42_load_store.md R180 to R198): a read gives no more bits than its access has, so the zero
extension a load states is the value itself; the PC-relative base is always aligned. -/

namespace Sys2Proof.Machine

/-! ## Scaled immediates -/

theorem immX2_eq_ofNat {n : Nat} (hn : n + 1 ≤ 32) (i : BitVec n) : immX2 i = BitVec.ofNat 32 (2 * i.toNat) := by
  rw [← immX2_toNat i hn, BitVec.ofNat_toNat, BitVec.setWidth_eq]

theorem immX4_eq_ofNat {n : Nat} (hn : n + 2 ≤ 32) (i : BitVec n) : immX4 i = BitVec.ofNat 32 (4 * i.toNat) := by
  rw [← immX4_toNat i hn, BitVec.ofNat_toNat, BitVec.setWidth_eq]

/-! ## The value read is as wide as the access -/

theorem State.toNat_storedValue_lt (s : State) (a : Word) (w : Width) : (storedValue s.mem w.bytes a).toNat < 2 ^ (8 * w.bytes) := by
  have hn : w.bytes ≤ 4 := by cases w <;> decide
  rw [State.storedValue_eq s hn, BitVec.toNat_ofNat, Nat.pow_mul]
  exact Nat.lt_of_le_of_lt (Nat.mod_le _ _) (s.littleEndian_lt _ _)

theorem State.toNat_read_lt_of_contained {s : State} {a : Word} {w : Width} (hc : contained s.platform a w = true) :
    (s.read a w).1.toNat < 2 ^ (8 * w.bytes) := by
  cases hr : route s.platform a with
  | code => rw [State.read_storage hc ((isStorage_iff _ _).2 (.inl hr))]; exact s.toNat_storedValue_lt a w
  | sram => rw [State.read_storage hc ((isStorage_iff _ _).2 (.inr hr))]; exact s.toNat_storedValue_lt a w
  | peripheral p => rw [State.read_peripheral hc hr]; exact toNat_setWidth_lt w _
  | unmapped => rw [State.read_unmapped hc hr]; exact Nat.two_pow_pos _

/-- Bytes assembled little-endian (R67): one byte below `n` others. -/
theorem toNat_or_shiftLeft_lt {first later : Word} {n : Nat} (hf : first.toNat < 2 ^ 8) (hl : later.toNat < 2 ^ (8 * n)) :
    (first ||| later <<< 8).toNat < 2 ^ (8 * (n + 1)) := by
  rw [BitVec.toNat_or, BitVec.toNat_shiftLeft, Nat.shiftLeft_eq]
  refine Nat.or_lt_two_pow (Nat.lt_of_lt_of_le hf (Nat.pow_le_pow_right (by decide) (by omega))) ?_
  calc later.toNat * 2 ^ 8 % 2 ^ 32 ≤ later.toNat * 2 ^ 8 := Nat.mod_le _ _
    _ < 2 ^ (8 * n) * 2 ^ 8 := Nat.mul_lt_mul_of_pos_right hl (by decide)
    _ = 2 ^ (8 * (n + 1)) := (Nat.pow_add 2 (8 * n) 8).symm

theorem State.toNat_readEach_lt (s : State) (n : Nat) (a : Word) : (s.readEach n a).1.toNat < 2 ^ (8 * n) := by
  induction n generalizing s a with
  | zero => exact Nat.one_pos
  | succ n ih => exact toNat_or_shiftLeft_lt (State.toNat_read_lt_of_contained (contained_byte _ a)) (ih _ _)

/-- MemRead zero-extends (R68): no bit above the access is set, wherever its bytes lie. -/
theorem State.toNat_read_lt (s : State) (a : Word) (w : Width) : (s.read a w).1.toNat < 2 ^ (8 * w.bytes) := by
  by_cases hc : contained s.platform a w = true
  · exact State.toNat_read_lt_of_contained hc
  · rw [State.read_straddling (Bool.eq_false_of_not_eq_true hc)]
    exact s.toNat_readEach_lt _ _

theorem State.zeroExtend_read (s : State) (a : Word) (w : Width) :
    BitVec.ofNat 32 ((s.read a w).1.toNat % 2 ^ (8 * w.bytes)) = (s.read a w).1 := by
  rw [Nat.mod_eq_of_lt (s.toNat_read_lt a w), BitVec.ofNat_toNat, BitVec.setWidth_eq]

/-! ## Loads by their extension -/

theorem Extension.apply_zero : Extension.zero.apply = id := rfl

theorem Extension.apply_signByte : Extension.signByte.apply = fun v => (v.extractLsb' 0 8).signExtend 32 := rfl

theorem Extension.apply_signHalf : Extension.signHalf.apply = fun v => (v.extractLsb' 0 16).signExtend 32 := rfl

/-- What a load leaves depends on its extension only through the value read. -/
theorem Loaded.congr {r : Reg} {ea : Word} {w : Width} {e e' : Word → Word} {s t : State} (h : Loaded r ea w e s t)
    (he : e (s.read ea w).1 = e' (s.read ea w).1) : Loaded r ea w e' s t where
  result := h.result.trans he
  history := h.history
  rest := h.rest

/-- A zero-extending load, its value given by the width of the access (R185, R187, R193, R195). -/
theorem loadReg_zero_next {rd : LowReg} {ea : Word} {w : Width} {s : State} (h : AccessAllowed s ea w.bytes) :
    ∃ t, loadReg rd ea w .zero s = .next t ∧
      Loaded (low rd) ea w (fun v => BitVec.ofNat 32 (v.toNat % 2 ^ (8 * w.bytes))) s t := by
  obtain ⟨t, ht, hloaded⟩ := loadReg_next (rd := rd) (e := .zero) h
  exact ⟨t, ht, hloaded.congr (s.zeroExtend_read ea w).symm⟩

/-! ## Addresses the policy always allows -/

/-- A byte is aligned at every address (R69). -/
theorem accessAllowed_byte (s : State) (a : Word) : AccessAllowed s a Width.byte.bytes := fun _ => Nat.mod_one _

theorem wordAligned_toNat_mod (pc : Word) : (wordAligned pc).toNat % 4 = 0 := by
  rw [wordAligned, BitVec.toNat_and, show 4 = 2 ^ 2 from rfl, Nat.and_mod_two_pow]
  exact Nat.and_zero _

/-- The PC-relative address is a multiple of 4 in every state (R181). -/
theorem accessAllowed_eaPc (s : State) (imm8 : BitVec 8) : AccessAllowed s (s.eaPc imm8) Width.word.bytes := fun _ => by
  have hbase : (wordAligned (s.reg PC)).toNat % 4 = 0 := wordAligned_toNat_mod _
  have hoffset : (immX4 imm8).toNat = 4 * imm8.toNat := immX4_toNat imm8 (by decide)
  rw [State.eaPc, BitVec.toNat_add, Width.bytes]
  omega

/-! ## The instructions -/

/-- Settles O23: each form is the shared load at Rb + Ro, with its width and its extension. -/
theorem registerOffsetLoads : Obligations.RegisterOffsetLoads := by
  unfold Obligations.RegisterOffsetLoads
  intro ro rb rd
  refine ⟨encodedAs_of_eq rfl, encodedAs_of_eq rfl, encodedAs_of_eq rfl, encodedAs_of_eq rfl, encodedAs_of_eq rfl, fun s => ?_⟩
  rw [← Extension.apply_zero, ← Extension.apply_signByte, ← Extension.apply_signHalf]
  exact ⟨loadReg_next (w := .word), loadReg_zero_next (accessAllowed_byte s _), loadReg_zero_next (w := .half),
    loadReg_next (accessAllowed_byte s _), loadReg_next (w := .half)⟩

/-- Settles O24: each form is the shared load at its base plus the scaled immediate; the PC-relative base is aligned first. -/
theorem pcSpAndImmediateOffsetLoads : Obligations.PcSpAndImmediateOffsetLoads := by
  unfold Obligations.PcSpAndImmediateOffsetLoads
  rw [← Extension.apply_zero]
  constructor
  · refine fun rd imm8 => ⟨encodedAs_of_eq rfl, encodedAs_of_eq rfl, fun s => ?_⟩
    rw [← immX4_eq_ofNat (by decide)]
    exact ⟨loadReg_next (accessAllowed_eaPc s imm8), loadReg_next (w := .word)⟩
  · refine fun imm5 rb rd => ⟨encodedAs_of_eq rfl, encodedAs_of_eq rfl, encodedAs_of_eq rfl, fun s => ?_⟩
    rw [← immX4_eq_ofNat (by decide), ← imm_eq_ofNat, ← immX2_eq_ofNat (by decide)]
    exact ⟨loadReg_next (w := .word), loadReg_zero_next (accessAllowed_byte s _), loadReg_zero_next (w := .half)⟩

/-- Settles O25: each form is the shared store of Rd, and a write keeps every byte outside its access. -/
theorem storesWriteOnlyTheirBytes : Obligations.StoresWriteOnlyTheirBytes := by
  unfold Obligations.StoresWriteOnlyTheirBytes
  refine ⟨fun ro rb rd => ⟨encodedAs_of_eq rfl, encodedAs_of_eq rfl, encodedAs_of_eq rfl, fun s => ?register⟩,
    fun imm5 rb rd => ⟨encodedAs_of_eq rfl, encodedAs_of_eq rfl, encodedAs_of_eq rfl, fun s => ?immediate⟩,
    fun rd imm8 => ⟨encodedAs_of_eq rfl, fun s => ?stackPointer⟩⟩
  case register =>
    exact ⟨storeReg_next (w := .word), storeReg_next (accessAllowed_byte s _), storeReg_next (w := .half)⟩
  case immediate =>
    rw [← immX4_eq_ofNat (by decide), ← imm_eq_ofNat, ← immX2_eq_ofNat (by decide)]
    exact ⟨storeReg_next (w := .word), storeReg_next (accessAllowed_byte s _), storeReg_next (w := .half)⟩
  case stackPointer =>
    rw [← immX4_eq_ofNat (by decide)]
    exact storeReg_next (w := .word)

end Sys2Proof.Machine
end

section
/-! SUPPORT. Address generation, PUSH, POP, STMIA and LDMIA (43_address_stack_multiple.md R210 to R220): each transfer as one equation when
its base is allowed, what the transfers leave unchanged, and that loads read back what the stores of a list wrote. -/

namespace Sys2Proof.Machine

variable {s t u : State}

/-! ## Address generation and SP adjustment -/

/-- A register result with no flag (R210 to R213). -/
theorem setReg_next (s : State) {r : Reg} (hr : r ≠ PC) (v : Word) :
    ∃ t, (Host.Outcome.next (s.setReg r v) : Outcome) = .next t ∧ t.reg r = v ∧ OnlyRegs [r] s t :=
  ⟨_, rfl, State.reg_setReg_self s r v, onlyRegs_setReg hr v s⟩

theorem encByte_append (op8 : BitVec 8) (op1 : BitVec 1) (imm7 : BitVec 7) : encByte op8 (op1 ++ imm7) = op8 ++ op1 ++ imm7 := by
  rw [BitVec.append_assoc]
  rfl

/-- Settles O27: each form writes one register other than R15; its immediate is scaled by four. -/
theorem addressGenerationAndStackAdjustment : Obligations.AddressGenerationAndStackAdjustment := by
  unfold Obligations.AddressGenerationAndStackAdjustment
  constructor
  · refine fun rd imm8 => ⟨encodedAs_of_eq rfl, encodedAs_of_eq rfl, fun s => ?_⟩
    rw [← immX4_eq_ofNat (by decide)]
    exact ⟨setReg_next s (low_ne_pc rd) _, setReg_next s (low_ne_pc rd) _⟩
  · refine fun imm7 => ⟨encodedAs_of_eq (encByte_append ..), encodedAs_of_eq (encByte_append ..), fun s => ?_⟩
    rw [← immX4_eq_ofNat (by decide)]
    exact ⟨setReg_next s (by decide) _, setReg_next s (by decide) _⟩

/-! ## The transfer lists -/

theorem pushList_false (rlist : BitVec 8) : pushList false rlist = listedRegs rlist := List.append_nil _

theorem pushList_true (rlist : BitVec 8) : pushList true rlist = listedRegs rlist ++ [LR] := rfl

theorem length_pushList_true (rlist : BitVec 8) : (pushList true rlist).length = (listedRegs rlist).length + 1 := List.length_append

/-- LR is no listed register, so PUSH transfers none twice. -/
theorem pushList_nodup (lr : Bool) (rlist : BitVec 8) : (pushList lr rlist).Nodup := by
  cases lr with
  | false => exact pushList_false rlist ▸ listedRegs_nodup rlist
  | true => exact (listedRegs_nodup rlist).append (List.nodup_singleton LR) (by simpa using fun h => listedRegs_ne_lr h rfl)

theorem listedRegs_zero : listedRegs 0 = [] := by decide

/-! ## Each transfer from a base the policy allows -/

theorem misalignedList_eq_false {a : Word} (h : AccessAllowed s a 4) (n : Nat) : s.misalignedList n a = false := by
  rw [State.misalignedList, misaligned_eq_false_iff.2 h, Bool.and_false]

section transfers
variable {rb : LowReg} {rlist : BitVec 8}

theorem exec_push {lr : Bool} (h : s.misalignedList (pushList lr rlist).length (s.pushBase lr rlist) = false) :
    exec (.push lr rlist) s =
      .next ((storeList (pushList lr rlist) (s.pushBase lr rlist) s).setReg SP (s.pushBase lr rlist)) := by
  simp [exec, execPush, h]

theorem exec_push_false (h : AccessAllowed s (s.reg SP - wordsSize (listedRegs rlist).length) 4) :
    exec (.push false rlist) s =
      .next ((storeList (listedRegs rlist) (s.reg SP - wordsSize (listedRegs rlist).length) s).setReg SP
        (s.reg SP - wordsSize (listedRegs rlist).length)) := by
  rw [← pushList_false] at h ⊢
  exact exec_push (misalignedList_eq_false h _)

theorem exec_push_true (h : AccessAllowed s (s.reg SP - wordsSize ((listedRegs rlist).length + 1)) 4) :
    exec (.push true rlist) s =
      .next ((storeList (pushList true rlist) (s.reg SP - wordsSize ((listedRegs rlist).length + 1)) s).setReg SP
        (s.reg SP - wordsSize ((listedRegs rlist).length + 1))) := by
  rw [← length_pushList_true] at h ⊢
  exact exec_push (misalignedList_eq_false h _)

theorem exec_pop_false (h : s.misalignedList (listedRegs rlist).length (s.reg SP) = false) :
    exec (.pop false rlist) s =
      .next ((loadList (listedRegs rlist) (s.reg SP) s).setReg SP (s.reg SP + wordsSize (listedRegs rlist).length)) := by
  simp [exec, execPop, h]

theorem exec_pop_true (h : s.misalignedList ((listedRegs rlist).length + 1) (s.reg SP) = false) :
    let top := s.reg SP + wordsSize (listedRegs rlist).length
    let target := (loadList (listedRegs rlist) (s.reg SP) s).read top .word
    exec (.pop true rlist) s = .next (branchTo target.1 (target.2.setReg SP (top + 4))) := by
  simp [exec, execPop, h]

theorem exec_stmia (h : s.misalignedList (listedRegs rlist).length (s.reg (low rb)) = false) :
    exec (.stmia rb rlist) s = .next ((storeList (listedRegs rlist) (s.reg (low rb)) s).setReg (low rb)
      (s.reg (low rb) + wordsSize (listedRegs rlist).length)) := by
  simp [exec, execStmia, h]

theorem exec_ldmia_of_mem (h : s.misalignedList (listedRegs rlist).length (s.reg (low rb)) = false) (hb : low rb ∈ listedRegs rlist) :
    exec (.ldmia rb rlist) s = .next (loadList (listedRegs rlist) (s.reg (low rb)) s) := by
  simp [exec, execLdmia, h, mem_listedRegs.1 hb]

theorem exec_ldmia_of_not_mem (h : s.misalignedList (listedRegs rlist).length (s.reg (low rb)) = false)
    (hb : low rb ∉ listedRegs rlist) :
    exec (.ldmia rb rlist) s = .next ((loadList (listedRegs rlist) (s.reg (low rb)) s).setReg (low rb)
      (s.reg (low rb) + wordsSize (listedRegs rlist).length)) := by
  simp [exec, execLdmia, h, mt mem_listedRegs.2 hb]

end transfers

/-! ## What a transfer leaves unchanged -/

/-- A chain of stores writes its words and no register. -/
theorem onlyBytes_storeList {list : List Reg} (hl : 4 * list.length ≤ 2 ^ 32) (hwf : Memory.wf s.mem = true) (base : Word) :
    OnlyBytes [] base (4 * list.length) s (storeList list base s) where
  regs := sameRegsExcept_storeList list base s
  flags := storeList_flags ..
  bytes := fun _ hb => storeList_byteAt_of_outside hwf hl hb
  continues := ⟨storeList_reg .., storeList_fetchPtr .., storeList_slot0 .., storeList_slot1 .., storeList_run ..⟩
  machine := ⟨storeList_t .., storeList_platform ..⟩

/-- A chain of loads writes the registers of its list. -/
theorem onlyRegsAndHistory_loadList {list : List Reg} (hpc : PC ∉ list) (base : Word) (s : State) :
    OnlyRegsAndHistory list s (loadList list base s) where
  regs := fun _ _ hr => loadList_reg_of_not_mem hr
  flags := loadList_flags ..
  bytes := loadList_byteAt list base s
  continues := ⟨loadList_reg_of_not_mem hpc, loadList_fetchPtr .., loadList_slot0 .., loadList_slot1 .., loadList_run ..⟩
  machine := ⟨loadList_t .., loadList_platform ..⟩

theorem SameRegsExcept.mono {written more : List Reg} (h : SameRegsExcept written s t) (hsub : written ⊆ more) : SameRegsExcept more s t :=
  fun r hpc hr => h r hpc (fun hw => hr (hsub hw))

theorem SameRegsExcept.setReg {written : List Reg} (h : SameRegsExcept written s t) (r : Reg) (v : Word) :
    SameRegsExcept (r :: written) s (t.setReg r v) :=
  (h.mono (List.subset_cons_self r written)).trans (sameRegsExcept_setReg List.mem_cons_self v t)

theorem NoTransfer.setReg (h : NoTransfer s t) {r : Reg} (hr : r ≠ PC) (v : Word) : NoTransfer s (t.setReg r v) where
  pc := (reg_pc_setReg hr v t).trans h.pc
  fetchPtr := h.fetchPtr
  slot0 := h.slot0
  slot1 := h.slot1
  run := h.run

/-- The write of SP or of the base after the last store. -/
theorem OnlyBytes.setReg {written : List Reg} {base : Word} {n : Nat} (h : OnlyBytes written base n s t) {r : Reg} (hr : r ≠ PC)
    (v : Word) : OnlyBytes (r :: written) base n s (t.setReg r v) where
  regs := h.regs.setReg r v
  flags := h.flags
  bytes := h.bytes
  continues := h.continues.setReg hr v
  machine := ⟨h.machine.thumb, h.machine.platform⟩

/-- The write of SP or of the base after the last load. -/
theorem OnlyRegsAndHistory.setReg {written : List Reg} (h : OnlyRegsAndHistory written s t) {r : Reg} (hr : r ≠ PC) (v : Word) :
    OnlyRegsAndHistory (r :: written) s (t.setReg r v) where
  regs := h.regs.setReg r v
  flags := h.flags
  bytes := h.bytes
  continues := h.continues.setReg hr v
  machine := ⟨h.machine.thumb, h.machine.platform⟩

theorem OnlyRegsAndHistory.mono {written more : List Reg} (h : OnlyRegsAndHistory written s t) (hsub : written ⊆ more) :
    OnlyRegsAndHistory more s t :=
  { h with regs := h.regs.mono hsub }

theorem pc_not_mem_listedRegs (rlist : BitVec 8) : PC ∉ listedRegs rlist := fun h => listedRegs_ne_pc h rfl

/-! ## The instructions -/

/-- Settles O28: PUSH is the stores of its list from SP - 4n on, then SP. -/
theorem pushStoresBelowTheStackPointer : Obligations.PushStoresBelowTheStackPointer := by
  unfold Obligations.PushStoresBelowTheStackPointer
  intro lr rlist
  rw [ascending_eq]
  refine ⟨encodedAs_of_eq rfl, ?_⟩
  intro s list base hallowed
  have hlength : list.length ≤ 9 := pushList_length_le lr rlist
  refine ⟨_, exec_push (misalignedList_eq_false hallowed _), ?state, fun hwf => ?frame⟩
  case state => rw [storesInOrder_eq]; rfl
  case frame => exact (onlyBytes_storeList (by omega) hwf base).setReg (by decide) base

/-- Settles O29: POP is the loads of its list from SP on, then SP, then with PC the branch to the word after them. -/
theorem popLoadsFromTheStackPointer : Obligations.PopLoadsFromTheStackPointer := by
  unfold Obligations.PopLoadsFromTheStackPointer
  intro rlist
  rw [ascending_eq]
  refine ⟨encodedAs_of_eq rfl, encodedAs_of_eq rfl, fun s hallowed => ?_⟩
  rw [loadsInOrder_eq]
  refine ⟨⟨_, exec_pop_false (misalignedList_eq_false hallowed _), rfl, ?frame⟩, exec_pop_true (misalignedList_eq_false hallowed _)⟩
  case frame => exact (onlyRegsAndHistory_loadList (pc_not_mem_listedRegs rlist) _ s).setReg (by decide) _

/-- Settles O30: STMIA is the stores of its list from the base on, then the base. -/
theorem storeMultipleWritesBackTheBase : Obligations.StoreMultipleWritesBackTheBase := by
  unfold Obligations.StoreMultipleWritesBackTheBase
  intro rb rlist
  rw [ascending_eq]
  refine ⟨encodedAs_of_eq rfl, fun s hallowed => ?_⟩
  have hlength := listedRegs_length_le rlist
  rw [storesInOrder_eq]
  exact ⟨_, exec_stmia (misalignedList_eq_false hallowed _), rfl,
    fun hwf => (onlyBytes_storeList (by omega) hwf _).setReg (low_ne_pc rb) _⟩

/-- Settles O31: LDMIA is the loads of its list from the base on; the base is written after them exactly when none of them loaded it. -/
theorem loadMultipleWritesBackUnlessLoaded : Obligations.LoadMultipleWritesBackUnlessLoaded := by
  unfold Obligations.LoadMultipleWritesBackUnlessLoaded
  intro rb rlist
  rw [ascending_eq]
  refine ⟨encodedAs_of_eq rfl, fun s hallowed => ?_⟩
  have hframe := onlyRegsAndHistory_loadList (pc_not_mem_listedRegs rlist) (s.reg (low rb)) s
  have haligned := misalignedList_eq_false hallowed (listedRegs rlist).length
  rw [loadsInOrder_eq]
  by_cases hb : low rb ∈ listedRegs rlist
  · exact ⟨_, exec_ldmia_of_mem haligned hb, fun _ => rfl, fun hn => absurd hb hn, hframe.mono (List.subset_cons_self ..)⟩
  · exact ⟨_, exec_ldmia_of_not_mem haligned hb, fun hm => absurd hm hb, fun _ => rfl, hframe.setReg (low_ne_pc rb) _⟩

/-! ## Empty lists -/

/-- Writing a register with the value it holds changes nothing. -/
theorem State.setReg_reg (s : State) (r : Reg) : s.setReg r (s.reg r) = s := by
  simp [State.setReg, State.reg]

theorem sub_wordsSize_zero (a : Word) : a - wordsSize 0 = a := BitVec.sub_zero a

theorem add_wordsSize_zero (a : Word) : a + wordsSize 0 = a := BitVec.add_zero a

/-- Settles O32: a transfer of no word passes the check of its base under every policy and writes its base with itself; one word is the first
of its list. -/
theorem emptyListsChangeNothing : Obligations.EmptyListsChangeNothing := by
  unfold Obligations.EmptyListsChangeNothing
  refine ⟨fun rb s => ⟨?push, ?pop, ?stmia, ?ldmia⟩, fun s hallowed => ?pushLr, fun s hallowed => ?popPc⟩
  case push =>
    have hbase : s.pushBase false 0 = s.reg SP := sub_wordsSize_zero _
    rw [exec_push (misalignedList_zero ..), pushList_false, listedRegs_zero, storeList, hbase, State.setReg_reg]
  case pop =>
    rw [exec_pop_false (misalignedList_zero ..), listedRegs_zero, loadList, List.length_nil, add_wordsSize_zero, State.setReg_reg]
  case stmia =>
    rw [exec_stmia (misalignedList_zero ..), listedRegs_zero, storeList, List.length_nil, add_wordsSize_zero, State.setReg_reg]
  case ldmia =>
    have hb : low rb ∉ listedRegs 0 := listedRegs_zero ▸ List.not_mem_nil
    rw [exec_ldmia_of_not_mem (misalignedList_zero ..) hb, listedRegs_zero, loadList, List.length_nil, add_wordsSize_zero,
      State.setReg_reg]
  case pushLr => exact exec_push (misalignedList_eq_false hallowed _)
  case popPc =>
    rw [exec_pop_true (misalignedList_eq_false hallowed _), listedRegs_zero, loadList, List.length_nil, add_wordsSize_zero]

/-! ## Reading back what was stored -/

theorem AccessAllowed.congr {a : Word} {n : Nat} (h : AccessAllowed s a n) (hp : u.platform = s.platform) : AccessAllowed u a n :=
  fun hfault => h (hp ▸ hfault)

/-- Loads of a list as long as the one stored give its registers the stored values in order, in any state that agrees on the platform and on
the words' bytes (R220). -/
theorem map_loadList_storeList {stored loaded : List Reg} (hd : loaded.Nodup) (hlength : loaded.length = stored.length) {base : Word}
    (hn : 4 * stored.length ≤ 2 ^ 32) (hwf : Memory.wf s.mem = true) (hin : InStorage s.platform base (4 * stored.length))
    (hp : u.platform = s.platform)
    (hbytes : ∀ a, InBytes base (4 * stored.length) a → u.byteAt a = (storeList stored base s).byteAt a) :
    loaded.map (loadList loaded base u).reg = stored.map s.reg :=
  calc loaded.map (loadList loaded base u).reg
    _ = storedWords u.mem loaded.length base := (loadList_words hd (hlength ▸ hn) (by rwa [hp, hlength])).1
    _ = storedWords (storeList stored base s).mem stored.length base := by rw [hlength, storedWords_congr hn hbytes]
    _ = stored.map s.reg := storeList_words hwf hn hin

/-- The last load of a list. -/
theorem loadList_concat (list : List Reg) (r : Reg) (base : Word) (s : State) :
    let last := (loadList list base s).read (base + wordsSize list.length) .word
    loadList (list ++ [r]) base s = last.2.setReg r last.1 := by
  induction list generalizing base s with
  | nil => simp [loadList, add_wordsSize_zero]
  | cons q rest ih =>
    rw [List.length_cons, wordsSize_succ]
    exact ih (base + 4) _

theorem map_loadList_concat {list : List Reg} {r : Reg} (hr : r ∉ list) (base : Word) (s : State) :
    (list ++ [r]).map (loadList (list ++ [r]) base s).reg =
      list.map (loadList list base s).reg ++ [((loadList list base s).read (base + wordsSize list.length) .word).1] := by
  rw [loadList_concat, List.map_append, List.map_singleton, State.reg_setReg_self]
  congr 1
  exact List.map_congr_left fun q hq => State.reg_setReg_of_ne _ _ (fun h => hr (h ▸ hq))

section readBack
variable {rlist : BitVec 8} {base : Word} {stored : Reg → Word}

/-- POP gives its registers what its loads read and leaves SP past them (R216). -/
theorem pop_false_of_loads (hsp : u.reg SP = base) (hallowed : AccessAllowed u base 4)
    (hloads : (listedRegs rlist).map (loadList (listedRegs rlist) base u).reg = (listedRegs rlist).map stored) :
    ∃ v, exec (.pop false rlist) u = .next v ∧ (∀ r ∈ listedRegs rlist, v.reg r = stored r) ∧
      v.reg SP = base + wordsSize (listedRegs rlist).length := by
  subst hsp
  refine ⟨_, exec_pop_false (misalignedList_eq_false hallowed _), fun r hr => ?_, State.reg_setReg_self ..⟩
  rw [State.reg_setReg_of_ne _ _ (listedRegs_ne_sp hr)]
  exact List.map_inj_left.1 hloads r hr

/-- POP with PC reads the words that loads of PUSH's list would read, and branches to the one LR would be given (R216). -/
theorem pop_true_of_loads (hsp : u.reg SP = base) (hallowed : AccessAllowed u base 4)
    (hloads : (pushList true rlist).map (loadList (pushList true rlist) base u).reg = (pushList true rlist).map stored) :
    ∃ v, exec (.pop true rlist) u = .next v ∧ (∀ r ∈ listedRegs rlist, v.reg r = stored r) ∧
      v.reg SP = base + wordsSize ((listedRegs rlist).length + 1) ∧ v.fetchPtr = (stored LR &&& 0xFFFFFFFE) ∧ v.reg LR = u.reg LR := by
  subst hsp
  have hlr : LR ∉ listedRegs rlist := fun h => listedRegs_ne_lr h rfl
  rw [pushList_true, map_loadList_concat hlr, List.map_append] at hloads
  obtain ⟨hregs, hlast⟩ := List.append_inj' hloads rfl
  refine ⟨_, exec_pop_true (misalignedList_eq_false hallowed _), fun r hr => ?listed, ?sp, ?target, ?link⟩
  case listed =>
    rw [branchTo_reg, if_neg (listedRegs_ne_pc hr), State.reg_setReg_of_ne _ _ (listedRegs_ne_sp hr), State.read_reg]
    exact List.map_inj_left.1 hregs r hr
  case sp => rw [branchTo_reg, if_neg (by decide), State.reg_setReg_self, wordsSize_succ, add_right_comm]
  case target => rw [branchTo_fetchPtr, List.singleton_inj.1 hlast]
  case link =>
    rw [branchTo_reg, if_neg (by decide), State.reg_setReg_of_ne _ _ (by decide), State.read_reg, loadList_reg_of_not_mem hlr]

/-- LDMIA gives its registers what its loads read, the base too where it is listed (R218). -/
theorem ldmia_of_loads {rb : LowReg} {values : List Word} (hbase : u.reg (low rb) = base) (hallowed : AccessAllowed u base 4)
    (hloads : (listedRegs rlist).map (loadList (listedRegs rlist) base u).reg = values) :
    ∃ v, exec (.ldmia rb rlist) u = .next v ∧ (listedRegs rlist).map v.reg = values := by
  subst hbase
  have haligned := misalignedList_eq_false hallowed (listedRegs rlist).length
  by_cases hb : low rb ∈ listedRegs rlist
  · exact ⟨_, exec_ldmia_of_mem haligned hb, hloads⟩
  · refine ⟨_, exec_ldmia_of_not_mem haligned hb, (List.map_congr_left fun r hr => ?_).trans hloads⟩
    exact State.reg_setReg_of_ne _ _ (fun h => hb (h ▸ hr))

end readBack

/-- Settles O33: the first instruction stores its list from the base on, and the loads of the second, from the same base, read those words
back. -/
theorem transfersReadBackWhatWasStored : Obligations.TransfersReadBackWhatWasStored := by
  unfold Obligations.TransfersReadBackWhatWasStored
  refine ⟨fun rlist => ?pushPop, fun rlist => ?pushLrPopPc, fun rb rb' rlist rlist' => ?storeLoad⟩
  case pushPop =>
    rw [ascending_eq]
    intro s u n base hwf hin hallowed
    have hlength := listedRegs_length_le rlist
    refine ⟨_, exec_push_false hallowed, fun hp hsp hbytes => ?_⟩
    replace hp : u.platform = s.platform := hp.trans (storeList_platform ..)
    have hloads := map_loadList_storeList (listedRegs_nodup rlist) rfl (by omega) hwf hin hp hbytes
    have htop : base + wordsSize (listedRegs rlist).length = s.reg SP := BitVec.sub_add_cancel ..
    exact htop ▸ pop_false_of_loads (hsp.trans (State.reg_setReg_self ..)) (hallowed.congr hp) hloads
  case pushLrPopPc =>
    rw [ascending_eq]
    intro s u n base hwf hin hallowed
    have hlength := listedRegs_length_le rlist
    have hpushed := length_pushList_true rlist
    refine ⟨_, exec_push_true hallowed, fun hp hsp hbytes => ?_⟩
    replace hp : u.platform = s.platform := hp.trans (storeList_platform ..)
    have hloads := map_loadList_storeList (pushList_nodup true rlist) rfl (by omega) hwf (by rwa [hpushed]) hp (by rwa [hpushed])
    have htop : base + wordsSize ((listedRegs rlist).length + 1) = s.reg SP := BitVec.sub_add_cancel ..
    exact htop ▸ pop_true_of_loads (hsp.trans (State.reg_setReg_self ..)) (hallowed.congr hp) hloads
  case storeLoad =>
    rw [ascending_eq, ascending_eq]
    intro s u n base hsame hwf hin hallowed
    have hlength := listedRegs_length_le rlist
    refine ⟨_, exec_stmia (misalignedList_eq_false hallowed _), fun hp hbase hbytes => ?_⟩
    replace hp : u.platform = s.platform := hp.trans (storeList_platform ..)
    have hloads := map_loadList_storeList (listedRegs_nodup rlist') hsame (by omega) hwf hin hp hbytes
    exact ldmia_of_loads hbase (hallowed.congr hp) hloads

end Sys2Proof.Machine
end

section
/-! SUPPORT. The branches (44_branch.md R231 to R241) and the conditional branch with cond = 1110 (45_unimplemented.md R264): the test of a
target's bit 0, the fourteen conditions, the offsets as integers, and who writes LR. -/

namespace Sys2Proof.Machine

variable {s : State} {i : Instr}

/-! ## Bit 0 -/

/-- Bit 0 tells odd from even (R42, R231). -/
theorem getLsbD_zero_eq (x : Word) : x.getLsbD 0 = decide (x.toNat % 2 = 1) := Nat.testBit_zero _

/-- A return address carries bit 0 set (R232, R241). -/
theorem toNat_or_one_mod_two (x : Word) : (x ||| 1).toNat % 2 = 1 := by
  have hbit : (x ||| 1).getLsbD 0 = true := by simp
  simpa only [getLsbD_zero_eq, decide_eq_true_iff] using hbit

/-- R15 reads an even value, for it is fetch_ptr + 2 (R39, R44). -/
theorem State.Inv.toNat_pc_mod_two (h : s.Inv) : (s.reg PC).toNat % 2 = 0 := by
  have heven : (s.reg PC).getLsbD 0 = false := h.pcPair ▸ even_add_two h.fetchEven
  rw [getLsbD_zero_eq, decide_eq_false_iff_not] at heven
  omega

/-! ## Branch and exchange -/

section exchange
variable {m : Reg} {sbz : BitVec 3}

theorem exec_bx_of_odd (h : (s.reg m).toNat % 2 = 1) : exec (.bx m sbz) s = .next (branchTo (s.reg m) s) :=
  if_pos ((getLsbD_zero_eq _).trans (decide_eq_true h))

theorem exec_blx_of_odd (h : (s.reg m).toNat % 2 = 1) :
    exec (.blx m sbz) s = .next (branchTo (s.reg m) (s.setReg LR (s.fetchPtr ||| 1))) :=
  if_pos ((getLsbD_zero_eq _).trans (decide_eq_true h))

/-- The error of an even target comes before any write, so BX and BLX leave the same state (R231, R232). -/
theorem exec_exchange_of_even (hi : i = .bx m sbz ∨ i = .blx m sbz) (h : (s.reg m).toNat % 2 = 0) :
    exec i s = .next (haltedAt (.illegalStateTransition (s.reg m)) s) := by
  have hbit : ¬ (s.reg m).getLsbD 0 = true := by rw [getLsbD_zero_eq, decide_eq_true_iff]; omega
  rcases hi with rfl | rfl
  · exact if_neg hbit
  · exact if_neg hbit

end exchange

/-- The hi-register format with the bits of d apart, as BX and BLX use them (R96). -/
theorem encHi_append (op : BitVec 2) (m : Reg) (h1 : BitVec 1) (rd : BitVec 3) :
    encHi op m (h1 ++ rd) = 0b010001#6 ++ op ++ h1 ++ m ++ rd := by
  obtain ⟨_, hh1, hrd⟩ := fields_append_reg (rd := rd) h1
  rw [encHi, hh1, hrd]

/-- Settles O17: bit 0 of the target selects the branch or the error; R15 is even under the invariant. -/
theorem branchAndExchange : Obligations.BranchAndExchange := by
  unfold Obligations.BranchAndExchange
  refine fun m sbz => ⟨encodedAs_of_eq (encHi_append ..), encodedAs_of_eq (encHi_append ..), fun s => ⟨?odd, ?even, ?pc⟩⟩
  case odd => exact fun h => ⟨exec_bx_of_odd h, exec_blx_of_odd h⟩
  case even => exact fun h => ⟨exec_exchange_of_even (.inl rfl) h, exec_exchange_of_even (.inr rfl) h⟩
  case pc => exact State.Inv.toNat_pc_mod_two

/-! ## Conditional branches -/

theorem branchOffset_eq_ofInt {n : Nat} (hn : n + 1 ≤ 32) (i : BitVec n) : branchOffset i = BitVec.ofInt 32 (2 * i.toInt) := by
  rw [← branchOffset_toInt i hn, BitVec.ofInt_toInt]

/-- A conditional branch under its test of the flags, as R236 writes it: taken to X + 4 plus its offset, or nothing (R237). -/
theorem branchIf_of_iff {c : Cond} {imm8 : BitVec 8} {holds : Prop} (hc : condHolds c s.flags = true ↔ holds) :
    (holds → branchIf c imm8 s = .next (branchTo (s.reg PC + BitVec.ofInt 32 (2 * imm8.toInt)) s)) ∧
    (¬ holds → branchIf c imm8 s = .next s) := by
  rw [← branchOffset_eq_ofInt (by decide), ← hc, branchIf_eq]
  exact ⟨fun h => by rw [if_pos h], fun h => by rw [if_neg h]⟩

/-- Settles O18: each form is the shared conditional branch, its condition a flag set, a flag clear, or two flags compared or combined. -/
theorem conditionalBranches : Obligations.ConditionalBranches := by
  unfold Obligations.ConditionalBranches
  intro imm8
  refine ⟨⟨encodedAs_of_eq rfl, fun s => branchIf_of_iff (c := .eq) ?eq⟩,
    ⟨encodedAs_of_eq rfl, fun s => branchIf_of_iff (c := .ne) ?ne⟩,
    ⟨encodedAs_of_eq rfl, fun s => branchIf_of_iff (c := .cs) ?cs⟩,
    ⟨encodedAs_of_eq rfl, fun s => branchIf_of_iff (c := .cc) ?cc⟩,
    ⟨encodedAs_of_eq rfl, fun s => branchIf_of_iff (c := .mi) ?mi⟩,
    ⟨encodedAs_of_eq rfl, fun s => branchIf_of_iff (c := .pl) ?pl⟩,
    ⟨encodedAs_of_eq rfl, fun s => branchIf_of_iff (c := .vs) ?vs⟩,
    ⟨encodedAs_of_eq rfl, fun s => branchIf_of_iff (c := .vc) ?vc⟩,
    ⟨encodedAs_of_eq rfl, fun s => branchIf_of_iff (c := .hi) ?hi⟩,
    ⟨encodedAs_of_eq rfl, fun s => branchIf_of_iff (c := .ls) ?ls⟩,
    ⟨encodedAs_of_eq rfl, fun s => branchIf_of_iff (c := .ge) ?ge⟩,
    ⟨encodedAs_of_eq rfl, fun s => branchIf_of_iff (c := .lt) ?lt⟩,
    ⟨encodedAs_of_eq rfl, fun s => branchIf_of_iff (c := .gt) ?gt⟩,
    ⟨encodedAs_of_eq rfl, fun s => branchIf_of_iff (c := .le) ?le⟩,
    encodedAs_of_eq rfl, raise_eq _, encodedAs_of_eq rfl⟩
  case eq | cs | mi | vs => exact Iff.rfl
  case ne | cc | pl | vc => simp only [condHolds, Bool.not_eq_true']
  case ge | lt => simp only [condHolds, beq_iff_eq, bne_iff_ne, ne_eq]
  case hi | ls | gt | le =>
    simp only [condHolds, Bool.and_eq_true, Bool.or_eq_true, Bool.not_eq_true', beq_iff_eq, bne_iff_ne, ne_eq]

/-! ## B and BL -/

theorem exec_b (imm11 : BitVec 11) (s : State) :
    exec (.b imm11) s = .next (branchTo (s.reg PC + branchOffset imm11) s) := rfl

theorem exec_bl (sgn : BitVec 1) (imm10 : BitVec 10) (j1 j2 : BitVec 1) (imm11 : BitVec 11) (s : State) :
    exec (.bl sgn imm10 j1 j2 imm11) s =
      .next (branchTo (s.reg PC + longBranchOffset sgn imm10 j1 j2 imm11) (s.setReg LR (s.reg PC ||| 1))) := rfl

/-- Settles O19: the encodings read back, and the offsets are the model's. -/
theorem branchAndBranchWithLink : Obligations.BranchAndBranchWithLink := by
  unfold Obligations.BranchAndBranchWithLink
  refine ⟨fun imm11 => ⟨encodedAs_of_eq rfl, fun s => ?b⟩, fun sgn imm10 j1 j2 imm11 => ⟨?decode, fun s => ?bl⟩⟩
  case b => rw [exec_b, branchOffset_eq_ofInt (by decide)]
  case decode => exact decode_encode (i := .bl sgn imm10 j1 j2 imm11) rfl 0
  case bl => exact exec_bl sgn imm10 j1 j2 imm11 s

/-! ## The link register -/

/-- A branch with link leaves the odd link value in LR, for BranchTo writes R15 alone (R42, R234). -/
theorem link_next (target ret : Word) (s : State) :
    ∃ t, (Host.Outcome.next (branchTo target (s.setReg LR (ret ||| 1))) : Outcome) = .next t ∧ t.reg LR = (ret ||| 1) ∧
      (t.reg LR).toNat % 2 = 1 := by
  have hlink : (branchTo target (s.setReg LR (ret ||| 1))).reg LR = (ret ||| 1) := by
    rw [branchTo_reg, if_neg (by decide), State.reg_setReg_self]
  exact ⟨_, rfl, hlink, by rw [hlink, toNat_or_one_mod_two]⟩

/-- LR is no low register, so only the branches with link and the forms that name a register R0 to R15 have it among the registers they write
(R234). -/
theorem writes_lr (h : LR ∈ i.writesRegs) :
    (∃ sgn imm10 j1 j2 imm11, i = .bl sgn imm10 j1 j2 imm11) ∨ (∃ m sbz, i = .blx m sbz) ∨ (∃ m, i = .addHi m 14) ∨
      ∃ m, i = .movHi m 14 := by
  have hlow : ∀ rd : LowReg, LR ≠ low rd := fun rd => (low_ne_lr rd).symm
  have hlist : ∀ rlist : BitVec 8, LR ∉ listedRegs rlist := fun _ h => listedRegs_ne_lr h rfl
  have hsp : LR ≠ SP := by decide
  cases i with
  | bl sgn imm10 j1 j2 imm11 => exact .inl ⟨sgn, imm10, j1, j2, imm11, rfl⟩
  | blx m sbz => exact .inr (.inl ⟨m, sbz, rfl⟩)
  | addHi m d => rw [← List.mem_singleton.1 h]; exact .inr (.inr (.inl ⟨m, rfl⟩))
  | movHi m d => rw [← List.mem_singleton.1 h]; exact .inr (.inr (.inr ⟨m, rfl⟩))
  | _ => simp [Instr.writesRegs, hlow, hlist, hsp] at h

/-- Settles O20: the link value stays through BranchTo; LR stands in the lists of these forms only. -/
theorem linkValuesAndTheirWriters : Obligations.LinkValuesAndTheirWriters := by
  unfold Obligations.LinkValuesAndTheirWriters
  refine ⟨fun sgn imm10 j1 j2 imm11 s => ?bl, fun m sbz s hodd => ?blx, fun i s t h hlr => writes_lr ?listed⟩
  case bl => exact exec_bl sgn imm10 j1 j2 imm11 s ▸ link_next _ _ s
  case blx => exact exec_blx_of_odd hodd ▸ link_next _ _ s
  case listed =>
    by_contra hnot
    exact hlr ((exec_effect h).sameRegsExcept LR (by decide) hnot)

end Sys2Proof.Machine
end

section
/-! SUPPORT. The instructions that are recognised and not implemented (45_unimplemented.md R250 to R263). -/

namespace Sys2Proof.Machine

/-- The byte format with its low byte in two fields of four bits, as the hints and CPS use it (R111). -/
theorem encByte_append_nibbles (op8 : BitVec 8) (high4 low4 : BitVec 4) : encByte op8 (high4 ++ low4) = op8 ++ high4 ++ low4 := by
  rw [BitVec.append_assoc]
  rfl

/-- An instruction with no meaning but its NotImplementedFeature halts in every state, with the halfwords it is encoded in as the record
(R250). -/
theorem exec_of_unimplementedName {i : Instr} {name : Feature} (h : i.unimplementedName = some name) (s : State) :
    exec i s = .next (haltedAt (.notImplementedFeature name (encodeFirst i) (encodeSecond i)) s) := by
  cases i with
  | nop | yield | wfe | wfi | sev | svc | bkpt | dsb | dmb | isb => cases h; exact raiseNotImplemented_eq ..
  | hint | cpsie | cpsid => cases h; rw [encodeFirst, encByte_append_nibbles]; exact raiseNotImplemented_eq ..
  | _ => cases h

/-- A 16-bit instruction of 45_unimplemented.md: it is read back from its halfword, which is its record. -/
theorem encodedAs_and_halts {i : Instr} {name : Feature} {hw1 : Half} (hfirst : encodeFirst i = hw1)
    (hname : i.unimplementedName = some name) (hwf : i.wf = true := by rfl) (hshort : encodeSecond i = none := by rfl) :
    EncodedAs hw1 i ∧ ∀ s, exec i s = .next (haltedAt (.notImplementedFeature name hw1 none) s) :=
  ⟨encodedAs_of_eq hfirst hwf hshort, fun s => by rw [exec_of_unimplementedName hname, hfirst, hshort]⟩

/-- Settles O21: each is a 16-bit instruction without a meaning; an op from 5 up is what R111 leaves to the other hints. -/
theorem hintsAndCpsHaltAsUnimplemented : Obligations.HintsAndCpsHaltAsUnimplemented := by
  unfold Obligations.HintsAndCpsHaltAsUnimplemented
  refine ⟨encodedAs_and_halts rfl rfl, encodedAs_and_halts rfl rfl, encodedAs_and_halts rfl rfl, encodedAs_and_halts rfl rfl,
    encodedAs_and_halts rfl rfl, fun op hop => ?hint, fun low4 => ?cps⟩
  case hint => exact encodedAs_and_halts (encByte_append_nibbles ..) rfl (hwf := decide_eq_true hop)
  case cps =>
    obtain ⟨hcpsie, hcpsieHalts⟩ := encodedAs_and_halts (i := .cpsie low4) (encByte_append_nibbles ..) rfl
    obtain ⟨hcpsid, hcpsidHalts⟩ := encodedAs_and_halts (i := .cpsid low4) (encByte_append_nibbles ..) rfl
    exact ⟨hcpsie, hcpsid, fun s => ⟨hcpsieHalts s, hcpsidHalts s⟩⟩

/-- Settles O22: SVC and BKPT are 16-bit instructions without a meaning; a barrier's second halfword is in its record. -/
theorem svcBkptAndBarriersHaltAsUnimplemented : Obligations.SvcBkptAndBarriersHaltAsUnimplemented := by
  unfold Obligations.SvcBkptAndBarriersHaltAsUnimplemented
  refine ⟨fun imm8 => ?svcBkpt, fun op => ⟨?dsb, ?dmb, ?isb, fun s => ⟨?dsbHalts, ?dmbHalts, ?isbHalts⟩⟩⟩
  case svcBkpt =>
    obtain ⟨hsvc, hsvcHalts⟩ := encodedAs_and_halts (i := .svc imm8) rfl rfl
    obtain ⟨hbkpt, hbkptHalts⟩ := encodedAs_and_halts (i := .bkpt imm8) rfl rfl
    exact ⟨hsvc, hbkpt, fun s => ⟨hsvcHalts s, hbkptHalts s⟩⟩
  case dsb => exact decode_encode (i := .dsb op) rfl 0
  case dmb => exact decode_encode (i := .dmb op) rfl 0
  case isb => exact decode_encode (i := .isb op) rfl 0
  case dsbHalts | dmbHalts | isbHalts => exact exec_of_unimplementedName rfl s

end Sys2Proof.Machine
end

section
/-! SUPPORT. The fatal errors (60_exceptions.md R270 to R288): the errors decoding raises, the encodings the fault policy turns away, the errors
an instruction raises, and the state a step that halts leaves. -/

namespace Sys2Proof.Machine

variable {s t : State} {i : Instr}

/-! ## The errors of decoding -/

section decoding
variable {pf : Platform} {hw1 hw2 : Half}

theorem decodeFetched_of_unknown (h : ∀ i, decode hw1 hw2 ≠ .ok i) : decodeFetched pf hw1 hw2 = .error (.unknownInstruction hw1) := by
  rcases decode_error_or_ok hw1 hw2 with hd | ⟨i, hd⟩
  · simp only [decodeFetched, hd]
  · exact absurd hd (h i)

theorem decodeFetched_of_unpredictable (hd : decode hw1 hw2 = .ok i) (hpolicy : pf.unpred = .fault) (hu : i.unpredictable = true) :
    decodeFetched pf hw1 hw2 = .error (.unsupportedSubOperation .unpredictable) := by
  simp only [decodeFetched, hd, if_pos (And.intro hpolicy hu)]

theorem decodeFetched_of_allowed (hd : decode hw1 hw2 = .ok i) (hallowed : ¬ (pf.unpred = .fault ∧ i.unpredictable = true)) :
    decodeFetched pf hw1 hw2 = .ok i :=
  decodeFetched_of_decode hd fun hpolicy => Bool.eq_false_of_not_eq_true fun hu => hallowed ⟨hpolicy, hu⟩

/-- The pairs a Cycle does not execute (R271, R272). -/
theorem exists_decodeFetched_eq_error_iff : (∃ cause, decodeFetched pf hw1 hw2 = .error cause) ↔
    (∀ i, decode hw1 hw2 ≠ .ok i) ∨ ∃ i, decode hw1 hw2 = .ok i ∧ pf.unpred = .fault ∧ i.unpredictable = true := by
  constructor
  · rintro ⟨cause, h⟩
    refine or_iff_not_imp_left.2 fun hknown => ?_
    obtain ⟨i, hd⟩ := not_forall_not.1 hknown
    refine ⟨i, hd, ?_⟩
    by_contra hallowed
    cases h.symm.trans (decodeFetched_of_allowed hd hallowed)
  · rintro (hunknown | ⟨i, hd, hpolicy, hu⟩)
    · exact ⟨_, decodeFetched_of_unknown hunknown⟩
    · exact ⟨_, decodeFetched_of_unpredictable hd hpolicy hu⟩

theorem decodeFetched_eq_ok_iff : decodeFetched pf hw1 hw2 = .ok i ↔
    decode hw1 hw2 = .ok i ∧ ¬ (pf.unpred = .fault ∧ i.unpredictable = true) := by
  constructor
  · intro h
    have hdecodes : ¬ ∃ cause, decodeFetched pf hw1 hw2 = .error cause := by simp [h]
    rw [exists_decodeFetched_eq_error_iff, not_or] at hdecodes
    obtain ⟨hknown, hallowed⟩ := hdecodes
    obtain ⟨j, hd⟩ := not_forall_not.1 hknown
    have hj : ¬ (pf.unpred = .fault ∧ j.unpredictable = true) := fun hu => hallowed ⟨j, hd, hu⟩
    cases h.symm.trans (decodeFetched_of_allowed hd hj)
    exact ⟨hd, hj⟩
  · exact fun ⟨hd, hallowed⟩ => decodeFetched_of_allowed hd hallowed

end decoding

/-- Settles O35: the step raises what decoding such a pair raises. -/
theorem unknownInstructionHaltsAtDecode : Obligations.UnknownInstructionHaltsAtDecode := by
  unfold Obligations.UnknownInstructionHaltsAtDecode
  exact fun _ hr hp hunknown => step_of_decode_error hr hp (decodeFetched_of_unknown hunknown)

/-! ## The UNPREDICTABLE encodings -/

/-- The bits of the mask UP6 tests the list with: those below the base's. -/
theorem getLsbD_belowMask : ∀ rb r : LowReg, ((1#8 <<< rb.toNat) - 1).getLsbD r.toNat = decide (r.toNat < rb.toNat) := by decide

theorem ne_zero_iff_exists_getLsbD {x : BitVec 8} : x ≠ 0 ↔ ∃ r : LowReg, x.getLsbD r.toNat = true := by
  constructor
  · intro hne
    by_contra hnone
    refine hne (BitVec.eq_of_getLsbD_eq fun k hk => (Bool.eq_false_of_not_eq_true fun hset => hnone ?_).trans BitVec.getLsbD_zero.symm)
    exact ⟨BitVec.ofNat 3 k, by rwa [BitVec.toNat_ofNat, Nat.mod_eq_of_lt hk]⟩
  · rintro ⟨r, hset⟩ rfl
    cases BitVec.getLsbD_zero.symm.trans hset

/-- The list names a register below the base (UP6). -/
theorem and_belowMask_ne_zero_iff {rb : LowReg} {rlist : BitVec 8} :
    rlist &&& ((1#8 <<< rb.toNat) - 1) ≠ 0 ↔ ∃ r : LowReg, r.toNat < rb.toNat ∧ rlist.getLsbD r.toNat = true := by
  rw [ne_zero_iff_exists_getLsbD]
  refine exists_congr fun r => ?_
  rw [BitVec.getLsbD_and, getLsbD_belowMask, Bool.and_eq_true, decide_eq_true_iff, and_comm]

theorem unpredictable_stmia_iff {rb : LowReg} {rlist : BitVec 8} : (Instr.stmia rb rlist).unpredictable = true ↔
    rlist = 0 ∨ (rlist.getLsbD rb.toNat = true ∧ ∃ r : LowReg, r.toNat < rb.toNat ∧ rlist.getLsbD r.toNat = true) := by
  rw [← and_belowMask_ne_zero_iff, Instr.unpredictable, Bool.or_eq_true, beq_iff_eq, Bool.and_eq_true, bne_iff_ne]

/-- Settles O36: decoding raises the error, and each form of UP1 to UP6 is the test of its own constructor. -/
theorem unpredictableEncodingsHaltUnderTheFaultPolicy : Obligations.UnpredictableEncodingsHaltUnderTheFaultPolicy := by
  unfold Obligations.UnpredictableEncodingsHaltUnderTheFaultPolicy
  refine ⟨fun s i hr hp hd hpolicy hu => step_of_decode_error hr hp (decodeFetched_of_unpredictable hd hpolicy hu), fun i => ?_⟩
  cases i with
  | cmpHi m d => simp [Instr.unpredictable, BitVec.lt_def, or_assoc]
  | stmia rb rlist => simp [unpredictable_stmia_iff]
  | _ => simp [Instr.unpredictable]

/-! ## The errors of an instruction -/

/-- A target BX and BLX refuse is an even one (R274). -/
theorem getLsbD_zero_eq_false_iff {x : Word} : x.getLsbD 0 = false ↔ x.toNat % 2 = 0 := by
  rw [getLsbD_zero_eq, decide_eq_false_iff_not, Nat.mod_two_not_eq_one]

/-- What an instruction can halt with, in the terms of the spec (R272 to R274). -/
theorem exists_raises_iff : (∃ cause, Raises i s cause) ↔
    i.unimplementedName ≠ none ∨ (∃ imm8, i = .bUndefined imm8) ∨
      (∃ m sbz, (i = .bx m sbz ∨ i = .blx m sbz) ∧ (s.reg m).toNat % 2 = 0) ∨ i.accessMisaligned s := by
  constructor
  · rintro ⟨_, h⟩
    cases h with
    | unimplemented name _ _ hname => exact .inl (by simp [hname])
    | undefined imm8 hi => exact .inr (.inl ⟨imm8, hi⟩)
    | evenTarget m sbz hi heven => exact .inr (.inr (.inl ⟨m, sbz, hi, getLsbD_zero_eq_false_iff.1 heven⟩))
    | misaligned hm => exact .inr (.inr (.inr hm))
  · rintro (hname | ⟨imm8, hi⟩ | ⟨m, sbz, hi, heven⟩ | hm)
    · obtain ⟨name, hname⟩ := Option.ne_none_iff_exists'.1 hname
      exact ⟨_, .unimplemented name 0 none hname⟩
    · exact ⟨_, .undefined imm8 hi⟩
    · exact ⟨_, .evenTarget m sbz hi (getLsbD_zero_eq_false_iff.2 heven)⟩
    · exact ⟨_, .misaligned hm⟩

/-- An instruction with a cause to halt does halt. -/
theorem Raises.exec_halts {cause : FatalCause} (h : Raises i s cause) : ∃ cause', exec i s = .next (haltedAt cause' s) := by
  cases h with
  | unimplemented _ _ _ hname => exact ⟨_, exec_of_unimplementedName hname s⟩
  | undefined imm8 hi => subst hi; exact ⟨_, raise_eq ..⟩
  | evenTarget m sbz hi heven => exact ⟨_, exec_exchange_of_even hi (getLsbD_zero_eq_false_iff.1 heven)⟩
  | misaligned hm => exact ⟨_, exec_of_accessMisaligned hm⟩

/-- A core halts in an instruction for one of its causes, and then nothing but `run` has changed (R275). -/
theorem exec_halted (hr : s.run = .running) (h : exec i s = .next t) {err : Option FatalError} (ht : t.run = .halted err) :
    ∃ cause, Raises i s cause ∧ t = haltedAt cause s := by
  rcases exec_runsOrRaises h with hsame | hraises
  · rw [hsame, hr] at ht
    cases ht
  · exact hraises

theorem exec_halted_iff (hr : s.run = .running) (h : exec i s = .next t) :
    (∃ err, t.run = .halted err) ↔ ∃ cause, Raises i s cause := by
  constructor
  · rintro ⟨err, ht⟩
    obtain ⟨cause, hcause, _⟩ := exec_halted hr h ht
    exact ⟨cause, hcause⟩
  · rintro ⟨cause, hcause⟩
    obtain ⟨cause', hexec⟩ := hcause.exec_halts
    cases hexec.symm.trans h
    exact ⟨_, haltedAt_run ..⟩

/-! ## The step -/

/-- A step that halts leaves the state of its Advance but for `run` (R275). -/
theorem step_halted (hr : s.run = .running) (h : step s = .next t) {err : Option FatalError} (ht : t.run = .halted err) :
    ∃ cause, t = haltedAt cause (advance s) := by
  rcases step_cases h with ⟨hnot, _⟩ | ⟨_, _, ⟨cause, _, rfl⟩ | ⟨i, _, hi⟩⟩
  · exact absurd hr hnot
  · exact ⟨cause, rfl⟩
  · obtain ⟨cause, _, rfl⟩ := exec_halted (s := advance s) hr hi ht
    exact ⟨cause, rfl⟩

/-- Settles O43: the step is total on an admitted platform, and its other two equations are its first two branches. -/
theorem everyAdmittedMachineSteps : Obligations.EveryAdmittedMachineSteps := by
  unfold Obligations.EveryAdmittedMachineSteps
  exact ⟨fun _ => step_total, fun _ _ hr => step_of_not_running (by simp [hr]), fun _ => step_of_refused_platform⟩

/-- Settles O44: the halted state is that of the Advance, which moved fetch_ptr from X to X + 2. -/
theorem fatalErrorsArePrecise : Obligations.FatalErrorsArePrecise := by
  unfold Obligations.FatalErrorsArePrecise
  intro s t err hr h ht
  obtain ⟨cause, rfl⟩ := step_halted hr h ht
  obtain ⟨hslot0, hfetch, hslot1, _, hlog, hregs, hflags, hbytes, _, hmachine⟩ := advanceShiftsAndRefills s
  refine ⟨⟨cause, ?record⟩, hfetch, advance_reg_pc s, hslot0, hslot1, hlog, hregs, hflags, hbytes, ⟨hmachine.thumb, hmachine.platform⟩⟩
  case record =>
    have hx : (advance s).fetchPtr - 2 = s.fetchPtr := BitVec.add_sub_cancel ..
    rw [haltedAt_run, hx] at ht
    cases ht
    rfl

/-- Settles O45: the step halts when decoding raises an error and when the instruction it executes does; the two causes exclude each other. -/
theorem fatalErrorsHaveTheseCausesOnly : Obligations.FatalErrorsHaveTheseCausesOnly := by
  unfold Obligations.FatalErrorsHaveTheseCausesOnly
  intro s t hr h
  simp only [← exists_raises_iff]
  rcases step_cases h with ⟨hnot, _⟩ | ⟨_, _, ⟨cause, hd, rfl⟩ | ⟨i, hd, hi⟩⟩
  · exact absurd hr hnot
  · refine iff_of_true ⟨_, haltedAt_run ..⟩ ((exists_decodeFetched_eq_error_iff.1 ⟨cause, hd⟩).imp_right ?_)
    exact fun ⟨i, hdecode, hu⟩ => ⟨i, hdecode, .inl hu⟩
  · obtain ⟨hdecode, hallowed⟩ := decodeFetched_eq_ok_iff.1 hd
    rw [exec_halted_iff (s := advance s) hr hi]
    constructor
    · exact fun hraises => .inr ⟨i, hdecode, .inr hraises⟩
    · rintro (hunknown | ⟨j, hj, hu | hraises⟩)
      · exact absurd hdecode (hunknown i)
      · cases hdecode.symm.trans hj; exact absurd hu hallowed
      · cases hdecode.symm.trans hj; exact hraises

end Sys2Proof.Machine
end

section
/-! SUPPORT. Reset, boot and the fetch unit's hazards (70_reset_and_hazards.md): what Reset writes, that it completes the invariant of any loaded
machine, and what the FIFO holds after a step that continues and after one that transfers control. -/

namespace Sys2Proof.Machine

variable {s t : State} {i : Instr}

/-! ## Reset -/

/-- Reset is BranchTo of the vector word, with T and run set (R300). -/
theorem resetCore_eq (s : State) :
    resetCore s = { branchTo (s.read 4 .word).1 (s.read 4 .word).2 with t := true, run := .running } := rfl

/-- Settles O39: beside T and run, Reset leaves what the read of the vector and BranchTo leave. -/
theorem resetLoadsTheVector : Obligations.ResetLoadsTheVector := by
  unfold Obligations.ResetLoadsTheVector
  intro s
  rw [resetCore_eq]
  obtain ⟨hfetch, hslot0, hslot1, hpc, hlog, hregs, hflags, hbytes, _, hmachine⟩ :=
    branchToReseedsTheFetchUnit (s.read 4 .word).1 (s.read 4 .word).2
  exact ⟨rfl, rfl, hfetch, hslot0, hslot1, hpc, hlog, hregs, hflags, hbytes, hmachine.platform⟩

/-! ## Loading and boot -/

/-- The part of the invariant that Reset does not establish and loading has to keep: canonical memory inside the arrays of an admitted
platform. -/
structure State.StorageInv (s : State) : Prop where
  memCanonical : Memory.wf s.mem = true
  memInArrays : memBacked s.platform s.mem = true
  platformAdmitted : platformOk s.platform = true

theorem State.storageInv_powerOn {pf : Platform} (hp : platformOk pf = true) : (State.powerOn pf).StorageInv := ⟨rfl, rfl, hp⟩

theorem State.StorageInv.write (h : s.StorageInv) (a : Word) (w : Width) (v : Word) : (s.write a w v).StorageInv where
  memCanonical := State.wf_write h.memCanonical a w v
  memInArrays := State.memBacked_write h.memInArrays a w v
  platformAdmitted := h.platformAdmitted

theorem State.StorageInv.loadProgram (h : s.StorageInv) (writes : List LoadWrite) : (loadProgram writes s).StorageInv := by
  induction writes generalizing s with
  | nil => exact h
  | cons l rest ih => exact ih (h.write l.addr l.width l.value)

/-- Reset establishes the rest of the invariant: R15, fetch_ptr and T (R300). -/
theorem State.StorageInv.resetCore (h : s.StorageInv) : (resetCore s).Inv where
  memCanonical := h.memCanonical
  memInArrays := h.memInArrays
  pcPair := branchTo_reg_pc ..
  fetchEven := even_of_mask _
  thumb := rfl
  platformAdmitted := h.platformAdmitted

/-- Settles O42: the machine that is powered on has the storage's part of the invariant, loading keeps it, and Reset adds the rest. -/
theorem bootedMachineHasTheInvariant : Obligations.BootedMachineHasTheInvariant := by
  unfold Obligations.BootedMachineHasTheInvariant
  exact fun _ writes hp => ((State.storageInv_powerOn hp).loadProgram writes).resetCore

/-- The reset state is the boot of the example platform with nothing loaded. -/
theorem boot_examplePlatform_nil : boot Config.examplePlatform [] = State.reset := by decide

/-- Settles O41: the reset state is a booted machine. -/
theorem resetStateHasTheInvariant : Obligations.ResetStateHasTheInvariant := by
  unfold Obligations.ResetStateHasTheInvariant
  rw [← boot_examplePlatform_nil]
  exact bootedMachineHasTheInvariant _ [] (by decide)

/-! ## The FIFO after a step -/

/-- A running core halts at decode or executes the instruction its FIFO holds. -/
theorem step_of_decode (hr : s.run = .running) (hd : decode s.slot0 s.slot1 = .ok i) (h : step s = .next t) :
    (∃ cause, t = haltedAt cause (advance s)) ∨ exec i (advance s) = .next t := by
  rcases step_cases h with ⟨hnot, _⟩ | ⟨_, _, ⟨cause, _, rfl⟩ | ⟨j, hj, hexec⟩⟩
  · exact absurd hr hnot
  · exact .inl ⟨cause, rfl⟩
  · cases hd.symm.trans (decodeFetched_eq_ok_iff.1 hj).1
    exact .inr hexec

/-- After a step that transfers no control the FIFO is as its Advance left it, whose one read came before the instruction executed (R41, R49). -/
theorem step_continues (hr : s.run = .running) (hd : decode s.slot0 s.slot1 = .ok i) (hn : i.mayTransfer s.flags = false)
    (h : step s = .next t) :
    t.fetchPtr = s.fetchPtr + 2 ∧ t.slot0 = s.slot1 ∧ t.slot1 = BitVec.ofNat 16 (s.read (s.fetchPtr + 4) .half).1.toNat := by
  obtain ⟨hslot0, hfetch, hslot1, _⟩ := advanceShiftsAndRefills s
  rcases step_of_decode hr hd h with ⟨_, rfl⟩ | hexec
  · exact ⟨hfetch, hslot0, hslot1⟩
  · obtain ⟨hfetch', hslot0', hslot1', _⟩ := (exec_effect hexec).continues hn
    exact ⟨hfetch'.trans hfetch, hslot0'.trans hslot0, hslot1'.trans hslot1⟩

/-- A step that may transfer control and leaves the core running ends in BranchTo (R46). -/
theorem step_transfers (hr : s.run = .running) (hr' : t.run = .running) (hd : decode s.slot0 s.slot1 = .ok i)
    (ht : i.mayTransfer s.flags = true) (h : step s = .next t) : ∃ target u, t = branchTo target u := by
  have hnot : ∀ cause, t ≠ haltedAt cause (advance s) := by
    rintro cause rfl
    cases hr'
  rcases step_of_decode hr hd h with ⟨cause, hhalted⟩ | hexec
  · exact absurd hhalted (hnot cause)
  · exact (transfer_cases hexec ht).resolve_left fun ⟨cause, hhalted⟩ => hnot cause hhalted

/-- A halfword of array bytes reads as the number they spell, and the read leaves no trace. -/
theorem State.read_half_inStorage {a : Word} (h : InStorage s.platform a 2) :
    s.read a .half = (BitVec.ofNat 32 (s.littleEndian 2 a), s) := by
  rw [State.read_inStorage (w := .half) h, State.storedValue_eq s (by decide)]
  rfl

/-- The upper halfword of a word in the arrays lies in them too. -/
theorem inStorage_upperHalf {pf : Platform} {a : Word} (h : InStorage pf a 4) : InStorage pf (a + 2) 2 := fun b hb => h b (by
  unfold InBytes at *
  bv_omega)

/-- BranchTo an array address fills both slots with the bytes there (R42). -/
theorem branchTo_slots_of_inStorage {target : Word} (h : InStorage s.platform (target &&& 0xFFFFFFFE) 4) :
    (branchTo target s).slot0 = BitVec.ofNat 16 (s.littleEndian 2 (target &&& 0xFFFFFFFE)) ∧
    (branchTo target s).slot1 = BitVec.ofNat 16 (s.littleEndian 2 ((target &&& 0xFFFFFFFE) + 2)) := by
  have hfirst := State.read_half_inStorage (inStorage_mono h (by decide))
  have hsecond := State.read_half_inStorage (inStorage_upperHalf h)
  constructor
  · rw [branchTo_slot0, hfirst]
    exact BitVec.setWidth_ofNat_of_le (by decide) _
  · rw [branchTo_slot1, hfirst, hsecond]
    exact BitVec.setWidth_ofNat_of_le (by decide) _

/-- Settles O57: two steps that continue each shift the FIFO by one halfword; a transfer's BranchTo reads after all stores of its instruction. -/
theorem storesAreSeenByFetchAfterTwoHalfwords : Obligations.StoresAreSeenByFetchAfterTwoHalfwords := by
  unfold Obligations.StoresAreSeenByFetchAfterTwoHalfwords
  refine ⟨?continues, ?transfers⟩
  case continues =>
    intro s t u i j hr hr' hi hni hst hj hnj htu
    obtain ⟨hfetch, hslot0, hslot1⟩ := step_continues hr hi hni hst
    obtain ⟨_, hslot0', hslot1'⟩ := step_continues hr' hj hnj htu
    have hread : t.fetchPtr + 4 = s.fetchPtr + 6 := by rw [hfetch, BitVec.add_assoc]; rfl
    exact ⟨hslot0, hslot0'.trans hslot1, hread ▸ hslot1'⟩
  case transfers =>
    intro s t i hr hr' hi ht hst hstorage
    obtain ⟨target, u, rfl⟩ := step_transfers hr hr' hi ht hst
    exact branchTo_slots_of_inStorage hstorage

end Sys2Proof.Machine
end
